-- ==== Sys2Proof/Word.lean ====
section
/-! DEFINITION. The word types of the RLEC codec block (00_scope.md R8, R12): bytes and 64-bit registers. Lengths, positions and counts are natural numbers (R12) and need no type here. -/

namespace Sys2Proof

/-- An unsigned 8-bit value, bit 0 least significant (00_scope.md R11, R12). -/
abbrev Byte := BitVec 8

/-- An unsigned 64-bit register value (00_scope.md R8, R12). -/
abbrev Word := BitVec 64

end Sys2Proof
end

