-- ==== Sys2Proof/Config.lean ====
section
/-! DEFINITION. What an instance of the block fixes (00_scope.md R8, R9), the constants of the format, and the free values the spec leaves open ("draws", R14). -/

namespace Sys2Proof

/-- The OPEN parameters of one instance of the block (00_scope.md R8): the two capacities and the host addresses of
the three regions. They are held in State, so every statement about a state quantifies over them; no step changes
them. -/
structure Params where
  /-- `IN_CAP`, the capacity of `IN` in bytes. -/
  inCap : Nat
  /-- `OUT_CAP`, the capacity of `OUT` in bytes. -/
  outCap : Nat
  /-- `REG_BASE`, the host address of the register window. -/
  regBase : Nat
  /-- `IN_BASE`, the host address of `IN`. -/
  inBase : Nat
  /-- `OUT_BASE`, the host address of `OUT`. -/
  outBase : Nat
  deriving DecidableEq, Repr

namespace Config

/-- `RUN_MAX`, the longest run one run block encodes (00_scope.md R8). -/
def runMax : Nat := 128

/-- `LIT_MAX`, the longest literal one literal block carries (00_scope.md R8). -/
def litMax : Nat := 128

/-- The largest legal capacity (00_scope.md R9). -/
def capMax : Nat := 2 ^ 56

/-- The bytes of the register window (10_state.md R23, 20_memory.md R50). -/
def regBytes : Nat := 64

/-- The parameters of the instance `State.reset` describes. DESIGN CHOICE (log entries 2 and 3): the spec leaves them
OPEN; no statement rests on these values. -/
def defaultParams : Params :=
  { inCap := 4096, outCap := 4096, regBase := 0x0, inBase := 0x10000, outBase := 0x20000 }

/-- The `k`-th draw: a byte the spec leaves free (`any`, 00_scope.md R14). It has no body, so nothing can be proved of
its value (log entry 6). -/
opaque freeByte : Nat → Byte

end Config

end Sys2Proof
end

