-- ==== Sys2Proof/Syntax.lean ====
section
/-! DEFINITION. The instructions of spec/opcode_table.json: the two block kinds a control byte names (30_encoding.md R71 to R78) and the three legal CMD words (R80). -/

namespace Sys2Proof

/-- One constructor per row of the opcode table. `len` is the length operand of a control byte, a natural number in
`1 .. 128` (30_encoding.md R73). The payload of a block is not part of the instruction: its meaning reads it from `IN`,
as 42_decoder.md R152 and R153 do (log entry 12). -/
inductive Instr where
  /-- `LIT`, a literal block of `len` raw bytes (30_encoding.md R74). -/
  | lit (len : Nat)
  /-- `RUN`, a run block of `len` copies of one fill byte (30_encoding.md R75). -/
  | run (len : Nat)
  /-- `NOP`, CMD word 0 (40_commands.md R101). -/
  | nop
  /-- `ENCODE`, CMD word 1 (40_commands.md R102). -/
  | encode
  /-- `DECODE`, CMD word 2 (40_commands.md R103). -/
  | decode
  deriving DecidableEq, Repr

end Sys2Proof
end

