-- ==== Sys2Proof/WellFormed.lean ====
section
/-! DEFINITION. Which instructions and which instance parameters are well-formed. -/

namespace Sys2Proof

/-- A block's length is in `1 .. 128` (30_encoding.md R73, R74, R78). -/
def blockLenOk (len : Nat) : Bool := decide (1 ≤ len ∧ len ≤ 128)

/-- The instructions that have an encoding. -/
def Instr.wellFormed : Instr → Bool
  | .lit len => blockLenOk len
  | .run len => blockLenOk len
  | .nop => true
  | .encode => true
  | .decode => true

/-- The instructions the encoder can emit: run blocks of length 2 to 128 (30_encoding.md R76). CMD words are not part
of a stream. -/
def Instr.canonical : Instr → Bool
  | .lit len => blockLenOk len
  | .run len => decide (2 ≤ len ∧ len ≤ 128)
  | .nop => false
  | .encode => false
  | .decode => false

/-- Two address ranges, each a base and a size, share no address. -/
def rangesDisjoint (b₁ n₁ b₂ n₂ : Nat) : Bool := decide (b₁ + n₁ ≤ b₂ ∨ b₂ + n₂ ≤ b₁)

/-- The capacities are legal (00_scope.md R9) and the three regions do not overlap (20_memory.md R50). -/
def Params.wellFormed (p : Params) : Bool :=
  decide (1 ≤ p.inCap ∧ p.inCap ≤ Config.capMax ∧ 1 ≤ p.outCap ∧ p.outCap ≤ Config.capMax)
    && rangesDisjoint p.regBase Config.regBytes p.inBase p.inCap
    && rangesDisjoint p.regBase Config.regBytes p.outBase p.outCap
    && rangesDisjoint p.inBase p.inCap p.outBase p.outCap

end Sys2Proof
end

