-- ==== Sys2Proof/Decode.lean ====
section
/-! DEFINITION. Decoding of the two encoding spaces (30_encoding.md): the control byte of a stream block and the CMD word of a host command. Then the encoder, from the same tables. -/

namespace Sys2Proof

/-- An encoded instruction: the first byte of a stream block, or the 64-bit word written to `CMD`. -/
inductive Code where
  /-- A control byte (30_encoding.md R71). -/
  | control (c : Byte)
  /-- A CMD word (30_encoding.md R79). -/
  | cmd (w : Word)
  deriving DecidableEq, Repr

/-- Why a code names no instruction. -/
inductive DecodeReject where
  /-- A CMD word other than `0x0`, `0x1` and `0x2` (30_encoding.md R81). -/
  | illegalCmd (w : Word)
  /-- The stream has no byte left, so there is no control byte (30_encoding.md R70). -/
  | endOfStream
  deriving DecidableEq, Repr

/-- `K = c[7]`, the kind: true for a run block (30_encoding.md R71). -/
def controlIsRun (c : Byte) : Bool := c.getLsbD 7

/-- `zext_8(c[6:0]) + 1`, the length of a block (30_encoding.md R73). -/
def controlLen (c : Byte) : Nat := (c.extractLsb' 0 7).toNat + 1

/-- Every control byte names a block (30_encoding.md R77, R78; dispatch of 42_decoder.md R151). -/
def decodeControl (c : Byte) : Instr :=
  if controlIsRun c then .run (controlLen c) else .lit (controlLen c)

/-- `OP = CMD[1:0]` (30_encoding.md R79). -/
def cmdOp (w : Word) : BitVec 2 := w.extractLsb' 0 2

/-- `RES = CMD[63:2]`, which must be 0 (30_encoding.md R79). -/
def cmdRes (w : Word) : BitVec 62 := w.extractLsb' 2 62

/-- The CMD opcode map (30_encoding.md R80): a word selects an operation only when `RES = 0`; `OP = 3` and every word
with `RES` nonzero are illegal (R81). -/
def decodeCmd (w : Word) : Except DecodeReject Instr :=
  if cmdRes w ≠ 0 then .error (.illegalCmd w)
  else if cmdOp w = 0 then .ok .nop
  else if cmdOp w = 1 then .ok .encode
  else if cmdOp w = 2 then .ok .decode
  else .error (.illegalCmd w)

/-- Decoding, total on every code. -/
def decode : Code → Except DecodeReject Instr
  | .control c => .ok (decodeControl c)
  | .cmd w => decodeCmd w

/-- The instruction at the front of a byte stream and the bytes after its control byte. Total: an empty stream is
rejected by name, since its end is the end of the input (30_encoding.md R70). -/
def decodeStream : List Byte → Except DecodeReject (Instr × List Byte)
  | [] => .error .endOfStream
  | c :: rest => .ok (decodeControl c, rest)

/-- The bytes a block occupies in the stream (30_encoding.md R72): `1 + len` for a literal, 2 for a run. A CMD word
occupies none. -/
def Instr.streamBytes : Instr → Nat
  | .lit len => 1 + len
  | .run _ => 2
  | .nop => 0
  | .encode => 0
  | .decode => 0

/-! ### Encoder -/

/-- The control byte of a literal block, `0b0NNNNNNN` with `N7 = len - 1` (30_encoding.md R74). -/
def literalControl (len : Nat) : Byte := BitVec.ofNat 8 (len - 1)

/-- The control byte of a run block, `0x80 | (len - 1)` (30_encoding.md R75). -/
def runControl (len : Nat) : Byte := 0x80#8 ||| BitVec.ofNat 8 (len - 1)

/-- The code of a well-formed instruction. -/
def encode : Instr → Code
  | .lit len => .control (literalControl len)
  | .run len => .control (runControl len)
  | .nop => .cmd 0
  | .encode => .cmd 1
  | .decode => .cmd 2

/-! ### The opcode table's own numbering -/

/-- The instruction the decoder reads from the bits `w` of an opcode-table row of `nbits` bits. The table's 64-bit rows
are CMD words; its shorter rows are control bytes, whose payload bytes the decoder does not look at (30_encoding.md
R85; log entry 1). -/
def decodeTableWord (nbits w : Nat) : Option Instr :=
  if nbits = 64 then
    match decodeCmd (BitVec.ofNat 64 w) with
    | .ok i => some i
    | .error _ => none
  else
    match decodeStream [BitVec.ofNat 8 w] with
    | .ok (i, _) => some i
    | .error _ => none

end Sys2Proof
end

