-- ==== Sys2Proof/Machine/State.lean ====
section
/-! DEFINITION. The state of the block (10_state.md), the host's and the platform's pending actions, the reasons a step can stop, and the state after reset. -/

namespace Sys2Proof.Machine

/-! ### Parts of the state -/

/-- A buffer: the written cells, by rising index. An index that is not listed is `unwritten` (10_state.md R31, R32). -/
abbrev Memory := List Host.Cell

/-- The operation of a running engine (10_state.md R33). -/
inductive CodecOp where
  | enc
  | dec
  deriving DecidableEq, Repr

/-- The four values of `RUNNING(op, N, RD, WR)` (10_state.md R21, R33). `snap` is the model's own: the number of the
draw that stands for `S[0]`, so that an unwritten cell is drawn once per operation (41_encoder.md R120, log entry 7). -/
structure Run where
  op : CodecOp
  n : Nat
  rd : Nat
  wr : Nat
  snap : Nat
  deriving DecidableEq, Repr

/-- The state machine `fsm` (10_state.md R33). `op`, `N`, `RD` and `WR` do not exist while `IDLE` (R37). -/
inductive Fsm where
  | idle
  | running (r : Run)
  deriving DecidableEq, Repr

/-- The error codes of `STATUS.ERR` (60_exceptions.md R211); no other code is ever reported. -/
inductive ErrCode where
  | ok
  | malformedPayload
  | outputOverflow
  | illegalCmd
  | lengthError
  deriving DecidableEq, Repr

/-- The three regions the block exposes (20_memory.md R50). -/
inductive Region where
  | reg
  | inbuf
  | outbuf
  deriving DecidableEq, Repr

/-- What the host can do. An access names a region and an offset (20_memory.md R50), or a host address that the bases
translate; `width` is its width in bytes. A write's value is 64 bits wide and a buffer write takes its low byte
(log entry 16). `poll` and `readout` are the host pseudo-instructions of 30_encoding.md R84 whose accesses depend on
what earlier ones returned. -/
inductive HostOp where
  | read (region : Region) (offset width : Nat)
  | write (region : Region) (offset width : Nat) (value : Word)
  | memRead (addr width : Nat)
  | memWrite (addr width : Nat) (value : Word)
  | poll
  | readout
  deriving DecidableEq, Repr

/-- What reaches the block from outside: a host access, the platform's reset (70_reset_and_hazards.md R240), or an
access of a second host, which the spec does not admit (60_exceptions.md R226). -/
inductive Input where
  | host (op : HostOp)
  | reset
  | secondHost
  deriving DecidableEq, Repr

/-- The two agents a schedule moves (10_state.md R22). Platform events stand among the host's inputs. -/
inductive Agent where
  | host
  | block
  deriving DecidableEq, Repr

/-- What a read returned to the host: the value of the register at an offset, or a buffer byte. -/
inductive Response where
  | word (offset : Nat) (v : Word)
  | byte (v : Byte)
  deriving DecidableEq, Repr

/-- Everything the spec gives the block, plus the model's own `startedAt`, `freed`, `draws`, `inputs`, `turns` and
`responses`. `STATUS.BUSY` is not stored: it is 1 exactly when `fsm` is running (10_state.md R33). -/
structure State where
  /-- The parameters of the instance (00_scope.md R8). No step changes them. -/
  params : Params
  /-- `STATUS.DONE` (10_state.md R26). -/
  done : Bool
  /-- `STATUS.ERR` (10_state.md R26). -/
  err : ErrCode
  /-- `IN_LEN` (10_state.md R28). -/
  inLen : Word
  /-- `OUT_LEN` (10_state.md R29). -/
  outLen : Word
  /-- The state machine (10_state.md R33). -/
  fsm : Fsm
  /-- `IN` (10_state.md R31). -/
  inBuf : Memory
  /-- `OUT` (10_state.md R32). -/
  outBuf : Memory
  /-- The sticky mark of a host protocol violation (10_state.md R34). -/
  violated : Bool
  /-- How many values the host had read when the last operation started, none when none has started since reset (the
  model's own, log entry 24). No step reads it: it lets a state say what the host has seen since. -/
  startedAt : Option Nat
  /-- The cells of `OUT` that the last operation to end left `any` are those below this index (40_commands.md R110,
  60_exceptions.md R215; the model's own, log entry 25). -/
  freed : Nat
  /-- How many draws have been taken (the model's own, log entry 6). -/
  draws : Nat
  /-- The outside world's pending actions, oldest first (the model's own, log entry 4). -/
  inputs : List Input
  /-- Who moves next, while the list lasts (the model's own, log entry 5). -/
  turns : List Agent
  /-- What the host's reads returned, newest first (the model's own, log entry 10). -/
  responses : List Response
  deriving DecidableEq, Repr

/-- Why a step faults. -/
inductive Fault where
  /-- Raised by a block meaning (LIT, RUN, or an encoder step) in a state where no block step of its kind is enabled:
  `fsm` is not running that operation, or `RD` is at or past `N` (40_commands.md R107). No step from a state that
  meets the invariant raises it. Safe: the spec gives no effect there. -/
  | blockStepNotEnabled
  deriving DecidableEq, Repr

/-- Why a step is refused. -/
inductive Refusal where
  /-- Raised by exec's arm for an instruction that has no meaning yet. Safe. -/
  | notModelled (mnemonic : String)
  /-- Raised by a host access to an address outside the three regions, which is the platform's and outside the spec
  (93_implementation_defined.md V6). Safe. -/
  | outsideRegions
  /-- Raised by an access of a second host, which the spec refuses (93_implementation_defined.md V5). Safe. -/
  | secondHost
  deriving DecidableEq, Repr

/-- The state of an instance with parameters `p` right after reset, with nothing pending (10_state.md R37). -/
def State.resetWith (p : Params) : State :=
  { params := p, done := false, err := .ok, inLen := 0, outLen := 0, fsm := .idle, inBuf := [], outBuf := [],
    violated := false, startedAt := none, freed := 0, draws := 0, inputs := [], turns := [], responses := [] }

/-- The machine right after reset (10_state.md R37, 70_reset_and_hazards.md R240). The parameters are OPEN in the spec;
these are a DESIGN CHOICE (log entries 2 and 3). -/
def State.reset : State := State.resetWith Config.defaultParams

end Sys2Proof.Machine
end

