-- ==== Sys2Proof/Machine/Flags.lean ====
section
/-! DEFINITION. The status flags: the only flags the block has (10_state.md R26, R35), and how STATUS reads. -/

namespace Sys2Proof.Machine

/-- `STATUS.BUSY`: 1 exactly when `fsm` is running (10_state.md R33). -/
def isBusy (s : State) : Bool :=
  match s.fsm with
  | .idle => false
  | .running _ => true

/-- The 4-bit code of an error (60_exceptions.md R211). -/
def errBits : ErrCode → BitVec 4
  | .ok => 0
  | .malformedPayload => 1
  | .outputOverflow => 2
  | .illegalCmd => 3
  | .lengthError => 4

/-- One flag as a bit. -/
def flagBit (b : Bool) : BitVec 1 := if b then 1 else 0

/-- `STATUS` as a 64-bit value: BUSY in bit 0, DONE in bit 1, ERR in bits 7:4, every other bit 0 (10_state.md R26). -/
def statusWord (s : State) : Word :=
  (0 : BitVec 56) ++ errBits s.err ++ (0 : BitVec 2) ++ flagBit s.done ++ flagBit (isBusy s)

end Sys2Proof.Machine
end

