-- ==== Sys2Proof/Machine/Ops.lean ====
section
/-! DEFINITION. The shared operations: buffer cells, draws, violations, starting an operation, emitting output, completing, entering an error and leaving it, and reset. -/

namespace Sys2Proof.Machine

/-! ### Buffer cells -/

/-- The byte of a cell, or none when the cell is `unwritten` (10_state.md R31, R32). -/
def Memory.read : Memory → Nat → Option Byte
  | [], _ => none
  | (a, b) :: m, i => if i = a then some b else Memory.read m i

/-- Store a byte in a cell and clear its `unwritten` mark, keeping the cells in rising order. -/
def Memory.write : Memory → Nat → Byte → Memory
  | [], i, v => [(i, v)]
  | (a, b) :: m, i, v =>
    if i < a then (i, v) :: (a, b) :: m
    else if i = a then (i, v) :: m
    else (a, b) :: Memory.write m i v

/-- The canonical form: indices strictly rising. An unlisted cell holds no byte, so no entry can equal one. -/
abbrev Memory.wf (m : Memory) : Prop := List.Pairwise (fun x y => x.1 < y.1) m

/-- Every written cell lies below the capacity. -/
abbrev Memory.below (cap : Nat) (m : Memory) : Prop := ∀ c ∈ m, c.1 < cap

/-! ### Violations and draws -/

/-- A host protocol violation: the sticky mark is set and nothing else happens (10_state.md R34, 20_memory.md R52). -/
def violate (s : State) : State := { s with violated := true }

/-- The value the next draw takes (00_scope.md R14). -/
def nextDraw (s : State) : Byte := Config.freeByte s.draws

/-- Record a value returned to the host. -/
def respond (r : Response) (s : State) : State := { s with responses := r :: s.responses }

/-! ### Output -/

/-- `Emit(v)` on the pair (OUT, WR): store below the capacity, count always (41_encoder.md R124). -/
def emit (cap : Nat) (o : Memory × Nat) (v : Byte) : Memory × Nat :=
  (if o.2 < cap then Memory.write o.1 o.2 v else o.1, o.2 + 1)

/-- Emit the bytes of a block in order. -/
def emitAll (cap : Nat) : List Byte → Memory × Nat → Memory × Nat
  | [], o => o
  | v :: vs, o => emitAll cap vs (emit cap o v)

/-- The end of a block step that does not complete: the bytes are emitted and `RD` moves past what the step consumed
(41_encoder.md R125, R126; 42_decoder.md R152, R153). -/
def advance (bytes : List Byte) (consumed : Nat) (r : Run) (s : State) : State :=
  let o := emitAll s.params.outCap bytes (s.outBuf, r.wr)
  { s with outBuf := o.1, fsm := .running { r with rd := r.rd + consumed, wr := o.2 } }

/-! ### Starting, completing, errors -/

/-- `START(op)` (40_commands.md R106). The snapshot's draws are set aside, one for each of the `N` input cells
(41_encoder.md R120). `startedAt` marks where in the record of what the host read the operation starts (log entry 24). -/
def startOp (op : CodecOp) (s : State) : State :=
  { s with
    fsm := .running { op := op, n := s.inLen.toNat, rd := 0, wr := 0, snap := s.draws }
    done := false
    err := .ok
    outLen := 0
    startedAt := some s.responses.length
    draws := s.draws + s.inLen.toNat }

/-- A command rejected at acceptance (40_commands.md R104, R105): DONE and the code are set, OUT_LEN is 0, and no
operation starts. -/
def rejectCommand (e : ErrCode) (s : State) : State := { s with done := true, err := e, outLen := 0 }

/-- The success of `COMPLETE` (40_commands.md R108). -/
def completeOk (r : Run) (s : State) : State :=
  { s with fsm := .idle, done := true, err := .ok, outLen := BitVec.ofNat 64 r.wr, freed := 0 }

/-- The first `k` cells take one draw each, the draw numbered `base + i` in cell `i` (60_exceptions.md R215,
93_implementation_defined.md U1). -/
def scramble (base : Nat) : Nat → Memory → Memory
  | 0, m => m
  | k + 1, m => Memory.write (scramble base k m) k (Config.freeByte (base + k))

/-- Error entry, `raise E()` inside a running operation, one atomic transition (60_exceptions.md R215). It saves no
position: `RD` is not architectural (R212). -/
def raiseError (e : ErrCode) (r : Run) (s : State) : State :=
  let k := min r.wr s.params.outCap
  { s with
    fsm := .idle
    done := true
    err := e
    outLen := 0
    outBuf := scramble s.draws k s.outBuf
    freed := k
    draws := s.draws + k }

/-- The return from an error, and the acknowledgement of a success: DONE and ERR are cleared (40_commands.md R101,
60_exceptions.md R218). -/
def clearStatus (s : State) : State := { s with done := false, err := .ok }

/-- `COMPLETE` at the end of input (40_commands.md R108): overflow is tested only here (60_exceptions.md R213). -/
def complete (r : Run) (s : State) : State :=
  if r.wr > s.params.outCap then raiseError .outputOverflow r s else completeOk r s

/-- A CMD write is accepted while idle and is a violation while busy (40_commands.md R100, R111). -/
def acceptIdle (f : State → State) (s : State) : Host.Outcome State Fault Refusal :=
  if isBusy s then .next (violate s) else .next (f s)

/-- ENCODE or DECODE once accepted: rejected when IN_LEN exceeds IN_CAP, else started (40_commands.md R102, R103, R105). -/
def startOrReject (op : CodecOp) (s : State) : State :=
  if s.inLen.toNat > s.params.inCap then rejectCommand .lengthError s else startOp op s

/-- Reset of the block (10_state.md R37, 70_reset_and_hazards.md R240). The parameters are constants, `violated` is
never cleared (R34), and what belongs to the outside world (pending inputs, the schedule, what was read) is not the
block's to reset (log entry 18). -/
def resetBlock (s : State) : State :=
  { s with
    done := false, err := .ok, inLen := 0, outLen := 0, fsm := .idle, inBuf := [], outBuf := [],
    startedAt := none, freed := 0 }

end Sys2Proof.Machine
end

