-- ==== Sys2Proof/Machine/Operands.lean ====
section
/-! DEFINITION. What a block step reads: the input snapshot, the control byte and payload of a stream block, and the encoder's detection functions. -/

namespace Sys2Proof.Machine

/-! ### The input snapshot -/

/-- `S[i]` of the running operation: the byte of `IN[i]`, or this operation's one draw for an unwritten cell
(41_encoder.md R120). -/
def snapByte (r : Run) (s : State) (i : Nat) : Byte :=
  match Memory.read s.inBuf i with
  | some b => b
  | none => Config.freeByte (r.snap + i)

/-- `S[start .. start + len)`. -/
def snapSlice (r : Run) (s : State) (start len : Nat) : List Byte :=
  (List.range len).map fun j => snapByte r s (start + j)

/-- The whole snapshot `S`, `N` bytes (41_encoder.md R120). -/
def snapshot (r : Run) (s : State) : List Byte := snapSlice r s 0 r.n

/-- The control byte the decoder fetches, `S[RD]` (42_decoder.md R151). -/
def fetchControl (r : Run) (s : State) : Byte := snapByte r s r.rd

/-! ### Run and literal detection -/

/-- The loop of `RunLen` from a run of length `len`, with `fuel` more bytes allowed. -/
def runScan (S : Nat → Byte) (n p : Nat) : Nat → Nat → Nat
  | 0, len => len
  | fuel + 1, len => if p + len < n ∧ S (p + len) = S p then runScan S n p fuel (len + 1) else len

/-- `RunLen(p)`: the length of the run of `S[p]` at `p`, capped at 128 (41_encoder.md R121). -/
def runLen (S : Nat → Byte) (n p : Nat) : Nat := runScan S n p (Config.runMax - 1) 1

/-- `RunStarts(q)`: a run of length at least 2 starts at `q` (41_encoder.md R122). -/
def runStarts (S : Nat → Byte) (n q : Nat) : Bool := decide (q + 1 < n ∧ S (q + 1) = S q)

/-- The loop of `LitLen` from a literal of length `len`, with `fuel` more bytes allowed. -/
def litScan (S : Nat → Byte) (n p : Nat) : Nat → Nat → Nat
  | 0, len => len
  | fuel + 1, len =>
    if p + len < n ∧ runStarts S n (p + len) = false then litScan S n p fuel (len + 1) else len

/-- `LitLen(p)`: the length of the literal at `p`, stopped by the lookahead, the cap or the end (41_encoder.md R123). -/
def litLen (S : Nat → Byte) (n p : Nat) : Nat := litScan S n p (Config.litMax - 1) 1

end Sys2Proof.Machine
end

