-- ==== Sys2Proof/Machine/Commands.lean ====
section
/-! DEFINITION. The meanings of the CMD words (40_commands.md): NOP, ENCODE, DECODE, and the rejection of every other word. -/

namespace Sys2Proof.Machine

/-- NOP, the acknowledgement: DONE and ERR are cleared and nothing else changes (40_commands.md R101). -/
def execNop (s : State) : Host.Outcome State Fault Refusal := acceptIdle clearStatus s

/-- ENCODE (40_commands.md R102): rejected for its length, or started. -/
def execEncode (s : State) : Host.Outcome State Fault Refusal := acceptIdle (startOrReject .enc) s

/-- DECODE (40_commands.md R103): rejected for its length, or started. -/
def execDecode (s : State) : Host.Outcome State Fault Refusal := acceptIdle (startOrReject .dec) s

/-- ILLEGAL, any other CMD word: rejected with ILLEGAL_CMD (40_commands.md R104). -/
def execIllegal (s : State) : Host.Outcome State Fault Refusal := acceptIdle (rejectCommand .illegalCmd) s

end Sys2Proof.Machine
end

