-- ==== Sys2Proof/Machine/Decoder.lean ====
section
/-! DEFINITION. The meanings of the stream blocks (42_decoder.md): LIT and RUN. -/

namespace Sys2Proof.Machine

/-- A decoder block of `size` stream bytes that emits `bytes`, where a DECODE step is enabled (40_commands.md R107,
42_decoder.md R151): a block that would read past `N` raises MALFORMED_PAYLOAD before any byte of it is emitted (R154,
R155), and any other one is emitted and `RD` moves past it. -/
def decodeBlock (size : Nat) (bytes : Run → List Byte) (s : State) : Host.Outcome State Fault Refusal :=
  match s.fsm with
  | .idle => .fault .blockStepNotEnabled
  | .running r =>
    if r.op = .dec ∧ r.rd < r.n then
      if r.rd + size > r.n then .next (raiseError .malformedPayload r s)
      else .next (advance (bytes r) size r s)
    else .fault .blockStepNotEnabled

/-- LIT_BLOCK: the `len` raw bytes after the control byte are copied in order (42_decoder.md R152). -/
def execLit (len : Nat) (s : State) : Host.Outcome State Fault Refusal :=
  decodeBlock (1 + len) (fun r => snapSlice r s (r.rd + 1) len) s

/-- RUN_BLOCK: `len` copies of the fill byte after the control byte (42_decoder.md R153). `len = 1`, the non-canonical
`0x80`, runs like any other (R158). -/
def execRun (len : Nat) (s : State) : Host.Outcome State Fault Refusal :=
  decodeBlock 2 (fun r => List.replicate len (snapByte r s (r.rd + 1))) s

end Sys2Proof.Machine
end

