-- ==== Sys2Proof/Machine/Encoder.lean ====
section
/-! DEFINITION. The encoder's two block steps (41_encoder.md R125, R126). -/

namespace Sys2Proof.Machine

/-- ENCODE_STEP, run block: the control byte and the repeated byte (41_encoder.md R125). -/
def encodeRunStep (r : Run) (s : State) : State :=
  let len := runLen (snapByte r s) r.n r.rd
  advance [runControl len, snapByte r s r.rd] len r s

/-- ENCODE_STEP, literal block: the control byte and the raw bytes in order (41_encoder.md R126). -/
def encodeLitStep (r : Run) (s : State) : State :=
  let len := litLen (snapByte r s) r.n r.rd
  advance (literalControl len :: snapSlice r s r.rd len) len r s

/-- ENCODE_STEP: a run block when a run of length at least 2 starts at `RD`, else a literal block. Taken only where
`RD < N`. -/
def encodeStep (r : Run) (s : State) : Host.Outcome State Fault Refusal :=
  if r.rd < r.n then
    if 2 ≤ runLen (snapByte r s) r.n r.rd then .next (encodeRunStep r s) else .next (encodeLitStep r s)
  else .fault .blockStepNotEnabled

end Sys2Proof.Machine
end

