-- ==== Sys2Proof/Machine/Block.lean ====
section
/-! DEFINITION. The step of the block agent (40_commands.md R107). -/

namespace Sys2Proof.Machine

/-- DECODE_STEP: the control byte at `RD` is decoded and executed (42_decoder.md R151). -/
def decodeStep (r : Run) (s : State) : Host.Outcome State Fault Refusal :=
  exec (decodeControl (fetchControl r s)) s

/-- A block step processes exactly one block or completes the operation (40_commands.md R107). While `IDLE` none is
enabled and the block's turn passes with no effect (60_exceptions.md R228). -/
def blockStep (s : State) : Host.Outcome State Fault Refusal :=
  match s.fsm with
  | .idle => .next s
  | .running r =>
    if r.rd = r.n then .next (complete r s)
    else
      match r.op with
      | .enc => encodeStep r s
      | .dec => decodeStep r s

/-- Up to `k` block steps with no host access between them, stopping at a fault or refusal. -/
def blockSteps : Nat → State → Host.Outcome State Fault Refusal
  | 0, s => .next s
  | k + 1, s =>
    match blockStep s with
    | .next s' => blockSteps k s'
    | .fault f => .fault f
    | .refused r => .refused r

end Sys2Proof.Machine
end

