-- ==== Sys2Proof/Machine/HostBus.lean ====
section
/-! DEFINITION. What the outside world does to the block: host reads and writes of the three regions (20_memory.md), the host pseudo-instructions that depend on what they read (30_encoding.md R84), and the platform's reset. -/

namespace Sys2Proof.Machine

/-! ### Legal access forms -/

/-- A legal access form: 8 bytes at an aligned offset below 64 in REG (20_memory.md R52), 1 byte below the capacity in
a buffer (R53). -/
def accessOk (p : Params) (region : Region) (offset width : Nat) : Bool :=
  match region with
  | .reg => decide (width = 8 ∧ offset % 8 = 0 ∧ offset < Config.regBytes)
  | .inbuf => decide (width = 1 ∧ offset < p.inCap)
  | .outbuf => decide (width = 1 ∧ offset < p.outCap)

/-- The region and offset of a host address, by its three bases (20_memory.md R50). An access is placed by its first
byte (log entry 3). -/
def locate (p : Params) (addr : Nat) : Option (Region × Nat) :=
  if p.regBase ≤ addr ∧ addr < p.regBase + Config.regBytes then some (.reg, addr - p.regBase)
  else if p.inBase ≤ addr ∧ addr < p.inBase + p.inCap then some (.inbuf, addr - p.inBase)
  else if p.outBase ≤ addr ∧ addr < p.outBase + p.outCap then some (.outbuf, addr - p.outBase)
  else none

/-! ### Reads -/

/-- The constant of the `ID` register: the magic in bits 31:0, `FMT_VERSION` = 1 in bits 39:32, zero above
(10_state.md R24). -/
def idWord : Word := 0x0000000143454C52

/-- The value of the register at an offset (20_memory.md R54). `CMD` and the reserved register read 0. -/
def regRead (offset : Nat) (s : State) : Word :=
  if offset = 0x00 then idWord
  else if offset = 0x10 then statusWord s
  else if offset = 0x18 then s.inLen
  else if offset = 0x20 then s.outLen
  else if offset = 0x28 then BitVec.ofNat 64 s.params.inCap
  else if offset = 0x30 then BitVec.ofNat 64 s.params.outCap
  else 0

/-- A byte returned to the host: the cell's byte, or the next draw (10_state.md R31, R32). The draw is used up, so the
next read of the cell draws afresh. -/
def respondCell (cell : Option Byte) (s : State) : State :=
  match cell with
  | some b => respond (.byte b) s
  | none => { respond (.byte (nextDraw s)) s with draws := s.draws + 1 }

/-- What a host read of `OUT[i]` finds: nothing certain while busy, since the block may be writing, else the cell
(20_memory.md R57). That 70_reset_and_hazards.md R244 duty 3 asks for no more than this is DEDUCED (log entry 24). -/
def outCell (s : State) (i : Nat) : Option Byte := if isBusy s then none else Memory.read s.outBuf i

/-- A legal read (20_memory.md R54, R57). -/
def legalRead (region : Region) (offset : Nat) (s : State) : State :=
  match region with
  | .reg => respond (.word offset (regRead offset s)) s
  | .inbuf => respondCell (Memory.read s.inBuf offset) s
  | .outbuf => respondCell (outCell s offset) s

/-- A host read: a legal one responds, any other is a violation (20_memory.md R52, R53). -/
def busRead (region : Region) (offset width : Nat) (s : State) : State :=
  if accessOk s.params region offset width then legalRead region offset s else violate s

/-! ### What the host has seen -/

/-- A value read that shows the host an idle block: STATUS with `BUSY = 0`. -/
def Response.showsIdle : Response → Bool
  | .word offset v => decide (offset = 0x10) && !v.getLsbD 0
  | .byte _ => false

/-- A STATUS read has returned `BUSY = 0` since the last operation started, or none has started since reset: the
condition of 70_reset_and_hazards.md R244 duty 3. It is read off the record of what the host has read; no step uses it. -/
def State.outSettled (s : State) : Bool :=
  match s.startedAt with
  | none => true
  | some k => (s.responses.take (s.responses.length - k)).any Response.showsIdle

/-! ### Writes -/

/-- A write of `CMD` (40_commands.md R100): a word that decodes runs its instruction, any other is ILLEGAL. Either is a
violation while busy (R111). -/
def writeCmd (w : Word) (s : State) : Host.Outcome State Fault Refusal :=
  match decodeCmd w with
  | .ok i => exec i s
  | .error _ => execIllegal s

/-- A legal register write (20_memory.md R55): `IN_LEN` while idle, `CMD`, and no effect elsewhere. -/
def regWrite (offset : Nat) (v : Word) (s : State) : Host.Outcome State Fault Refusal :=
  if offset = 0x08 then writeCmd v s
  else if offset = 0x18 then .next (if isBusy s then violate s else { s with inLen := v })
  else .next s

/-- A legal write of `IN` (20_memory.md R56): stored while idle, a violation while busy. -/
def inWrite (i : Nat) (v : Byte) (s : State) : State :=
  if isBusy s then violate s else { s with inBuf := Memory.write s.inBuf i v }

/-- A legal write (20_memory.md R55, R56). `OUT` is written only by the block, so a host write of it is ignored. -/
def legalWrite (region : Region) (offset : Nat) (v : Word) (s : State) : Host.Outcome State Fault Refusal :=
  match region with
  | .reg => regWrite offset v s
  | .inbuf => .next (inWrite offset (v.setWidth 8) s)
  | .outbuf => .next s

/-- A host write: a legal one has its effect, any other is a violation (20_memory.md R52, R53). -/
def busWrite (region : Region) (offset width : Nat) (v : Word) (s : State) : Host.Outcome State Fault Refusal :=
  if accessOk s.params region offset width then legalWrite region offset v s else .next (violate s)

/-! ### Host operations and inputs -/

/-- `RD8 OUT[0] .. RD8 OUT[m - 1]`. -/
def readOutOps (m : Nat) : List Input := (List.range m).map fun i => .host (.read .outbuf i 1)

/-- One turn of `POLL` (30_encoding.md R84): read STATUS, and stay at the front while BUSY is 1. -/
def pollTurn (s : State) : State :=
  let t := busRead .reg 0x10 8 s
  if (statusWord s).getLsbD 0 then { t with inputs := .host .poll :: t.inputs } else t

/-- The first turn of `READOUT` (30_encoding.md R84): read OUT_LEN, then as many bytes of OUT follow. -/
def readoutTurn (s : State) : State :=
  let t := busRead .reg 0x20 8 s
  { t with inputs := readOutOps s.outLen.toNat ++ t.inputs }

/-- One host operation, already taken off the queue. -/
def hostOp (op : HostOp) (s : State) : Host.Outcome State Fault Refusal :=
  match op with
  | .read region offset width => .next (busRead region offset width s)
  | .write region offset width v => busWrite region offset width v s
  | .memRead addr width =>
    match locate s.params addr with
    | some (region, offset) => .next (busRead region offset width s)
    | none => .refused .outsideRegions
  | .memWrite addr width v =>
    match locate s.params addr with
    | some (region, offset) => busWrite region offset width v s
    | none => .refused .outsideRegions
  | .poll => .next (pollTurn s)
  | .readout => .next (readoutTurn s)

/-- One input, already taken off the queue. -/
def applyInput (i : Input) (s : State) : Host.Outcome State Fault Refusal :=
  match i with
  | .host op => hostOp op s
  | .reset => .next (resetBlock s)
  | .secondHost => .refused .secondHost

/-- The host's turn: its oldest pending input, or no effect when none is pending. -/
def hostStep (s : State) : Host.Outcome State Fault Refusal :=
  match s.inputs with
  | [] => .next s
  | i :: rest => applyInput i { s with inputs := rest }

/-- Who moves next: the schedule's first entry; once it is used up, the block while it is busy, else the host
(70_reset_and_hazards.md R248: the block steps eagerly; log entry 5). -/
def nextAgent (s : State) : Agent :=
  match s.turns with
  | a :: _ => a
  | [] => if isBusy s then .block else .host

/-- The schedule moves on by one turn. -/
def popTurn (s : State) : State := { s with turns := s.turns.tail }

end Sys2Proof.Machine
end

