-- ==== Sys2Proof/Machine/Loading.lean ====
section
/-! DEFINITION. Placing an instruction where the machine fetches it: a CMD word in the host's queue, a stream block in IN. -/

namespace Sys2Proof.Machine

/-- Store a byte sequence in consecutive cells. -/
def storeBytes (at_ : Nat) : List Byte → Memory → Memory
  | [], m => m
  | b :: bs, m => storeBytes (at_ + 1) bs (Memory.write m at_ b)

/-- The host's next input is a write of `w` to `CMD`, and the next turn is the host's. -/
def placeCommand (w : Word) (s : State) : State :=
  { s with inputs := .host (.write .reg 0x08 8 w) :: s.inputs, turns := .host :: s.turns }

/-- `IN` holds the control byte and zeros for its payload, a DECODE of exactly that block has just started
(40_commands.md R106), and the next turn is the block's. -/
def placeBlock (c : Byte) (s : State) : State :=
  let size := (decodeControl c).streamBytes
  let loaded : State :=
    { s with inBuf := storeBytes 0 (c :: List.replicate (size - 1) 0) s.inBuf, inLen := BitVec.ofNat 64 size }
  { startOp .dec loaded with turns := .block :: s.turns }

end Sys2Proof.Machine
end

