-- ==== Sys2Proof/Machine/Step.lean ====
section
/-! DEFINITION. One step of the machine: the agent whose turn it is moves. -/

namespace Sys2Proof.Machine

/-- One step (10_state.md R22): the block's step or the host's next input. -/
def step (s : State) : Host.Outcome State Fault Refusal :=
  match nextAgent s with
  | .block => blockStep (popTurn s)
  | .host => hostStep (popTurn s)

/-- `s` with the instruction of an opcode-table row placed where the next step fetches it (log entry 15): a 64-bit row is
a CMD word, pending as the host's next write of `CMD`; a shorter row is a control byte, loaded at the front of `IN` with
zeros for its payload as the whole input of a DECODE that has just started. -/
def State.withFetchWord (s : State) (nbits w : Nat) : State :=
  if nbits = 64 then placeCommand (BitVec.ofNat 64 w) s else placeBlock (BitVec.ofNat 8 w) s

end Sys2Proof.Machine
end

