-- ==== Sys2Proof/Machine/Codec.lean ====
section
/-! DEFINITION. The encoder and the decoder as functions on byte sequences (41_encoder.md R128, 42_decoder.md R160), and a stream read as blocks (30_encoding.md R70). No step calls them: statements compare the machine with them. -/

namespace Sys2Proof.Machine

/-! ### Enc -/

/-- `s[i]`, read only below `|s|` (41_encoder.md R132). -/
def byteAt (s : List Byte) (i : Nat) : Byte := s.getD i 0

/-- `Enc` with fuel: each block covers at least one byte, so the length of the input is enough. -/
def encFuel : Nat → List Byte → List Byte
  | 0, _ => []
  | _ + 1, [] => []
  | k + 1, v :: rest =>
    let s := v :: rest
    if 2 ≤ runLen (byteAt s) s.length 0 then
      let r := runLen (byteAt s) s.length 0
      [runControl r, v] ++ encFuel k (s.drop r)
    else
      let len := litLen (byteAt s) s.length 0
      literalControl len :: (s.take len ++ encFuel k (s.drop len))

/-- `Enc(s)`, the byte sequence an ENCODE of `s` produces (41_encoder.md R128). -/
def enc (s : List Byte) : List Byte := encFuel s.length s

/-! ### Dec -/

/-- The result of a decode (42_decoder.md R160). -/
inductive DecResult where
  | ok (output : List Byte)
  | malformedPayload
  deriving DecidableEq, Repr

/-- `prepend` of 42_decoder.md R160. -/
def prepend (a : List Byte) : DecResult → DecResult
  | .ok o => .ok (a ++ o)
  | .malformedPayload => .malformedPayload

/-- `Dec` with fuel: each block takes at least one byte. -/
def decFuel : Nat → List Byte → DecResult
  | _, [] => .ok []
  | 0, _ :: _ => .ok []
  | k + 1, c :: t =>
    let len := controlLen c
    if controlIsRun c then
      match t with
      | [] => .malformedPayload
      | v :: rest => prepend (List.replicate len v) (decFuel k rest)
    else if t.length < len then .malformedPayload
    else prepend (t.take len) (decFuel k (t.drop len))

/-- `Dec(t)` (42_decoder.md R160). -/
def dec (t : List Byte) : DecResult := decFuel t.length t

/-- The output of the complete blocks at the front of a stream, with fuel. -/
def decPrefixFuel : Nat → List Byte → List Byte
  | _, [] => []
  | 0, _ :: _ => []
  | k + 1, c :: t =>
    let len := controlLen c
    if controlIsRun c then
      match t with
      | [] => []
      | v :: rest => List.replicate len v ++ decPrefixFuel k rest
    else if t.length < len then []
    else t.take len ++ decPrefixFuel k (t.drop len)

/-- What a DECODE of `t` has emitted when it ends: all of `Dec(t)`, or the output of the blocks before the truncated one
(42_decoder.md R155). -/
def decPrefix (t : List Byte) : List Byte := decPrefixFuel t.length t

/-! ### Streams as blocks -/

/-- A complete block of a stream (30_encoding.md R74, R75). -/
inductive Block where
  | literal (raw : List Byte)
  | run (len : Nat) (fill : Byte)
  deriving DecidableEq, Repr

/-- The bytes of a block in the stream. -/
def Block.bytes : Block → List Byte
  | .literal raw => literalControl raw.length :: raw
  | .run len fill => [runControl len, fill]

/-- The output bytes a block stands for. -/
def Block.output : Block → List Byte
  | .literal raw => raw
  | .run len fill => List.replicate len fill

/-- How many output bytes a block stands for. -/
def Block.len : Block → Nat
  | .literal raw => raw.length
  | .run len _ => len

/-- Lengths in the range of the encoder's blocks (30_encoding.md R76, 41_encoder.md R133). -/
def Block.canonical (b : Block) : Bool :=
  match b with
  | .literal raw => decide (1 ≤ raw.length ∧ raw.length ≤ 128)
  | .run len _ => decide (2 ≤ len ∧ len ≤ 128)

/-- A stream read as blocks, with fuel; none when its last block is cut short. -/
def blocksFuel : Nat → List Byte → Option (List Block)
  | _, [] => some []
  | 0, _ :: _ => none
  | k + 1, c :: t =>
    let len := controlLen c
    if controlIsRun c then
      match t with
      | [] => none
      | v :: rest => (blocksFuel k rest).map (.run len v :: ·)
    else if t.length < len then none
    else (blocksFuel k (t.drop len)).map (.literal (t.take len) :: ·)

/-- The blocks of a stream, the concatenation of which it is (30_encoding.md R70, R72). -/
def blocksOf (t : List Byte) : Option (List Block) := blocksFuel t.length t

end Sys2Proof.Machine
end

