-- ==== Sys2Proof/Machine/Asm.lean ====
section
/-! DEFINITION. The assembly syntaxes (30_encoding.md R82 to R84): stream lines as bytes, host lines and pseudo-instructions as pending inputs. -/

namespace Sys2Proof.Machine

/-! ### Stream syntax -/

/-- A line of the stream assembly (30_encoding.md R82), with the pseudo-instruction `FILL` (R84). -/
inductive StreamLine where
  | lit (raw : List Byte)
  | run (n : Nat) (v : Byte)
  | bytes (raw : List Byte)
  | fill (n : Nat) (v : Byte)
  deriving DecidableEq, Repr

/-- A line the assembler accepts: block lengths in `1 .. 128`, any bytes, a FILL of at least one byte. -/
def StreamLine.wellFormed : StreamLine → Bool
  | .lit raw => blockLenOk raw.length
  | .run n _ => blockLenOk n
  | .bytes _ => true
  | .fill n _ => decide (1 ≤ n)

/-- `RUN 1, v` is non-canonical, and an assembler should warn on it (30_encoding.md R82). -/
def StreamLine.warns : StreamLine → Bool
  | .lit _ => false
  | .run n _ => decide (n = 1)
  | .bytes _ => false
  | .fill _ _ => false

/-- The blocks `FILL n, v` expands to (30_encoding.md R84). -/
def fillBlocks (n : Nat) (v : Byte) : List Block :=
  List.replicate (n / 128) (.run 128 v)
    ++ (if 2 ≤ n % 128 then [.run (n % 128) v] else if n % 128 = 1 then [.literal [v]] else [])

/-- The bytes of a sequence of blocks. -/
def assembleBlocks (bs : List Block) : List Byte := bs.flatMap Block.bytes

/-- The bytes of a line. -/
def assembleLine : StreamLine → List Byte
  | .lit raw => (Block.literal raw).bytes
  | .run n v => (Block.run n v).bytes
  | .bytes raw => raw
  | .fill n v => assembleBlocks (fillBlocks n v)

/-- The bytes of a stream program; none when a line is not well-formed. -/
def assemble (lines : List StreamLine) : Option (List Byte) :=
  if lines.all StreamLine.wellFormed then some (lines.flatMap assembleLine) else none

/-! ### Host syntax -/

/-- The register names of 10_state.md R23. -/
inductive RegName where
  | ID
  | CMD
  | STATUS
  | IN_LEN
  | OUT_LEN
  | IN_CAP
  | OUT_CAP
  deriving DecidableEq, Repr

/-- The offset of a register in the window (10_state.md R23). -/
def RegName.offset : RegName → Nat
  | .ID => 0x00
  | .CMD => 0x08
  | .STATUS => 0x10
  | .IN_LEN => 0x18
  | .OUT_LEN => 0x20
  | .IN_CAP => 0x28
  | .OUT_CAP => 0x30

/-- `WR64 <reg>, <value>` (30_encoding.md R83). -/
def wr64 (r : RegName) (v : Word) : Input := .host (.write .reg r.offset 8 v)

/-- `RD64 <reg>`. -/
def rd64 (r : RegName) : Input := .host (.read .reg r.offset 8)

/-- `WR8 IN[i], v`. -/
def wr8In (i : Nat) (v : Byte) : Input := .host (.write .inbuf i 1 (v.setWidth 64))

/-- `RD8 IN[i]`. -/
def rd8In (i : Nat) : Input := .host (.read .inbuf i 1)

/-- `RD8 OUT[i]`. -/
def rd8Out (i : Nat) : Input := .host (.read .outbuf i 1)

/-- `WR8 IN[at], s[0] ..`, one byte after another. -/
def wr8Seq (start : Nat) : List Byte → List Input
  | [] => []
  | b :: bs => wr8In start b :: wr8Seq (start + 1) bs

/-- `LOADIN s`: the bytes from `IN[0]` on, then their number to IN_LEN (30_encoding.md R84). -/
def loadin (s : List Byte) : List Input := wr8Seq 0 s ++ [wr64 .IN_LEN (BitVec.ofNat 64 s.length)]

/-- `START ENCODE`. -/
def startEncode : Input := wr64 .CMD 0x1

/-- `START DECODE`. -/
def startDecode : Input := wr64 .CMD 0x2

/-- `ACK`. -/
def ack : Input := wr64 .CMD 0x0

/-- `POLL`. -/
def poll : Input := .host .poll

/-- `READOUT`. -/
def readout : Input := .host .readout

/-- The host's sequence for one operation (70_reset_and_hazards.md R242): check the block, load, start, poll, read the
status and the result, acknowledge. READOUT reads no byte after an error, since OUT_LEN is 0 then. -/
def operationProgram (start : Input) (s : List Byte) : List Input :=
  [rd64 .ID, rd64 .IN_CAP, rd64 .OUT_CAP] ++ loadin s ++ [start, poll, rd64 .STATUS, readout, ack]

end Sys2Proof.Machine
end

