-- ==== Sys2Proof/Machine/Container.lean ====
section
/-! DEFINITION. Host software around the block: the RLEC container's pack and unpack (43_host_container.md), driving the block by its own steps. -/

namespace Sys2Proof.Machine

/-! ### Layout -/

/-- The magic, ASCII "RLEC" (43_host_container.md R182). -/
def containerMagic : List Byte := [0x52, 0x4C, 0x45, 0x43]

/-- The container's version byte (43_host_container.md R183). -/
def containerVersion : Byte := 0x01

/-- Bytes of the header (43_host_container.md R181). -/
def headerBytes : Nat := 22

/-- Byte `k` of a little-endian field holding `v` (43_host_container.md R185). -/
def leByte (v k : Nat) : Byte := BitVec.ofNat 8 (v >>> (8 * k))

/-- A 64-bit little-endian field (43_host_container.md R185). -/
def le64 (v : Nat) : List Byte := (List.range 8).map (leByte v)

/-- The number a little-endian field holds. -/
def leValue : List Byte → Nat
  | [] => 0
  | b :: bs => b.toNat + 256 * leValue bs

/-- The 22-byte header (43_host_container.md R181). -/
def containerHeader (flags : Byte) (originalSize payloadSize : Nat) : List Byte :=
  containerMagic ++ [containerVersion, flags] ++ le64 originalSize ++ le64 payloadSize

/-- Header and payload (43_host_container.md R180, R190). -/
def container (flags : Byte) (originalSize : Nat) (payload : List Byte) : List Byte :=
  containerHeader flags originalSize payload.length ++ payload

/-- A stored-raw container (43_host_container.md R187, R189). -/
def storedRaw (b : List Byte) : List Byte := container 0x00 b.length b

/-- The mode selection of 43_host_container.md R189: RLE only when the encoding is strictly smaller. -/
def selectMode (b : List Byte) (encoded : Option (List Byte)) : List Byte :=
  match encoded with
  | some e => if e.length < b.length then container 0x01 b.length e else storedRaw b
  | none => storedRaw b

/-- The source's software pack, whose encoder has no capacity (43_host_container.md R191). -/
def packSoftware (b : List Byte) : List Byte := if b = [] then storedRaw [] else selectMode b (some (enc b))

/-! ### Driving the block -/

/-- `k` steps of the machine, stopping at a fault or refusal. -/
def runSteps : Nat → State → Host.Outcome State Fault Refusal
  | 0, s => .next s
  | k + 1, s =>
    match step s with
    | .next s' => runSteps k s'
    | .fault f => .fault f
    | .refused r => .refused r

/-- How many steps the operation that runs in `s` can still call for in `commandFuel`: at most `N + 1` block steps
(40_commands.md R112), and `N` more when an operation started after it reads the `IN_LEN` it was given. None while idle. -/
def earlierSteps (s : State) : Nat :=
  match s.fsm with
  | .idle => 0
  | .running r => 2 * r.n + 1

/-- How many steps `LOADIN b; START; POLL` may take under the schedule of `s`: one for each scheduled turn, `|b| + 1`
writes, the command, at most `|b| + 1` block steps (40_commands.md R112), the poll, and what an operation that still runs
adds. DESIGN CHOICE (log entry 17): the spec does not say how the procedure goes when it begins while an earlier operation
runs. It then makes the same accesses: those that fall while the block is busy are violations (R111, 20_memory.md R55,
R56), and POLL waits for whatever runs. `runCommand_ends` (Laws/Command.lean) says that the steps are enough. -/
def commandFuel (b : List Byte) (s : State) : Nat := s.turns.length + 2 * b.length + 4 + earlierSteps s

/-- `LOADIN b; START; POLL` (43_host_container.md R188, R198). DESIGN CHOICE (log entry 17): the procedure is the host's
only activity while it runs, so these accesses are the whole list of pending inputs; whatever was pending is dropped, and
no other input, a platform reset among them, falls inside. -/
def runCommand (start : Input) (b : List Byte) (s : State) : Host.Outcome State Fault Refusal :=
  runSteps (commandFuel b s) { s with inputs := loadin b ++ [start, poll] }

/-- What the host's next read of `OUT[i]` returns (20_memory.md R57). -/
def outByte (s : State) (i : Nat) : Byte :=
  match outCell s i with
  | some b => b
  | none => nextDraw s

/-- `OUT[0 .. OUT_LEN)`. -/
def outBytes (s : State) : List Byte := (List.range s.outLen.toNat).map (outByte s)

/-! ### pack -/

/-- The encoding the host takes after an ENCODE: `E` when `STATUS.ERR` is OK (43_host_container.md R188). -/
def encodedResult (t : State) : Option (List Byte) := if t.err = .ok then some (outBytes t) else none

/-- `pack(B)` on the block (43_host_container.md R187 to R190): the block's state after it, and the container. -/
def pack (b : List Byte) (s : State) : Host.Outcome (State × List Byte) Fault Refusal :=
  if b = [] then .next (s, storedRaw [])
  else if b.length > s.params.inCap then .next (s, selectMode b none)
  else
    match runCommand startEncode b s with
    | .next t => .next (t, selectMode b (encodedResult t))
    | .fault f => .fault f
    | .refused r => .refused r

/-! ### unpack -/

/-- The host's error kinds (43_host_container.md R199). -/
inductive HostError where
  /-- The file I/O adapter's, out of scope (00_scope.md R7); no procedure here raises it. -/
  | ioError
  | allocationFailure
  | malformedContainer
  | malformedPayload
  | sizeMismatch
  deriving DecidableEq, Repr

/-- What `unpack` gives. -/
inductive UnpackResult where
  | ok (b : List Byte)
  | fail (e : HostError)
  deriving DecidableEq, Repr

/-- Bytes `start .. start + len` of a container. -/
def field (f : List Byte) (start len : Nat) : List Byte := (f.drop start).take len

/-- Flags bit 0: the payload is RLE-encoded; bits 7:1 are ignored (43_host_container.md R184). -/
def flagsRle (f : List Byte) : Bool := (byteAt f 5).getLsbD 0

/-- `original_size` (43_host_container.md R181). -/
def originalSize (f : List Byte) : Nat := leValue (field f 6 8)

/-- `payload_size` (43_host_container.md R181). -/
def payloadSize (f : List Byte) : Nat := leValue (field f 14 8)

/-- The payload, `F[22 .. T)`. -/
def payload (f : List Byte) : List Byte := f.drop headerBytes

/-- The checks before the payload's mode matters (43_host_container.md R193, R194), in the spec's order. -/
def headerCheck (f : List Byte) : Option HostError :=
  if f.length < headerBytes then some .malformedContainer
  else if f.take 4 ≠ containerMagic then some .malformedContainer
  else if byteAt f 4 ≠ containerVersion then some .malformedContainer
  else if headerBytes + payloadSize f ≠ f.length then some .malformedContainer
  else none

/-- The stored-raw path (43_host_container.md R195). -/
def unpackRaw (f : List Byte) : UnpackResult :=
  if originalSize f ≠ payloadSize f then .fail .sizeMismatch else .ok (payload f)

/-- The block's result as unpack's (43_host_container.md R198). The two rejections at acceptance cannot occur after the
checks of R197; they are mapped to the capacity's kind. -/
def decodeOutcome (size : Nat) (t : State) : UnpackResult :=
  match t.err with
  | .ok => if t.outLen.toNat = size then .ok (outBytes t) else .fail .sizeMismatch
  | .malformedPayload => .fail .malformedPayload
  | .outputOverflow => .fail .sizeMismatch
  | .illegalCmd => .fail .allocationFailure
  | .lengthError => .fail .allocationFailure

/-- The RLE path (43_host_container.md R196 to R198). -/
def unpackRle (f : List Byte) (s : State) : Host.Outcome (State × UnpackResult) Fault Refusal :=
  if originalSize f = 0 then .next (s, .fail .malformedContainer)
  else if payloadSize f > s.params.inCap ∨ originalSize f > s.params.outCap then .next (s, .fail .allocationFailure)
  else
    match runCommand startDecode (payload f) s with
    | .next t => .next (t, decodeOutcome (originalSize f) t)
    | .fault x => .fault x
    | .refused r => .refused r

/-- `unpack(F)` on the block (43_host_container.md R192): the first failing check gives the error. -/
def unpack (f : List Byte) (s : State) : Host.Outcome (State × UnpackResult) Fault Refusal :=
  match headerCheck f with
  | some e => .next (s, .fail e)
  | none => if flagsRle f then unpackRle f s else .next (s, unpackRaw f)

end Sys2Proof.Machine
end

