-- ==== Sys2Proof/Safety.lean ====
section
/-! DEFINITION. The invariant of the block, the premise CleanStart, good final states, and what a host can see of a finished operation. -/

namespace Sys2Proof.Machine

/-- No host duty has been broken so far (10_state.md R34). -/
def Safe (s : State) : Prop := s.violated = false

/-- The premise every claim about an operation takes (70_reset_and_hazards.md R243). -/
def CleanStart (s : State) : Prop :=
  s.violated = false ∧ s.fsm = .idle ∧ s.inLen.toNat ≤ s.params.inCap ∧
    ∀ i, i < s.inLen.toNat → (Memory.read s.inBuf i).isSome = true

/-- The end of a host program run (70_reset_and_hazards.md R249): nothing is pending and the block is idle. R249 speaks of
the host's last access alone. That a run is not over while a platform reset, or a second host's access, is still pending is
the model's choice (DESIGN CHOICE, log entry 26). -/
def FinalState (s : State) : Prop := s.inputs = [] ∧ s.fsm = .idle

/-- A final state is good when no violation happened (70_reset_and_hazards.md R249). -/
def GoodFinal (s : State) : Prop := FinalState s ∧ Safe s

/-- What the host finds before it runs a procedure of its own: an idle block and no other access pending. -/
def HostReady (s : State) : Prop := s.fsm = .idle ∧ s.inputs = []

/-- What every step of the machine keeps. -/
structure StateInv (s : State) : Prop where
  /-- The capacities are legal and the regions disjoint (00_scope.md R9, 20_memory.md R50). -/
  params : s.params.wellFormed = true
  /-- `IN` is canonical and lies below IN_CAP (10_state.md R31). -/
  inWf : Memory.wf s.inBuf
  inBelow : Memory.below s.params.inCap s.inBuf
  /-- `OUT` is canonical and lies below OUT_CAP (10_state.md R32). -/
  outWf : Memory.wf s.outBuf
  outBelow : Memory.below s.params.outCap s.outBuf
  /-- `BUSY = 1` implies `DONE = 0` and `ERR = 0`, and OUT_LEN is 0 until completion (10_state.md R27, R29). -/
  busyClear : ∀ r, s.fsm = .running r → s.done = false ∧ s.err = .ok ∧ s.outLen = 0
  /-- `DONE = 0` implies `ERR = 0` (10_state.md R27). -/
  undoneOk : s.done = false → s.err = .ok
  /-- OUT_LEN is 0 after an error (10_state.md R29). -/
  errLen : s.err ≠ .ok → s.outLen = 0
  /-- OUT_LEN never exceeds OUT_CAP (10_state.md R29, 40_commands.md R108). -/
  lenBound : s.outLen.toNat ≤ s.params.outCap
  /-- Every cell of OUT below OUT_LEN is written (40_commands.md R108). -/
  lenWritten : ∀ i, i < s.outLen.toNat → (Memory.read s.outBuf i).isSome = true
  /-- `N` is the latched IN_LEN, at most IN_CAP; `RD` does not pass `N` (10_state.md R21, R33); `WR` is at most 64
  times `RD`, so no count reaches 2^64 (00_scope.md R9). -/
  runCounts : ∀ r, s.fsm = .running r →
    r.n = s.inLen.toNat ∧ r.n ≤ s.params.inCap ∧ r.rd ≤ r.n ∧ r.wr ≤ 64 * r.rd
  /-- Every cell of OUT that the running operation has counted and that exists is written (41_encoder.md R124). -/
  runWritten : ∀ r, s.fsm = .running r →
    ∀ i, i < r.wr → i < s.params.outCap → (Memory.read s.outBuf i).isSome = true
  /-- The running operation's snapshot draws are set aside (41_encoder.md R120). -/
  runDraws : ∀ r, s.fsm = .running r → r.snap + r.n ≤ s.draws
  /-- While an operation runs, no STATUS read has shown its end (70_reset_and_hazards.md R244 duty 3, 20_memory.md R63). -/
  runUnsettled : ∀ r, s.fsm = .running r → s.outSettled = false
  /-- The cells an error left `any` exist and hold some byte each (60_exceptions.md R215). -/
  freedBound : s.freed ≤ s.params.outCap
  freedWritten : ∀ i, i < s.freed → (Memory.read s.outBuf i).isSome = true

/-! ### Frames -/

/-- The parameters, the mark, and everything of the outside world are unchanged. -/
def SameHostSide (s t : State) : Prop :=
  t.params = s.params ∧ t.violated = s.violated ∧ t.startedAt = s.startedAt ∧ t.inputs = s.inputs ∧
    t.turns = s.turns ∧ t.responses = s.responses

/-- IN_LEN and every cell of IN are unchanged. -/
def SameIn (s t : State) : Prop := t.inLen = s.inLen ∧ ∀ a, Memory.read t.inBuf a = Memory.read s.inBuf a

/-- Every cell of OUT is unchanged. -/
def SameOut (s t : State) : Prop := ∀ a, Memory.read t.outBuf a = Memory.read s.outBuf a

/-! ### Observations -/

/-- Every row of the reset table but `violated`'s (10_state.md R37). -/
def AtResetValues (t : State) : Prop :=
  regRead 0x00 t = 0x0000000143454C52 ∧ regRead 0x08 t = 0 ∧ regRead 0x10 t = 0 ∧ regRead 0x18 t = 0 ∧
    regRead 0x20 t = 0 ∧ regRead 0x28 t = BitVec.ofNat 64 t.params.inCap ∧
    regRead 0x30 t = BitVec.ofNat 64 t.params.outCap ∧ regRead 0x38 t = 0 ∧ t.fsm = .idle ∧
    (∀ i, Memory.read t.inBuf i = none) ∧ (∀ i, Memory.read t.outBuf i = none)

/-- The host-visible end of an operation (40_commands.md R110): STATUS, OUT_LEN, `OUT[0 .. OUT_LEN)` after a success,
and which cells of OUT are left `any`: those below `anyCells`. -/
structure EndState where
  status : Word
  outLen : Word
  out : List (Option Byte)
  anyCells : Nat
  deriving DecidableEq, Repr

/-- The host-visible end state of a block whose operation has just ended. After an error the host may use no byte of OUT,
and OUT_LEN is 0. -/
def endState (s : State) : EndState :=
  { status := statusWord s, outLen := s.outLen, out := (List.range s.outLen.toNat).map (Memory.read s.outBuf),
    anyCells := s.freed }

end Sys2Proof.Machine
end

