-- ==== Sys2Proof/Certificates/Slice0/Obligations.lean ====
section
/-! DEFINITION. The statements for the provers, from the numbered rules of spec/. -/

open Sys2Proof Sys2Proof.Machine

/-! ### Reset and the register window -/

/-- 10_state.md R37: the platform's reset puts every register and buffer at its stated value, in every state, busy or
not, and leaves `violated` alone; the model's state after reset has the same values. -/
def Obligations.ResetPutsEveryRegisterAndBufferAtItsValue : Prop :=
  (∀ s : State, ∃ t, applyInput .reset s = .next t ∧ AtResetValues t ∧ t.params = s.params ∧ t.violated = s.violated) ∧
    AtResetValues State.reset

/-- 20_memory.md R54: a legal register read returns the register at its offset, busy or not, and has no other effect. That
what it returned is recorded, with the offset, is the model's choice (DESIGN CHOICE, log entry 10). -/
def Obligations.RegisterReadReturnsTheRegisterAtItsOffset : Prop :=
  ∀ s : State,
    busRead .reg 0x00 8 s = { s with responses := .word 0x00 0x0000000143454C52 :: s.responses } ∧
    busRead .reg 0x08 8 s = { s with responses := .word 0x08 0 :: s.responses } ∧
    busRead .reg 0x10 8 s = { s with responses := .word 0x10 (statusWord s) :: s.responses } ∧
    busRead .reg 0x18 8 s = { s with responses := .word 0x18 s.inLen :: s.responses } ∧
    busRead .reg 0x20 8 s = { s with responses := .word 0x20 s.outLen :: s.responses } ∧
    busRead .reg 0x28 8 s = { s with responses := .word 0x28 (BitVec.ofNat 64 s.params.inCap) :: s.responses } ∧
    busRead .reg 0x30 8 s = { s with responses := .word 0x30 (BitVec.ofNat 64 s.params.outCap) :: s.responses } ∧
    busRead .reg 0x38 8 s = { s with responses := .word 0x38 0 :: s.responses }

/-- 10_state.md R26: the fields of STATUS stand at their bits, and its reserved bits read 0. -/
def Obligations.StatusFieldsStandAtTheirBits : Prop :=
  ∀ s : State,
    (statusWord s).getLsbD 0 = isBusy s ∧ (statusWord s).getLsbD 1 = s.done ∧
    (statusWord s).extractLsb' 4 4 = errBits s.err ∧
    (statusWord s).extractLsb' 2 2 = 0 ∧ (statusWord s).extractLsb' 8 56 = 0

/-- 20_memory.md R55: what a legal register write does at each offset. -/
def Obligations.RegisterWriteTakesEffectByOffset : Prop :=
  ∀ (s : State) (v : Word),
    (∀ off ∈ [0x00, 0x10, 0x20, 0x28, 0x30, 0x38], busWrite .reg off 8 v s = .next s) ∧
    (isBusy s = false → busWrite .reg 0x18 8 v s = .next { s with inLen := v }) ∧
    (isBusy s = true → busWrite .reg 0x18 8 v s = .next { s with violated := true }) ∧
    busWrite .reg 0x08 8 v s = writeCmd v s

/-! ### Buffers -/

/-- 20_memory.md R56: a legal write of IN stores its byte while idle and is a violation while busy; a legal write of OUT
is ignored. That the bus carries 64 bits and the byte stored is the low one is the model's choice (DESIGN CHOICE, log
entry 16). -/
def Obligations.BufferWriteStoresOnlyInIdleIn : Prop :=
  ∀ (s : State) (i : Nat) (v : Word),
    (i < s.params.inCap → isBusy s = false →
      ∃ t, busWrite .inbuf i 1 v s = .next t ∧ Memory.read t.inBuf i = some (v.setWidth 8) ∧
        (∀ j, j ≠ i → Memory.read t.inBuf j = Memory.read s.inBuf j) ∧ SameOut s t ∧ SameHostSide s t ∧
        t.fsm = s.fsm ∧ t.inLen = s.inLen ∧ t.outLen = s.outLen ∧ statusWord t = statusWord s) ∧
    (i < s.params.inCap → isBusy s = true → busWrite .inbuf i 1 v s = .next { s with violated := true }) ∧
    (i < s.params.outCap → busWrite .outbuf i 1 v s = .next s)

/-- 20_memory.md R57: a legal read of a buffer returns its written cell; an unwritten cell, and any cell of OUT while
busy, returns some byte. Nothing changes but what was returned and how many draws were taken. That a cell which an error left
`any` returns the byte stored at the error entry, so that two reads of it agree, is the model's choice (DEDUCED, log entry
8, with 93_implementation_defined.md U1). -/
def Obligations.BufferReadReturnsItsCellOrADraw : Prop :=
  ∀ (s : State) (i : Nat),
    (i < s.params.inCap → ∀ b, Memory.read s.inBuf i = some b →
      busRead .inbuf i 1 s = { s with responses := .byte b :: s.responses }) ∧
    (i < s.params.inCap → Memory.read s.inBuf i = none →
      ∃ b d, busRead .inbuf i 1 s = { s with responses := .byte b :: s.responses, draws := d }) ∧
    (i < s.params.outCap → isBusy s = true →
      ∃ b d, busRead .outbuf i 1 s = { s with responses := .byte b :: s.responses, draws := d }) ∧
    (i < s.params.outCap → isBusy s = false → ∀ b, Memory.read s.outBuf i = some b →
      busRead .outbuf i 1 s = { s with responses := .byte b :: s.responses }) ∧
    (i < s.params.outCap → isBusy s = false → Memory.read s.outBuf i = none →
      ∃ b d, busRead .outbuf i 1 s = { s with responses := .byte b :: s.responses, draws := d })

/-- 20_memory.md R52, R53: an access of a wrong width, at a misaligned register offset, or beyond its region sets
`violated` and has no other effect, as a read and as a write. -/
def Obligations.WrongAccessFormOnlySetsViolated : Prop :=
  ∀ (s : State) (off width : Nat) (v : Word),
    (¬(width = 8 ∧ off % 8 = 0 ∧ off < 64) →
      busRead .reg off width s = { s with violated := true } ∧
      busWrite .reg off width v s = .next { s with violated := true }) ∧
    (¬(width = 1 ∧ off < s.params.inCap) →
      busRead .inbuf off width s = { s with violated := true } ∧
      busWrite .inbuf off width v s = .next { s with violated := true }) ∧
    (¬(width = 1 ∧ off < s.params.outCap) →
      busRead .outbuf off width s = { s with violated := true } ∧
      busWrite .outbuf off width v s = .next { s with violated := true })

/-! ### Commands -/

/-- 40_commands.md R100 and R104's condition: which instruction a word written to CMD runs. -/
def Obligations.CommandWordSelectsItsCommand : Prop :=
  ∀ (w : Word) (s : State),
    writeCmd w s =
      if w = 0x0 then exec .nop s
      else if w = 0x1 then exec .encode s
      else if w = 0x2 then exec .decode s
      else execIllegal s

/-- 40_commands.md R101: NOP while idle clears DONE and ERR, so STATUS reads 0, and changes nothing else. -/
def Obligations.NopClearsDoneAndErr : Prop :=
  ∀ s : State, s.fsm = .idle →
    ∃ t, exec .nop s = .next t ∧ t.done = false ∧ t.err = .ok ∧ statusWord t = 0 ∧ t.fsm = .idle ∧
      t.outLen = s.outLen ∧ SameIn s t ∧ SameOut s t ∧ SameHostSide s t

/-- 40_commands.md R106: an accepted ENCODE or DECODE whose IN_LEN is within IN_CAP starts its operation; OUT keeps its
contents. `startedAt`, the model's own record of where the operation started, is its choice (DESIGN CHOICE, log entry
24). -/
def Obligations.EncodeAndDecodeStartTheirOperation : Prop :=
  ∀ s : State, s.fsm = .idle → s.inLen.toNat ≤ s.params.inCap →
    ∀ p ∈ [(Instr.encode, CodecOp.enc), (Instr.decode, CodecOp.dec)],
      ∃ t r, exec p.1 s = .next t ∧ t.fsm = .running r ∧ r.op = p.2 ∧ r.n = s.inLen.toNat ∧ r.rd = 0 ∧ r.wr = 0 ∧
        statusWord t = 0x1 ∧ t.outLen = 0 ∧ SameIn s t ∧ SameOut s t ∧
        SameHostSide { s with startedAt := some s.responses.length } t

/-- 40_commands.md R105: with IN_LEN above IN_CAP both are rejected with LENGTH_ERROR, no operation starts, no byte
of OUT is written, and none of IN is read (no draw is taken). -/
def Obligations.OverlongInputIsRejectedAtAcceptance : Prop :=
  ∀ s : State, s.fsm = .idle → s.params.inCap < s.inLen.toNat →
    ∀ i ∈ [Instr.encode, Instr.decode],
      ∃ t, exec i s = .next t ∧ t.fsm = .idle ∧ statusWord t = 0x42 ∧ t.outLen = 0 ∧ SameIn s t ∧ SameOut s t ∧
        t.draws = s.draws ∧ SameHostSide s t

/-- 40_commands.md R104: any other word is rejected with ILLEGAL_CMD, whatever IN_LEN is. -/
def Obligations.IllegalCommandWordIsRejected : Prop :=
  ∀ (w : Word) (s : State), s.fsm = .idle → w ≠ 0x0 → w ≠ 0x1 → w ≠ 0x2 →
    ∃ t, writeCmd w s = .next t ∧ t.fsm = .idle ∧ statusWord t = 0x32 ∧ t.outLen = 0 ∧ SameIn s t ∧ SameOut s t ∧
      SameHostSide s t

/-- 40_commands.md R111: a CMD write while busy sets `violated` and does nothing to the running operation, whatever the
word; the three commands' meanings say so of themselves. -/
def Obligations.CommandWhileBusyOnlySetsViolated : Prop :=
  ∀ s : State, isBusy s = true →
    (∀ w : Word, busWrite .reg 0x08 8 w s = .next { s with violated := true }) ∧
    (∀ i ∈ [Instr.nop, Instr.encode, Instr.decode], exec i s = .next { s with violated := true })

/-! ### Completion and error entry -/

/-- 40_commands.md R108: at the end of input the operation completes: with its count as OUT_LEN when it fits OUT, else
by raising OUTPUT_OVERFLOW. What OUT then holds, EncodeOperationComputesEnc and DecodeOperationComputesDec say. That a
success leaves no cell `any` is recorded in `freed`, which is the model's choice (DESIGN CHOICE, log entry 25). -/
def Obligations.EndOfInputCompletesTheOperation : Prop :=
  ∀ (s : State) (r : Run), s.fsm = .running r → r.rd = r.n →
    (r.wr ≤ s.params.outCap →
      ∃ t, blockStep s = .next t ∧ t.fsm = .idle ∧ statusWord t = 0x2 ∧ t.outLen = BitVec.ofNat 64 r.wr ∧ t.freed = 0 ∧
        SameIn s t ∧ SameOut s t ∧ SameHostSide s t) ∧
    (s.params.outCap < r.wr → blockStep s = .next (raiseError .outputOverflow r s))

/-- 60_exceptions.md R215: error entry, for each error an operation can raise. The cells below `min(WR, OUT_CAP)` hold
some byte each; nothing is said of which. That `freed` records which cells they are is the model's choice (DESIGN CHOICE,
log entry 25). -/
def Obligations.ErrorEntryRecordsTheCodeAndFreesTheOutput : Prop :=
  ∀ (e : ErrCode) (r : Run) (s : State),
    (raiseError e r s).fsm = .idle ∧
    statusWord (raiseError e r s) = 0x2 ||| ((errBits e).setWidth 64 <<< 4) ∧
    (raiseError e r s).outLen = 0 ∧ (raiseError e r s).freed = min r.wr s.params.outCap ∧
    (∀ i, i < min r.wr s.params.outCap → ∃ b, Memory.read (raiseError e r s).outBuf i = some b) ∧
    (∀ i, min r.wr s.params.outCap ≤ i → Memory.read (raiseError e r s).outBuf i = Memory.read s.outBuf i) ∧
    SameIn s (raiseError e r s) ∧ SameHostSide s (raiseError e r s)

/-- 60_exceptions.md R218: the recorded result persists. A step that changes DONE or ERR of an idle block is the host's,
and its input is a reset or a write of CMD. -/
def Obligations.IdleStatusChangesOnlyByCommandOrReset : Prop :=
  ∀ s t : State, step s = .next t → s.fsm = .idle → (t.done, t.err) ≠ (s.done, s.err) →
    nextAgent s = .host ∧ ∃ i rest, s.inputs = i :: rest ∧
      (i = .reset ∨ (∃ w, i = .host (.write .reg 0x08 8 w)) ∨
        ∃ a w, i = .host (.memWrite a 8 w) ∧ locate s.params a = some (.reg, 0x08))

/-- 40_commands.md R109: only three things end a running operation: the success of COMPLETE, a raise, and reset. -/
def Obligations.OperationEndsByCompletionRaiseOrReset : Prop :=
  ∀ (s t : State) (r : Run), step s = .next t → s.fsm = .running r → t.fsm = .idle →
    (nextAgent s = .block ∧ r.rd = r.n ∧ r.wr ≤ s.params.outCap ∧ t = completeOk r (popTurn s)) ∨
    (nextAgent s = .block ∧ ∃ e, e ≠ .ok ∧ t = raiseError e r (popTurn s)) ∨
    (nextAgent s = .host ∧ ∃ rest, s.inputs = .reset :: rest)

/-! ### Encodings -/

/-- 30_encoding.md R78: the table of control bytes. -/
def Obligations.EveryControlByteNamesItsBlock : Prop :=
  ∀ c : Byte,
    (c.toNat ≤ 0x7F → decodeControl c = .lit (c.toNat + 1) ∧ (decodeControl c).streamBytes = 1 + (c.toNat + 1) ∧
      (decodeControl c).canonical = true) ∧
    (c.toNat = 0x80 → decodeControl c = .run 1 ∧ (decodeControl c).streamBytes = 2 ∧
      (decodeControl c).canonical = false) ∧
    (0x81 ≤ c.toNat → decodeControl c = .run (c.toNat - 0x80 + 1) ∧ (decodeControl c).streamBytes = 2 ∧
      (decodeControl c).canonical = true)

/-- Words written out from 30_encoding.md R74, R75 and R80 decode to the instructions they stand for. -/
def Obligations.SampleWordsDecodeToTheirInstructions : Prop :=
  decode (.control 0b00000010#8) = .ok (.lit 3) ∧ decode (.control 0b01111111#8) = .ok (.lit 128) ∧
  decode (.control 0b10000010#8) = .ok (.run 3) ∧ decode (.control 0b10000000#8) = .ok (.run 1) ∧
  decode (.cmd 0x0) = .ok .nop ∧ decode (.cmd 0x1) = .ok .encode ∧ decode (.cmd 0x2) = .ok .decode ∧
  decode (.cmd 0x3) = .error (.illegalCmd 0x3) ∧
  decode (.cmd 0x8000000000000001) = .error (.illegalCmd 0x8000000000000001)

/-- Decoding the code of a well-formed instruction gives it back, for every length a control byte can hold. -/
def Obligations.DecodeInvertsEncode : Prop :=
  ∀ i : Instr, i.wellFormed = true → decode (encode i) = .ok i

/-- Each code that decodes has one meaning: encoding the instruction gives the code back. -/
def Obligations.EncodeInvertsDecode : Prop :=
  ∀ (c : Code) (i : Instr), decode c = .ok i → i.wellFormed = true ∧ encode i = c

/-! ### The step runs the decoded instruction -/

/-- 42_decoder.md R151: on the block's turn, a running DECODE with input left runs the instruction its control byte
decodes to; the step adds only that the turn is used up (turns are the model's own, log entry 5). -/
def Obligations.DecodeStepRunsTheDecodedBlock : Prop :=
  ∀ (s : State) (r : Run), nextAgent s = .block → s.fsm = .running r → r.op = .dec → r.rd < r.n →
    step s = exec (decodeControl (snapByte r s r.rd)) { s with turns := s.turns.tail }

/-- On the host's turn, a pending write of a CMD word that decodes to `i` runs `i`; the step adds only that the turn and
the pending write are used up (both are the model's own, log entries 4 and 5). -/
def Obligations.CommandStepRunsTheDecodedCommand : Prop :=
  ∀ (s : State) (w : Word) (i : Instr) (rest : List Input),
    nextAgent s = .host → s.inputs = .host (.write .reg 0x08 8 w) :: rest → decode (.cmd w) = .ok i →
    step s = exec i { s with turns := s.turns.tail, inputs := rest }

/-! ### Decoder blocks -/

/-- 42_decoder.md R152: LIT copies its raw bytes, in order, after what was emitted before, or raises MALFORMED_PAYLOAD
when fewer than `len` bytes follow. Bytes beyond OUT_CAP are counted and not stored. -/
def Obligations.LiteralBlockIsCopiedOrMalformed : Prop :=
  ∀ (len : Nat) (s : State) (r : Run), s.fsm = .running r → r.op = .dec → r.rd < r.n → 1 ≤ len → len ≤ 128 →
    (r.rd + 1 + len ≤ r.n →
      ∃ t, exec (.lit len) s = .next t ∧
        t.fsm = .running { r with rd := r.rd + 1 + len, wr := r.wr + len } ∧
        (∀ j, j < len → r.wr + j < s.params.outCap →
          Memory.read t.outBuf (r.wr + j) = some (snapByte r s (r.rd + 1 + j))) ∧
        (∀ a, ¬(r.wr ≤ a ∧ a < r.wr + len ∧ a < s.params.outCap) →
          Memory.read t.outBuf a = Memory.read s.outBuf a) ∧
        statusWord t = statusWord s ∧ t.outLen = s.outLen ∧ SameIn s t ∧ SameHostSide s t) ∧
    (r.n < r.rd + 1 + len → exec (.lit len) s = .next (raiseError .malformedPayload r s))

/-- 42_decoder.md R153: RUN replays `len` copies of its fill byte, or raises MALFORMED_PAYLOAD when the fill byte is
missing. -/
def Obligations.RunBlockIsReplayedOrMalformed : Prop :=
  ∀ (len : Nat) (s : State) (r : Run), s.fsm = .running r → r.op = .dec → r.rd < r.n → 1 ≤ len → len ≤ 128 →
    (r.rd + 2 ≤ r.n →
      ∃ t, exec (.run len) s = .next t ∧
        t.fsm = .running { r with rd := r.rd + 2, wr := r.wr + len } ∧
        (∀ j, j < len → r.wr + j < s.params.outCap →
          Memory.read t.outBuf (r.wr + j) = some (snapByte r s (r.rd + 1))) ∧
        (∀ a, ¬(r.wr ≤ a ∧ a < r.wr + len ∧ a < s.params.outCap) →
          Memory.read t.outBuf a = Memory.read s.outBuf a) ∧
        statusWord t = statusWord s ∧ t.outLen = s.outLen ∧ SameIn s t ∧ SameHostSide s t) ∧
    (r.n < r.rd + 2 → exec (.run len) s = .next (raiseError .malformedPayload r s))

/-- 42_decoder.md R154, R155: a block cut short by the end of input ends the DECODE with MALFORMED_PAYLOAD, and no cell
beyond what earlier blocks emitted changes. -/
def Obligations.TruncatedBlockEndsTheDecode : Prop :=
  ∀ (s : State) (r : Run), s.fsm = .running r → r.op = .dec → r.rd < r.n →
    ((0x80 ≤ (snapByte r s r.rd).toNat ∧ r.rd + 1 = r.n) ∨
      ((snapByte r s r.rd).toNat < 0x80 ∧ r.n < r.rd + 1 + ((snapByte r s r.rd).toNat + 1))) →
    ∃ t, blockStep s = .next t ∧ t.fsm = .idle ∧ statusWord t = 0x12 ∧ t.outLen = 0 ∧
      (∀ a, min r.wr s.params.outCap ≤ a → Memory.read t.outBuf a = Memory.read s.outBuf a) ∧
      SameIn s t ∧ SameHostSide s t

/-- 42_decoder.md R158: the control byte `0x80` is a run of one: one copy of the fill byte, `RD` moves by 2. -/
def Obligations.NonCanonicalRunIsOneCopy : Prop :=
  ∀ (s : State) (r : Run), s.fsm = .running r → r.op = .dec → r.rd + 2 ≤ r.n → snapByte r s r.rd = 0x80 →
    ∃ t, blockStep s = .next t ∧ t.fsm = .running { r with rd := r.rd + 2, wr := r.wr + 1 } ∧
      (r.wr < s.params.outCap → Memory.read t.outBuf r.wr = some (snapByte r s (r.rd + 1))) ∧
      (∀ a, ¬(a = r.wr ∧ a < s.params.outCap) → Memory.read t.outBuf a = Memory.read s.outBuf a) ∧
      SameIn s t ∧ SameHostSide s t

/-! ### Encoder -/

/-- 41_encoder.md R121: what `RunLen` computes: within 1 .. 128 and the input, every byte equals the first, and the scan
stops at the cap, at the end, or at a different byte. -/
def Obligations.RunLenIsTheCappedMaximalRun : Prop :=
  ∀ (S : Nat → Byte) (n p : Nat), p < n →
    1 ≤ runLen S n p ∧ runLen S n p ≤ 128 ∧ p + runLen S n p ≤ n ∧
    (∀ j, j < runLen S n p → S (p + j) = S p) ∧
    (runLen S n p = 128 ∨ p + runLen S n p = n ∨ S (p + runLen S n p) ≠ S p)

/-- 41_encoder.md R122 (the spec's own derivation): a run starts exactly where `RunLen` is at least 2. -/
def Obligations.RunStartsWhereRunLenIsTwo : Prop :=
  ∀ (S : Nat → Byte) (n q : Nat), q < n → (runStarts S n q = true ↔ 2 ≤ runLen S n q)

/-- 41_encoder.md R123: what `LitLen` computes: within 1 .. 128 and the input, no run starts at a byte it takes after the
first, and it stops at the cap, at the end, or where a run starts. -/
def Obligations.LitLenStopsBeforeARun : Prop :=
  ∀ (S : Nat → Byte) (n p : Nat), p < n → runLen S n p = 1 →
    1 ≤ litLen S n p ∧ litLen S n p ≤ 128 ∧ p + litLen S n p ≤ n ∧
    (∀ j, 1 ≤ j → j < litLen S n p → runLen S n (p + j) = 1) ∧
    (litLen S n p = 128 ∨ p + litLen S n p = n ∨ 2 ≤ runLen S n (p + litLen S n p))

/-- 41_encoder.md R125: the encoder's step at a run emits its control byte and the repeated byte. -/
def Obligations.EncoderEmitsARunBlock : Prop :=
  ∀ (s : State) (r : Run) (len : Nat), s.fsm = .running r → r.op = .enc → r.rd < r.n →
    len = runLen (snapByte r s) r.n r.rd → 2 ≤ len →
    ∃ t, blockStep s = .next t ∧ t.fsm = .running { r with rd := r.rd + len, wr := r.wr + 2 } ∧
      (r.wr < s.params.outCap → Memory.read t.outBuf r.wr = some (0x80#8 ||| BitVec.ofNat 8 (len - 1))) ∧
      (r.wr + 1 < s.params.outCap → Memory.read t.outBuf (r.wr + 1) = some (snapByte r s r.rd)) ∧
      (∀ a, ¬(r.wr ≤ a ∧ a < r.wr + 2 ∧ a < s.params.outCap) → Memory.read t.outBuf a = Memory.read s.outBuf a) ∧
      statusWord t = statusWord s ∧ t.outLen = s.outLen ∧ SameIn s t ∧ SameHostSide s t

/-- 41_encoder.md R126: the encoder's step where no run starts emits a control byte and the raw bytes in order. -/
def Obligations.EncoderEmitsALiteralBlock : Prop :=
  ∀ (s : State) (r : Run) (len : Nat), s.fsm = .running r → r.op = .enc → r.rd < r.n →
    runLen (snapByte r s) r.n r.rd = 1 → len = litLen (snapByte r s) r.n r.rd →
    ∃ t, blockStep s = .next t ∧ t.fsm = .running { r with rd := r.rd + len, wr := r.wr + (1 + len) } ∧
      (r.wr < s.params.outCap → Memory.read t.outBuf r.wr = some (BitVec.ofNat 8 (len - 1))) ∧
      (∀ j, j < len → r.wr + 1 + j < s.params.outCap →
        Memory.read t.outBuf (r.wr + 1 + j) = some (snapByte r s (r.rd + j))) ∧
      (∀ a, ¬(r.wr ≤ a ∧ a < r.wr + (1 + len) ∧ a < s.params.outCap) →
        Memory.read t.outBuf a = Memory.read s.outBuf a) ∧
      statusWord t = statusWord s ∧ t.outLen = s.outLen ∧ SameIn s t ∧ SameHostSide s t

/-! ### The codec as functions -/

/-- 42_decoder.md R161 (the spec's own derivation): decoding an encoding gives the input back, for every byte sequence. -/
def Obligations.DecodingAnEncodingGivesTheInputBack : Prop :=
  ∀ s : List Byte, dec (enc s) = .ok s

/-- 41_encoder.md R131 (the spec's own derivation): the size of an encoding, with both bounds reached. -/
def Obligations.EncodingSizeIsBounded : Prop :=
  (∀ s : List Byte, s ≠ [] →
    2 * ((s.length + 127) / 128) ≤ (enc s).length ∧ (enc s).length ≤ (4 * s.length + 2) / 3) ∧
  (∀ (n : Nat) (v : Byte), 1 ≤ n → (enc (List.replicate n v)).length = 2 * ((n + 127) / 128)) ∧
  (∀ (k : Nat) (a b : Byte), 1 ≤ k → a ≠ b →
    (enc (List.replicate k [a, b, b]).flatten).length = (4 * (3 * k) + 2) / 3)

/-- 41_encoder.md R133 (the spec's own derivation): an encoding reads as blocks whose lengths are 2 to 128 for runs and 1 to 128 for literals, which
together stand for the input. -/
def Obligations.EncodingIsCanonical : Prop :=
  ∀ s : List Byte, ∃ bs, blocksOf (enc s) = some bs ∧ bs.all Block.canonical = true ∧
    assembleBlocks bs = enc s ∧ bs.flatMap Block.output = s

/-- 41_encoder.md R129 (the spec's own derivation): the five properties of an encoding's blocks. -/
def Obligations.EncodingSeparatesRunsAndLiterals : Prop :=
  ∀ (s : List Byte) (bs : List Block), blocksOf (enc s) = some bs →
    (∀ raw, .literal raw ∈ bs → ∀ j x y, raw[j]? = some x → raw[j + 1]? = some y → x ≠ y) ∧
    (∀ k raw b, bs[k]? = some (.literal raw) → bs[k + 1]? = some b → raw.getLast? ≠ b.output.head?) ∧
    (∀ k raw b, bs[k]? = some (.literal raw) → raw.length < 128 → bs[k + 1]? = some b → ∃ n v, b = .run n v) ∧
    (∀ k n v b, bs[k]? = some (.run n v) → n < 128 → bs[k + 1]? = some b → b.output.head? ≠ some v) ∧
    (∀ k n m v, bs[k]? = some (.run n v) → bs[k + 1]? = some (.run m v) → n = 128)

/-- 42_decoder.md R164 (the spec's own derivation): the size of a decode, with both bounds reached. -/
def Obligations.DecodedSizeIsBounded : Prop :=
  (∀ t o : List Byte, dec t = .ok o →
    (∃ bs, blocksOf t = some bs ∧ o.length = (bs.map Block.len).sum) ∧
    (t.length + 1) / 2 ≤ o.length ∧ o.length ≤ 64 * t.length) ∧
  (∀ (k : Nat) (v : Byte), ∃ o, dec (List.replicate k [0xFF, v]).flatten = .ok o ∧ o.length = 128 * k) ∧
  (∀ (k : Nat) (v : Byte), ∃ o, dec (List.replicate k [0x00, v]).flatten = .ok o ∧ o.length = k)

/-- 30_encoding.md R84: `FILL n, v` assembles to what the encoder emits for `n` copies of `v`. -/
def Obligations.FillAssemblesToTheEncoding : Prop :=
  ∀ (n : Nat) (v : Byte), 1 ≤ n → assemble [.fill n v] = some (enc (List.replicate n v))

/-! ### Whole operations on the machine -/

/-- 41_encoder.md R127, R134 and R128 (R128 is the spec's own derivation): an ENCODE ends after at most `N + 1` block steps with exactly `Enc(S)` in OUT, or
with OUTPUT_OVERFLOW when `Enc(S)` is longer than OUT. `S` is the snapshot: the written bytes of IN, whatever the
unwritten cells' draws are. After an overflow every cell of OUT is left `any` (`freed`, log entry 25). -/
def Obligations.EncodeOperationComputesEnc : Prop :=
  ∀ s : State, s.params.wellFormed = true → s.fsm = .idle → s.inLen.toNat ≤ s.params.inCap →
    ∃ t r u, exec .encode s = .next t ∧ t.fsm = .running r ∧
      (∀ i b, i < s.inLen.toNat → Memory.read s.inBuf i = some b → (snapshot r t)[i]? = some b) ∧
      (snapshot r t).length = s.inLen.toNat ∧
      blockSteps (s.inLen.toNat + 1) t = .next u ∧ u.fsm = .idle ∧ SameIn s u ∧
      SameHostSide { s with startedAt := some s.responses.length } u ∧
      ((enc (snapshot r t)).length ≤ s.params.outCap →
        statusWord u = 0x2 ∧ u.outLen.toNat = (enc (snapshot r t)).length ∧ u.freed = 0 ∧
        (∀ i, i < (enc (snapshot r t)).length → Memory.read u.outBuf i = (enc (snapshot r t))[i]?) ∧
        (∀ i, (enc (snapshot r t)).length ≤ i → Memory.read u.outBuf i = Memory.read s.outBuf i)) ∧
      (s.params.outCap < (enc (snapshot r t)).length →
        statusWord u = 0x22 ∧ u.outLen = 0 ∧ u.freed = s.params.outCap ∧
        (∀ i, s.params.outCap ≤ i → Memory.read u.outBuf i = Memory.read s.outBuf i))

/-- 42_decoder.md R160 (the spec's own derivation): a DECODE ends as `Dec(S)` says: MALFORMED_PAYLOAD, OUTPUT_OVERFLOW, or success with exactly the
decoded bytes in OUT. After an error the cells left `any` (`freed`, log entry 25) are those that the blocks before the
truncated one reached, or all of OUT. -/
def Obligations.DecodeOperationComputesDec : Prop :=
  ∀ s : State, s.params.wellFormed = true → s.fsm = .idle → s.inLen.toNat ≤ s.params.inCap →
    ∃ t r u, exec .decode s = .next t ∧ t.fsm = .running r ∧
      (∀ i b, i < s.inLen.toNat → Memory.read s.inBuf i = some b → (snapshot r t)[i]? = some b) ∧
      (snapshot r t).length = s.inLen.toNat ∧
      blockSteps (s.inLen.toNat + 1) t = .next u ∧ u.fsm = .idle ∧ SameIn s u ∧
      SameHostSide { s with startedAt := some s.responses.length } u ∧
      (dec (snapshot r t) = .malformedPayload →
        statusWord u = 0x12 ∧ u.outLen = 0 ∧ u.freed = min (decPrefix (snapshot r t)).length s.params.outCap ∧
        (∀ i, u.freed ≤ i → Memory.read u.outBuf i = Memory.read s.outBuf i)) ∧
      (∀ o, dec (snapshot r t) = .ok o → s.params.outCap < o.length →
        statusWord u = 0x22 ∧ u.outLen = 0 ∧ u.freed = s.params.outCap ∧
        (∀ i, s.params.outCap ≤ i → Memory.read u.outBuf i = Memory.read s.outBuf i)) ∧
      (∀ o, dec (snapshot r t) = .ok o → o.length ≤ s.params.outCap →
        statusWord u = 0x2 ∧ u.outLen.toNat = o.length ∧ u.freed = 0 ∧
        (∀ i, i < o.length → Memory.read u.outBuf i = o[i]?) ∧
        (∀ i, o.length ≤ i → Memory.read u.outBuf i = Memory.read s.outBuf i))

/-- 40_commands.md R112 (the spec's own derivation): a block step with input left either ends the operation or moves `RD` forward, within `N`. -/
def Obligations.EveryBlockStepEndsOrAdvances : Prop :=
  ∀ (s : State) (r : Run), s.fsm = .running r → r.rd < r.n →
    ∃ t, blockStep s = .next t ∧
      (t.fsm = .idle ∨ ∃ q, t.fsm = .running q ∧ q.op = r.op ∧ q.n = r.n ∧ r.rd + 1 ≤ q.rd ∧ q.rd ≤ r.n)

/-- 40_commands.md R114 (the spec's own derivation), with 41_encoder.md R132 and 42_decoder.md R163: from clean starts that agree on OUT_CAP, IN_LEN
and the bytes of IN below it, an operation ends in the same host-visible state as 40_commands.md R110 lists it (STATUS,
OUT_LEN, the result, and which cells of OUT are left `any`), and IN and IN_LEN are unchanged. -/
def Obligations.OperationDependsOnItsInputAlone : Prop :=
  ∀ (i : Instr) (s₁ s₂ : State), i = .encode ∨ i = .decode → CleanStart s₁ → CleanStart s₂ →
    s₁.params.wellFormed = true → s₂.params.wellFormed = true → s₁.params.outCap = s₂.params.outCap →
    s₁.inLen = s₂.inLen → (∀ a, a < s₁.inLen.toNat → Memory.read s₁.inBuf a = Memory.read s₂.inBuf a) →
    ∃ t₁ t₂ u₁ u₂, exec i s₁ = .next t₁ ∧ exec i s₂ = .next t₂ ∧
      blockSteps (s₁.inLen.toNat + 1) t₁ = .next u₁ ∧ blockSteps (s₁.inLen.toNat + 1) t₂ = .next u₂ ∧
      u₁.fsm = .idle ∧ u₂.fsm = .idle ∧ endState u₁ = endState u₂ ∧ SameIn s₁ u₁ ∧ SameIn s₂ u₂

/-! ### The whole machine -/

/-- Every step keeps the invariant: canonical memories within their capacities, a legal status, the latched counts, OUT
written below OUT_LEN. -/
def Obligations.StepKeepsTheInvariant : Prop :=
  ∀ s t : State, StateInv s → step s = .next t → StateInv t

/-- The state after reset meets the invariant, whatever the legal parameters are (00_scope.md R8, R9). That
`State.reset` does rests on the numbers the model chose for its parameters (DESIGN CHOICE, log entries 2 and 3). -/
def Obligations.ResetMeetsTheInvariant : Prop :=
  (∀ p : Params, p.wellFormed = true → StateInv (State.resetWith p)) ∧ StateInv State.reset

/-- 10_state.md R27 (the spec's own derivation): BUSY excludes DONE and ERR, ERR is 0 while DONE and BUSY are, no reserved code is ever held, and
exactly four shapes of STATUS are readable. -/
def Obligations.StatusReadsOneOfFourShapes : Prop :=
  ∀ s : State, StateInv s →
    ((statusWord s).getLsbD 0 = true → (statusWord s).getLsbD 1 = false ∧ (statusWord s).extractLsb' 4 4 = 0) ∧
    ((statusWord s).getLsbD 1 = false → (statusWord s).getLsbD 0 = false → (statusWord s).extractLsb' 4 4 = 0) ∧
    ((statusWord s).extractLsb' 4 4).toNat ≤ 4 ∧
    (statusWord s = 0x0 ∨ statusWord s = 0x1 ∨ statusWord s = 0x2 ∨
      ∃ code : Word, 1 ≤ code.toNat ∧ code.toNat ≤ 4 ∧ statusWord s = 0x2 ||| (code <<< 4))

/-- 10_state.md R34: `violated` is never cleared, not even by reset. -/
def Obligations.ViolatedIsSticky : Prop :=
  ∀ s t : State, step s = .next t → s.violated = true → t.violated = true

/-- 20_memory.md R51, for the block's steps: IN, IN_LEN and the outside world's side are untouched, and no cell of OUT
at or beyond OUT_CAP changes. -/
def Obligations.BlockStepWritesOnlyItsOutput : Prop :=
  ∀ s t : State, blockStep s = .next t →
    SameIn s t ∧ SameHostSide s t ∧
    ∀ a, s.params.outCap ≤ a → Memory.read t.outBuf a = Memory.read s.outBuf a

/-- 60_exceptions.md R210: the block has no traps: from a state that meets the invariant no step faults, and only an
access that 93_implementation_defined.md V5 and V6 refuse (a second host, an address outside the regions) is refused. -/
def Obligations.NoStepFaultsUnderTheInvariant : Prop :=
  ∀ s : State, StateInv s →
    (∃ t, step s = .next t) ∨
    (∃ rest, s.inputs = .secondHost :: rest ∧ step s = .refused .secondHost) ∨
    (∃ a width v rest, (s.inputs = .host (.memRead a width) :: rest ∨ s.inputs = .host (.memWrite a width v) :: rest) ∧
      locate s.params a = none ∧ step s = .refused .outsideRegions)

/-! ### Host programs -/

/-- 30_encoding.md R84's loop, one access a turn: a turn of POLL reads STATUS and stays at the front of the pending
inputs exactly while BUSY is 1. That POLL is one pending input and takes a turn for each of its reads is the model's
choice (DESIGN CHOICE, log entry 23), as pending inputs and turns are (log entries 4 and 5), and what was read and
`startedAt` (log entries 10 and 24). -/
def Obligations.PollStaysPendingWhileBusy : Prop :=
  ∀ (s : State) (rest : List Input), nextAgent s = .host → s.inputs = .host .poll :: rest →
    ∃ t, step s = .next t ∧ t.responses = .word 0x10 (statusWord s) :: s.responses ∧
      t.inputs = (if isBusy s then s.inputs else rest) ∧ t.fsm = s.fsm ∧ statusWord t = statusWord s ∧
      t.startedAt = s.startedAt ∧ t.draws = s.draws ∧
      t.outLen = s.outLen ∧ SameIn s t ∧ SameOut s t ∧ t.violated = s.violated ∧ t.params = s.params

/-- 30_encoding.md R84: READOUT on an idle block returns OUT_LEN and then one byte for each of `OUT[0] .. OUT[OUT_LEN - 1]`
in order (20_memory.md R57). That its `1 + OUT_LEN` accesses take one step each, the byte reads put in front of the pending inputs, is the model's
choice (DESIGN CHOICE, log entry 23), as is that an idle block leaves every turn to the host (log entry 5). -/
def Obligations.ReadoutReturnsTheResult : Prop :=
  ∀ s : State, StateInv s → s.fsm = .idle → s.turns = [] → s.inputs = [readout] →
    ∃ (t : State) (bs : List Byte), runSteps (1 + s.outLen.toNat) s = .next t ∧ t.inputs = [] ∧ bs.length = s.outLen.toNat ∧
      t.responses = (bs.map Response.byte).reverse ++ .word 0x20 s.outLen :: s.responses ∧
      (∀ i, i < s.outLen.toNat → bs[i]? = Memory.read s.outBuf i) ∧
      t.startedAt = s.startedAt ∧ t.violated = s.violated ∧ SameIn s t ∧ SameOut s t ∧ t.outLen = s.outLen ∧
      statusWord t = statusWord s

/-- The host's sequence `LOADIN b; START; POLL` runs to the operation's result under EVERY schedule (every list of
turns): it ends with the block idle, nothing pending and no violation added, and its result is that of `Enc` or `Dec`.
The schedule is the model's own (log entry 5); the steps suffice by 40_commands.md R112 and 70_reset_and_hazards.md R248. -/
def Obligations.CommandRunsToItsResultUnderEverySchedule : Prop :=
  ∀ (s : State) (b : List Byte), s.params.wellFormed = true → HostReady s → b.length ≤ s.params.inCap →
    (∃ t, runCommand startEncode b s = .next t ∧ FinalState t ∧ t.violated = s.violated ∧ t.params = s.params ∧
      ((enc b).length ≤ s.params.outCap → t.err = .ok ∧ t.done = true ∧ outBytes t = enc b) ∧
      (s.params.outCap < (enc b).length → t.err = .outputOverflow ∧ t.done = true ∧ t.outLen = 0)) ∧
    (∃ t, runCommand startDecode b s = .next t ∧ FinalState t ∧ t.violated = s.violated ∧ t.params = s.params ∧
      (dec b = .malformedPayload → t.err = .malformedPayload ∧ t.done = true ∧ t.outLen = 0) ∧
      (∀ o, dec b = .ok o → o.length ≤ s.params.outCap → t.err = .ok ∧ t.done = true ∧ outBytes t = o) ∧
      (∀ o, dec b = .ok o → s.params.outCap < o.length → t.err = .outputOverflow ∧ t.done = true ∧ t.outLen = 0))

/-! ### The container -/

/-- 43_host_container.md R181: the bytes of a container, field by field. The expansion of little-endian and
the ASCII codes are marked in the spec as general knowledge, not in source (log entry 21). -/
def Obligations.ContainerLayoutIsByteExact : Prop :=
  ∀ (flags : Byte) (size : Nat) (pl : List Byte), size < 2 ^ 64 → pl.length < 2 ^ 64 →
    (container flags size pl).length = 22 + pl.length ∧
    (container flags size pl).take 4 = [0x52, 0x4C, 0x45, 0x43] ∧
    byteAt (container flags size pl) 4 = 0x01 ∧ byteAt (container flags size pl) 5 = flags ∧
    (∀ k, k < 8 → byteAt (container flags size pl) (6 + k) = BitVec.ofNat 8 (size / 2 ^ (8 * k))) ∧
    (∀ k, k < 8 → byteAt (container flags size pl) (14 + k) = BitVec.ofNat 8 (pl.length / 2 ^ (8 * k))) ∧
    originalSize (container flags size pl) = size ∧ payloadSize (container flags size pl) = pl.length ∧
    payload (container flags size pl) = pl

/-- 43_host_container.md R186, with the length of R190: pack completes, and every container it gives has a consistent
length, raw payloads of the original size, and at most 22 bytes more than its input. A size
fits its 64-bit field (log entry 17). -/
def Obligations.PackGivesAConsistentContainer : Prop :=
  ∀ (s : State) (b : List Byte), s.params.wellFormed = true → HostReady s → b.length < 2 ^ 64 →
    ∃ t f, pack b s = .next (t, f) ∧ HostReady t ∧ t.violated = s.violated ∧
      22 + payloadSize f = f.length ∧ (flagsRle f = false → payloadSize f = originalSize f) ∧
      originalSize f = b.length ∧ payloadSize f ≤ b.length

/-- 43_host_container.md R191 (the spec's own derivation): within the capacities, pack on the block gives the bytes of the software pack. -/
def Obligations.PackOnTheBlockIsTheSoftwarePack : Prop :=
  ∀ (s : State) (b : List Byte), s.params.wellFormed = true → HostReady s →
    b.length ≤ s.params.inCap → b.length - 1 ≤ s.params.outCap →
    ∃ t, pack b s = .next (t, packSoftware b)

/-- 43_host_container.md R193 to R197: unpack's checks before it decodes, in their order. That bit 0 of
the flags is the least significant is general knowledge (log entry 21). -/
def Obligations.UnpackRejectsInOrder : Prop :=
  ∀ (s : State) (f : List Byte),
    ((f.length < 22 ∨ f.take 4 ≠ [0x52, 0x4C, 0x45, 0x43] ∨ byteAt f 4 ≠ 0x01 ∨ 22 + payloadSize f ≠ f.length) →
      unpack f s = .next (s, .fail .malformedContainer)) ∧
    (¬f.length < 22 → f.take 4 = [0x52, 0x4C, 0x45, 0x43] → byteAt f 4 = 0x01 → 22 + payloadSize f = f.length →
      ((byteAt f 5).getLsbD 0 = false → originalSize f ≠ payloadSize f →
        unpack f s = .next (s, .fail .sizeMismatch)) ∧
      ((byteAt f 5).getLsbD 0 = false → originalSize f = payloadSize f →
        unpack f s = .next (s, .ok (f.drop 22))) ∧
      ((byteAt f 5).getLsbD 0 = true → originalSize f = 0 →
        unpack f s = .next (s, .fail .malformedContainer)) ∧
      ((byteAt f 5).getLsbD 0 = true → originalSize f ≠ 0 →
        (s.params.inCap < payloadSize f ∨ s.params.outCap < originalSize f) →
        unpack f s = .next (s, .fail .allocationFailure)))

/-- 43_host_container.md R198: what unpack makes of the block's result, by `Dec` of the payload. -/
def Obligations.UnpackMapsTheBlockResult : Prop :=
  ∀ (s : State) (f : List Byte), s.params.wellFormed = true → HostReady s → headerCheck f = none →
    (byteAt f 5).getLsbD 0 = true → originalSize f ≠ 0 → payloadSize f ≤ s.params.inCap →
    originalSize f ≤ s.params.outCap →
    ∃ t, HostReady t ∧
      (dec (f.drop 22) = .malformedPayload → unpack f s = .next (t, .fail .malformedPayload)) ∧
      (∀ o, dec (f.drop 22) = .ok o → o.length ≠ originalSize f → unpack f s = .next (t, .fail .sizeMismatch)) ∧
      (∀ o, dec (f.drop 22) = .ok o → o.length = originalSize f → unpack f s = .next (t, .ok o))

/-- 43_host_container.md R200 (the spec's own derivation): packing and then unpacking on the block gives the input back, whenever it fits both
buffers, under every schedule. -/
def Obligations.UnpackingAPackGivesTheInputBack : Prop :=
  ∀ (s : State) (b : List Byte), s.params.wellFormed = true → HostReady s →
    b.length ≤ s.params.inCap → b.length ≤ s.params.outCap →
    ∃ t f, pack b s = .next (t, f) ∧ HostReady t ∧
      ∀ u : State, HostReady u → u.params = s.params → ∃ v, unpack f u = .next (v, .ok b)

/-- 43_host_container.md R201 (the spec's own derivation): a container that pack produced, with any number of bytes cut from its end, is rejected. -/
def Obligations.TruncatedContainerIsRejected : Prop :=
  ∀ (s t u : State) (b f : List Byte) (k : Nat), s.params.wellFormed = true → HostReady s → b.length < 2 ^ 64 →
    pack b s = .next (t, f) → 1 ≤ k → k ≤ f.length →
    unpack (f.take (f.length - k)) u = .next (u, .fail .malformedContainer)

/-! ### What the host has seen -/

/-- 70_reset_and_hazards.md R244 duty 3, with 20_memory.md R63: the host comes to know that OUT may be read only by a
STATUS read that returns `BUSY = 0`, or by reset. `outSettled` is computed from the record of what the host has read, which
is the model's own (DESIGN CHOICE, log entries 10 and 24). -/
def Obligations.OutSettlesOnlyByAStatusReadOrReset : Prop :=
  ∀ s t : State, step s = .next t → s.outSettled = false → t.outSettled = true →
    nextAgent s = .host ∧
      ((∃ rest, s.inputs = .reset :: rest) ∨
        (s.fsm = .idle ∧ (statusWord s).getLsbD 0 = false ∧ t.responses = .word 0x10 (statusWord s) :: s.responses))

/-- 70_reset_and_hazards.md R244 duty 3, read as what 20_memory.md R57 makes of it under every schedule (DEDUCED, log
entry 24). Once the host has seen `BUSY = 0`, OUT[i] reads as its written cell. Before: whatever reads of registers and
buffers the host makes while an operation runs, there is a schedule under which its next read of OUT[i] is a fresh draw.
The schedule is the model's own (DESIGN CHOICE, log entry 5). -/
def Obligations.OutReadIsCertainOnlyOnceSettled : Prop :=
  (∀ s : State, StateInv s → s.outSettled = true → ∀ i b, i < s.params.outCap → Memory.read s.outBuf i = some b →
    busRead .outbuf i 1 s = { s with responses := .byte b :: s.responses }) ∧
  (∀ (s : State) (reads : List HostOp) (i : Nat), isBusy s = true → i < s.params.outCap →
    (∀ op ∈ reads, ∃ region offset width, op = .read region offset width) →
    ∃ t d, runSteps (reads.length + 1)
        { s with
          turns := List.replicate (reads.length + 1) .host
          inputs := reads.map Input.host ++ [.host (.read .outbuf i 1)] } = .next t ∧
      s.draws ≤ d ∧ t.draws = d + 1 ∧ t.responses.head? = some (.byte (Config.freeByte d)))
end

