-- ==== Sys2Proof/Laws/State.lean ====
section
/-! SUPPORT. One lemma per field per update of State, so that no proof unfolds a record update. -/

namespace Sys2Proof.Machine

/-! ### violate -/

@[simp] theorem violate_params (s : State) : (violate s).params = s.params := rfl
@[simp] theorem violate_done (s : State) : (violate s).done = s.done := rfl
@[simp] theorem violate_err (s : State) : (violate s).err = s.err := rfl
@[simp] theorem violate_inLen (s : State) : (violate s).inLen = s.inLen := rfl
@[simp] theorem violate_outLen (s : State) : (violate s).outLen = s.outLen := rfl
@[simp] theorem violate_fsm (s : State) : (violate s).fsm = s.fsm := rfl
@[simp] theorem violate_inBuf (s : State) : (violate s).inBuf = s.inBuf := rfl
@[simp] theorem violate_outBuf (s : State) : (violate s).outBuf = s.outBuf := rfl
@[simp] theorem violate_violated (s : State) : (violate s).violated = true := rfl
@[simp] theorem violate_startedAt (s : State) : (violate s).startedAt = s.startedAt := rfl
@[simp] theorem violate_freed (s : State) : (violate s).freed = s.freed := rfl
@[simp] theorem violate_draws (s : State) : (violate s).draws = s.draws := rfl
@[simp] theorem violate_inputs (s : State) : (violate s).inputs = s.inputs := rfl
@[simp] theorem violate_turns (s : State) : (violate s).turns = s.turns := rfl
@[simp] theorem violate_responses (s : State) : (violate s).responses = s.responses := rfl

/-! ### respond -/

@[simp] theorem respond_params (x : Response) (s : State) : (respond x s).params = s.params := rfl
@[simp] theorem respond_done (x : Response) (s : State) : (respond x s).done = s.done := rfl
@[simp] theorem respond_err (x : Response) (s : State) : (respond x s).err = s.err := rfl
@[simp] theorem respond_inLen (x : Response) (s : State) : (respond x s).inLen = s.inLen := rfl
@[simp] theorem respond_outLen (x : Response) (s : State) : (respond x s).outLen = s.outLen := rfl
@[simp] theorem respond_fsm (x : Response) (s : State) : (respond x s).fsm = s.fsm := rfl
@[simp] theorem respond_inBuf (x : Response) (s : State) : (respond x s).inBuf = s.inBuf := rfl
@[simp] theorem respond_outBuf (x : Response) (s : State) : (respond x s).outBuf = s.outBuf := rfl
@[simp] theorem respond_violated (x : Response) (s : State) : (respond x s).violated = s.violated := rfl
@[simp] theorem respond_startedAt (x : Response) (s : State) : (respond x s).startedAt = s.startedAt := rfl
@[simp] theorem respond_freed (x : Response) (s : State) : (respond x s).freed = s.freed := rfl
@[simp] theorem respond_draws (x : Response) (s : State) : (respond x s).draws = s.draws := rfl
@[simp] theorem respond_inputs (x : Response) (s : State) : (respond x s).inputs = s.inputs := rfl
@[simp] theorem respond_turns (x : Response) (s : State) : (respond x s).turns = s.turns := rfl
@[simp] theorem respond_responses (x : Response) (s : State) : (respond x s).responses = x :: s.responses := rfl

/-! ### advance -/

@[simp] theorem advance_params (bs : List Byte) (k : Nat) (r : Run) (s : State) : (advance bs k r s).params = s.params := rfl
@[simp] theorem advance_done (bs : List Byte) (k : Nat) (r : Run) (s : State) : (advance bs k r s).done = s.done := rfl
@[simp] theorem advance_err (bs : List Byte) (k : Nat) (r : Run) (s : State) : (advance bs k r s).err = s.err := rfl
@[simp] theorem advance_inLen (bs : List Byte) (k : Nat) (r : Run) (s : State) : (advance bs k r s).inLen = s.inLen := rfl
@[simp] theorem advance_outLen (bs : List Byte) (k : Nat) (r : Run) (s : State) : (advance bs k r s).outLen = s.outLen := rfl
@[simp] theorem advance_fsm (bs : List Byte) (k : Nat) (r : Run) (s : State) : (advance bs k r s).fsm = .running { r with rd := r.rd + k, wr := (emitAll s.params.outCap bs (s.outBuf, r.wr)).2 } := rfl
@[simp] theorem advance_inBuf (bs : List Byte) (k : Nat) (r : Run) (s : State) : (advance bs k r s).inBuf = s.inBuf := rfl
@[simp] theorem advance_outBuf (bs : List Byte) (k : Nat) (r : Run) (s : State) : (advance bs k r s).outBuf = (emitAll s.params.outCap bs (s.outBuf, r.wr)).1 := rfl
@[simp] theorem advance_violated (bs : List Byte) (k : Nat) (r : Run) (s : State) : (advance bs k r s).violated = s.violated := rfl
@[simp] theorem advance_startedAt (bs : List Byte) (k : Nat) (r : Run) (s : State) : (advance bs k r s).startedAt = s.startedAt := rfl
@[simp] theorem advance_freed (bs : List Byte) (k : Nat) (r : Run) (s : State) : (advance bs k r s).freed = s.freed := rfl
@[simp] theorem advance_draws (bs : List Byte) (k : Nat) (r : Run) (s : State) : (advance bs k r s).draws = s.draws := rfl
@[simp] theorem advance_inputs (bs : List Byte) (k : Nat) (r : Run) (s : State) : (advance bs k r s).inputs = s.inputs := rfl
@[simp] theorem advance_turns (bs : List Byte) (k : Nat) (r : Run) (s : State) : (advance bs k r s).turns = s.turns := rfl
@[simp] theorem advance_responses (bs : List Byte) (k : Nat) (r : Run) (s : State) : (advance bs k r s).responses = s.responses := rfl

/-! ### startOp -/

@[simp] theorem startOp_params (op : CodecOp) (s : State) : (startOp op s).params = s.params := rfl
@[simp] theorem startOp_done (op : CodecOp) (s : State) : (startOp op s).done = false := rfl
@[simp] theorem startOp_err (op : CodecOp) (s : State) : (startOp op s).err = .ok := rfl
@[simp] theorem startOp_inLen (op : CodecOp) (s : State) : (startOp op s).inLen = s.inLen := rfl
@[simp] theorem startOp_outLen (op : CodecOp) (s : State) : (startOp op s).outLen = 0 := rfl
@[simp] theorem startOp_fsm (op : CodecOp) (s : State) : (startOp op s).fsm = .running { op := op, n := s.inLen.toNat, rd := 0, wr := 0, snap := s.draws } := rfl
@[simp] theorem startOp_inBuf (op : CodecOp) (s : State) : (startOp op s).inBuf = s.inBuf := rfl
@[simp] theorem startOp_outBuf (op : CodecOp) (s : State) : (startOp op s).outBuf = s.outBuf := rfl
@[simp] theorem startOp_violated (op : CodecOp) (s : State) : (startOp op s).violated = s.violated := rfl
@[simp] theorem startOp_startedAt (op : CodecOp) (s : State) : (startOp op s).startedAt = some s.responses.length := rfl
@[simp] theorem startOp_freed (op : CodecOp) (s : State) : (startOp op s).freed = s.freed := rfl
@[simp] theorem startOp_draws (op : CodecOp) (s : State) : (startOp op s).draws = s.draws + s.inLen.toNat := rfl
@[simp] theorem startOp_inputs (op : CodecOp) (s : State) : (startOp op s).inputs = s.inputs := rfl
@[simp] theorem startOp_turns (op : CodecOp) (s : State) : (startOp op s).turns = s.turns := rfl
@[simp] theorem startOp_responses (op : CodecOp) (s : State) : (startOp op s).responses = s.responses := rfl

/-! ### rejectCommand -/

@[simp] theorem rejectCommand_params (e : ErrCode) (s : State) : (rejectCommand e s).params = s.params := rfl
@[simp] theorem rejectCommand_done (e : ErrCode) (s : State) : (rejectCommand e s).done = true := rfl
@[simp] theorem rejectCommand_err (e : ErrCode) (s : State) : (rejectCommand e s).err = e := rfl
@[simp] theorem rejectCommand_inLen (e : ErrCode) (s : State) : (rejectCommand e s).inLen = s.inLen := rfl
@[simp] theorem rejectCommand_outLen (e : ErrCode) (s : State) : (rejectCommand e s).outLen = 0 := rfl
@[simp] theorem rejectCommand_fsm (e : ErrCode) (s : State) : (rejectCommand e s).fsm = s.fsm := rfl
@[simp] theorem rejectCommand_inBuf (e : ErrCode) (s : State) : (rejectCommand e s).inBuf = s.inBuf := rfl
@[simp] theorem rejectCommand_outBuf (e : ErrCode) (s : State) : (rejectCommand e s).outBuf = s.outBuf := rfl
@[simp] theorem rejectCommand_violated (e : ErrCode) (s : State) : (rejectCommand e s).violated = s.violated := rfl
@[simp] theorem rejectCommand_startedAt (e : ErrCode) (s : State) : (rejectCommand e s).startedAt = s.startedAt := rfl
@[simp] theorem rejectCommand_freed (e : ErrCode) (s : State) : (rejectCommand e s).freed = s.freed := rfl
@[simp] theorem rejectCommand_draws (e : ErrCode) (s : State) : (rejectCommand e s).draws = s.draws := rfl
@[simp] theorem rejectCommand_inputs (e : ErrCode) (s : State) : (rejectCommand e s).inputs = s.inputs := rfl
@[simp] theorem rejectCommand_turns (e : ErrCode) (s : State) : (rejectCommand e s).turns = s.turns := rfl
@[simp] theorem rejectCommand_responses (e : ErrCode) (s : State) : (rejectCommand e s).responses = s.responses := rfl

/-! ### completeOk -/

@[simp] theorem completeOk_params (r : Run) (s : State) : (completeOk r s).params = s.params := rfl
@[simp] theorem completeOk_done (r : Run) (s : State) : (completeOk r s).done = true := rfl
@[simp] theorem completeOk_err (r : Run) (s : State) : (completeOk r s).err = .ok := rfl
@[simp] theorem completeOk_inLen (r : Run) (s : State) : (completeOk r s).inLen = s.inLen := rfl
@[simp] theorem completeOk_outLen (r : Run) (s : State) : (completeOk r s).outLen = BitVec.ofNat 64 r.wr := rfl
@[simp] theorem completeOk_fsm (r : Run) (s : State) : (completeOk r s).fsm = .idle := rfl
@[simp] theorem completeOk_inBuf (r : Run) (s : State) : (completeOk r s).inBuf = s.inBuf := rfl
@[simp] theorem completeOk_outBuf (r : Run) (s : State) : (completeOk r s).outBuf = s.outBuf := rfl
@[simp] theorem completeOk_violated (r : Run) (s : State) : (completeOk r s).violated = s.violated := rfl
@[simp] theorem completeOk_startedAt (r : Run) (s : State) : (completeOk r s).startedAt = s.startedAt := rfl
@[simp] theorem completeOk_freed (r : Run) (s : State) : (completeOk r s).freed = 0 := rfl
@[simp] theorem completeOk_draws (r : Run) (s : State) : (completeOk r s).draws = s.draws := rfl
@[simp] theorem completeOk_inputs (r : Run) (s : State) : (completeOk r s).inputs = s.inputs := rfl
@[simp] theorem completeOk_turns (r : Run) (s : State) : (completeOk r s).turns = s.turns := rfl
@[simp] theorem completeOk_responses (r : Run) (s : State) : (completeOk r s).responses = s.responses := rfl

/-! ### raiseError -/

@[simp] theorem raiseError_params (e : ErrCode) (r : Run) (s : State) : (raiseError e r s).params = s.params := rfl
@[simp] theorem raiseError_done (e : ErrCode) (r : Run) (s : State) : (raiseError e r s).done = true := rfl
@[simp] theorem raiseError_err (e : ErrCode) (r : Run) (s : State) : (raiseError e r s).err = e := rfl
@[simp] theorem raiseError_inLen (e : ErrCode) (r : Run) (s : State) : (raiseError e r s).inLen = s.inLen := rfl
@[simp] theorem raiseError_outLen (e : ErrCode) (r : Run) (s : State) : (raiseError e r s).outLen = 0 := rfl
@[simp] theorem raiseError_fsm (e : ErrCode) (r : Run) (s : State) : (raiseError e r s).fsm = .idle := rfl
@[simp] theorem raiseError_inBuf (e : ErrCode) (r : Run) (s : State) : (raiseError e r s).inBuf = s.inBuf := rfl
@[simp] theorem raiseError_outBuf (e : ErrCode) (r : Run) (s : State) : (raiseError e r s).outBuf = scramble s.draws (min r.wr s.params.outCap) s.outBuf := rfl
@[simp] theorem raiseError_violated (e : ErrCode) (r : Run) (s : State) : (raiseError e r s).violated = s.violated := rfl
@[simp] theorem raiseError_startedAt (e : ErrCode) (r : Run) (s : State) : (raiseError e r s).startedAt = s.startedAt := rfl
@[simp] theorem raiseError_freed (e : ErrCode) (r : Run) (s : State) : (raiseError e r s).freed = min r.wr s.params.outCap := rfl
@[simp] theorem raiseError_draws (e : ErrCode) (r : Run) (s : State) : (raiseError e r s).draws = s.draws + min r.wr s.params.outCap := rfl
@[simp] theorem raiseError_inputs (e : ErrCode) (r : Run) (s : State) : (raiseError e r s).inputs = s.inputs := rfl
@[simp] theorem raiseError_turns (e : ErrCode) (r : Run) (s : State) : (raiseError e r s).turns = s.turns := rfl
@[simp] theorem raiseError_responses (e : ErrCode) (r : Run) (s : State) : (raiseError e r s).responses = s.responses := rfl

/-! ### clearStatus -/

@[simp] theorem clearStatus_params (s : State) : (clearStatus s).params = s.params := rfl
@[simp] theorem clearStatus_done (s : State) : (clearStatus s).done = false := rfl
@[simp] theorem clearStatus_err (s : State) : (clearStatus s).err = .ok := rfl
@[simp] theorem clearStatus_inLen (s : State) : (clearStatus s).inLen = s.inLen := rfl
@[simp] theorem clearStatus_outLen (s : State) : (clearStatus s).outLen = s.outLen := rfl
@[simp] theorem clearStatus_fsm (s : State) : (clearStatus s).fsm = s.fsm := rfl
@[simp] theorem clearStatus_inBuf (s : State) : (clearStatus s).inBuf = s.inBuf := rfl
@[simp] theorem clearStatus_outBuf (s : State) : (clearStatus s).outBuf = s.outBuf := rfl
@[simp] theorem clearStatus_violated (s : State) : (clearStatus s).violated = s.violated := rfl
@[simp] theorem clearStatus_startedAt (s : State) : (clearStatus s).startedAt = s.startedAt := rfl
@[simp] theorem clearStatus_freed (s : State) : (clearStatus s).freed = s.freed := rfl
@[simp] theorem clearStatus_draws (s : State) : (clearStatus s).draws = s.draws := rfl
@[simp] theorem clearStatus_inputs (s : State) : (clearStatus s).inputs = s.inputs := rfl
@[simp] theorem clearStatus_turns (s : State) : (clearStatus s).turns = s.turns := rfl
@[simp] theorem clearStatus_responses (s : State) : (clearStatus s).responses = s.responses := rfl

/-! ### resetBlock -/

@[simp] theorem resetBlock_params (s : State) : (resetBlock s).params = s.params := rfl
@[simp] theorem resetBlock_done (s : State) : (resetBlock s).done = false := rfl
@[simp] theorem resetBlock_err (s : State) : (resetBlock s).err = .ok := rfl
@[simp] theorem resetBlock_inLen (s : State) : (resetBlock s).inLen = 0 := rfl
@[simp] theorem resetBlock_outLen (s : State) : (resetBlock s).outLen = 0 := rfl
@[simp] theorem resetBlock_fsm (s : State) : (resetBlock s).fsm = .idle := rfl
@[simp] theorem resetBlock_inBuf (s : State) : (resetBlock s).inBuf = [] := rfl
@[simp] theorem resetBlock_outBuf (s : State) : (resetBlock s).outBuf = [] := rfl
@[simp] theorem resetBlock_violated (s : State) : (resetBlock s).violated = s.violated := rfl
@[simp] theorem resetBlock_startedAt (s : State) : (resetBlock s).startedAt = none := rfl
@[simp] theorem resetBlock_freed (s : State) : (resetBlock s).freed = 0 := rfl
@[simp] theorem resetBlock_draws (s : State) : (resetBlock s).draws = s.draws := rfl
@[simp] theorem resetBlock_inputs (s : State) : (resetBlock s).inputs = s.inputs := rfl
@[simp] theorem resetBlock_turns (s : State) : (resetBlock s).turns = s.turns := rfl
@[simp] theorem resetBlock_responses (s : State) : (resetBlock s).responses = s.responses := rfl

/-! ### popTurn -/

@[simp] theorem popTurn_params (s : State) : (popTurn s).params = s.params := rfl
@[simp] theorem popTurn_done (s : State) : (popTurn s).done = s.done := rfl
@[simp] theorem popTurn_err (s : State) : (popTurn s).err = s.err := rfl
@[simp] theorem popTurn_inLen (s : State) : (popTurn s).inLen = s.inLen := rfl
@[simp] theorem popTurn_outLen (s : State) : (popTurn s).outLen = s.outLen := rfl
@[simp] theorem popTurn_fsm (s : State) : (popTurn s).fsm = s.fsm := rfl
@[simp] theorem popTurn_inBuf (s : State) : (popTurn s).inBuf = s.inBuf := rfl
@[simp] theorem popTurn_outBuf (s : State) : (popTurn s).outBuf = s.outBuf := rfl
@[simp] theorem popTurn_violated (s : State) : (popTurn s).violated = s.violated := rfl
@[simp] theorem popTurn_startedAt (s : State) : (popTurn s).startedAt = s.startedAt := rfl
@[simp] theorem popTurn_freed (s : State) : (popTurn s).freed = s.freed := rfl
@[simp] theorem popTurn_draws (s : State) : (popTurn s).draws = s.draws := rfl
@[simp] theorem popTurn_inputs (s : State) : (popTurn s).inputs = s.inputs := rfl
@[simp] theorem popTurn_turns (s : State) : (popTurn s).turns = s.turns.tail := rfl
@[simp] theorem popTurn_responses (s : State) : (popTurn s).responses = s.responses := rfl

/-! ### outSettled -/

/-- What the host has seen depends on the record alone. -/
theorem outSettled_congr {s t : State} (hk : t.startedAt = s.startedAt) (hr : t.responses = s.responses) :
    t.outSettled = s.outSettled := by
  simp [State.outSettled, hk, hr]

@[simp] theorem startOp_outSettled (op : CodecOp) (s : State) : (startOp op s).outSettled = false := by
  simp [State.outSettled]

@[simp] theorem resetBlock_outSettled (s : State) : (resetBlock s).outSettled = true := rfl

/-- One more value read settles OUT only by showing an idle block. -/
theorem outSettled_of_read {s t : State} {x : Response} (hk : t.startedAt = s.startedAt)
    (hr : t.responses = x :: s.responses) (ht : t.outSettled = true) : s.outSettled = true ∨ x.showsIdle = true := by
  unfold State.outSettled at *
  rw [hk, hr] at ht
  cases h : s.startedAt with
  | none => exact .inl rfl
  | some k =>
    rw [h] at ht
    simp only [List.length_cons] at ht ⊢
    by_cases hl : k ≤ s.responses.length
    · rw [Nat.sub_add_comm hl, List.take_succ_cons, List.any_cons, Bool.or_eq_true] at ht
      exact ht.symm
    · rw [show s.responses.length + 1 - k = 0 by omega] at ht
      simp at ht

end Sys2Proof.Machine
end

