-- ==== Sys2Proof/Laws/Memory.lean ====
section
/-! SUPPORT. The laws of buffer cells: reading after a write, the canonical form, and what emitting and error entry store. -/

namespace Sys2Proof.Machine

/-! ### One cell -/

theorem read_write (m : Memory) (i j : Nat) (v : Byte) :
    Memory.read (Memory.write m i v) j = if j = i then some v else Memory.read m j := by
  induction m with
  | nil => by_cases h : j = i <;> simp [Memory.write, Memory.read, h]
  | cons c m ih =>
    obtain ⟨a, b⟩ := c
    by_cases h₁ : i < a
    · simp only [Memory.write, if_pos h₁]
      by_cases hj : j = i <;> simp [Memory.read, hj]
    · by_cases h₂ : i = a
      · subst h₂
        simp only [Memory.write, lt_irrefl, if_false, if_true]
        by_cases hj : j = i <;> simp [Memory.read, hj]
      · simp only [Memory.write, if_neg h₁, if_neg h₂, Memory.read, ih]
        by_cases hj : j = a
        · subst hj
          simp [Ne.symm h₂]
        · simp [hj]

@[simp] theorem read_write_same (m : Memory) (i : Nat) (v : Byte) : Memory.read (Memory.write m i v) i = some v := by
  simp [read_write]

theorem read_write_other (m : Memory) {i j : Nat} (v : Byte) (h : j ≠ i) :
    Memory.read (Memory.write m i v) j = Memory.read m j := by
  simp [read_write, h]

@[simp] theorem read_nil (i : Nat) : Memory.read [] i = none := rfl

/-- A write adds one index and keeps the others. -/
theorem mem_write_index {m : Memory} {i : Nat} {v : Byte} {c : Host.Cell} (h : c ∈ Memory.write m i v) :
    c.1 = i ∨ c ∈ m := by
  induction m with
  | nil => simp [Memory.write] at h; simp [h]
  | cons d m ih =>
    obtain ⟨a, b⟩ := d
    simp only [Memory.write] at h
    split_ifs at h with h₁ h₂
    · rcases List.mem_cons.mp h with rfl | h
      · exact .inl rfl
      · exact .inr h
    · rcases List.mem_cons.mp h with rfl | h
      · exact .inl rfl
      · exact .inr (List.mem_cons_of_mem _ h)
    · rcases List.mem_cons.mp h with rfl | h
      · exact .inr List.mem_cons_self
      · exact (ih h).imp_right (List.mem_cons_of_mem _)

theorem write_wf {m : Memory} (h : Memory.wf m) (i : Nat) (v : Byte) : Memory.wf (Memory.write m i v) := by
  induction m with
  | nil => simp [Memory.write, Memory.wf]
  | cons c m ih =>
    obtain ⟨a, b⟩ := c
    obtain ⟨hc, hm⟩ := List.pairwise_cons.mp h
    simp only [Memory.write]
    split_ifs with h₁ h₂
    · refine List.pairwise_cons.mpr ⟨fun x hx => ?_, h⟩
      rcases List.mem_cons.mp hx with rfl | hx
      · exact h₁
      · exact lt_trans h₁ (hc x hx)
    · exact List.pairwise_cons.mpr ⟨fun x hx => h₂ ▸ hc x hx, hm⟩
    · refine List.pairwise_cons.mpr ⟨fun x hx => ?_, ih hm⟩
      rcases mem_write_index hx with hx | hx
      · show a < x.1
        omega
      · exact hc x hx

theorem write_below {m : Memory} {cap i : Nat} (h : Memory.below cap m) (hi : i < cap) (v : Byte) :
    Memory.below cap (Memory.write m i v) := by
  intro c hc
  rcases mem_write_index hc with hc | hc
  · exact hc ▸ hi
  · exact h c hc

/-- A cell at or beyond the bound of a memory is unwritten. -/
theorem read_none_of_below {m : Memory} {cap i : Nat} (h : Memory.below cap m) (hi : cap ≤ i) :
    Memory.read m i = none := by
  induction m with
  | nil => rfl
  | cons c m ih =>
    obtain ⟨a, b⟩ := c
    have ha : a < cap := h (a, b) List.mem_cons_self
    simp only [Memory.read]
    rw [if_neg (by omega)]
    exact ih fun d hd => h d (List.mem_cons_of_mem _ hd)

/-! ### Emitting -/

@[simp] theorem emitAll_count (cap : Nat) (bs : List Byte) (o : Memory × Nat) :
    (emitAll cap bs o).2 = o.2 + bs.length := by
  induction bs generalizing o with
  | nil => rfl
  | cons b bs ih => simp [emitAll, ih, emit]; omega

/-- Everything emitting does to OUT: byte `k` lands in cell `WR + k` when that cell exists, every other cell keeps its
contents. -/
theorem emitAll_read (cap : Nat) (bs : List Byte) (m : Memory) (w i : Nat) :
    Memory.read (emitAll cap bs (m, w)).1 i =
      if w ≤ i ∧ i < w + bs.length ∧ i < cap then bs[i - w]? else Memory.read m i := by
  induction bs generalizing m w with
  | nil =>
    rw [if_neg (by simp; omega)]
    rfl
  | cons b bs ih =>
    simp only [emitAll, emit, ih, List.length_cons]
    by_cases h : w + 1 ≤ i ∧ i < w + 1 + bs.length ∧ i < cap
    · rw [if_pos h, if_pos (by omega)]
      obtain ⟨k, rfl⟩ : ∃ k, i = w + 1 + k := ⟨i - (w + 1), by omega⟩
      have e₁ : w + 1 + k - (w + 1) = k := by omega
      have e₂ : w + 1 + k - w = k + 1 := by omega
      rw [e₁, e₂, List.getElem?_cons_succ]
    · rw [if_neg h]
      by_cases hiw : i = w
      · subst hiw
        by_cases hc : i < cap <;> simp [hc]
      · have hn : ¬(w ≤ i ∧ i < w + (bs.length + 1) ∧ i < cap) := by omega
        rw [if_neg hn]
        by_cases hw : w < cap
        · rw [if_pos hw, read_write_other _ _ hiw]
        · rw [if_neg hw]

theorem emitAll_wf {cap : Nat} {bs : List Byte} {o : Memory × Nat} (h : Memory.wf o.1) :
    Memory.wf (emitAll cap bs o).1 := by
  induction bs generalizing o with
  | nil => exact h
  | cons b bs ih =>
    refine ih ?_
    simp only [emit]
    split_ifs
    · exact write_wf h _ _
    · exact h

theorem emitAll_below {cap : Nat} {bs : List Byte} {o : Memory × Nat} (h : Memory.below cap o.1) :
    Memory.below cap (emitAll cap bs o).1 := by
  induction bs generalizing o with
  | nil => exact h
  | cons b bs ih =>
    refine ih ?_
    simp only [emit]
    split_ifs with hc
    · exact write_below h hc _
    · exact h

/-- Emitting two blocks one after the other is emitting their concatenation. -/
theorem emitAll_append (cap : Nat) (xs ys : List Byte) (o : Memory × Nat) :
    emitAll cap (xs ++ ys) o = emitAll cap ys (emitAll cap xs o) := by
  induction xs generalizing o with
  | nil => rfl
  | cons x xs ih => simp [emitAll, ih]

/-! ### Error entry's cells -/

/-- Everything error entry does to OUT: the first `k` cells hold a draw each, the others keep their contents. -/
theorem scramble_read (base k : Nat) (m : Memory) (i : Nat) :
    Memory.read (scramble base k m) i = if i < k then some (Config.freeByte (base + i)) else Memory.read m i := by
  induction k with
  | zero => simp [scramble]
  | succ k ih =>
    simp only [scramble, read_write, ih]
    by_cases h : i = k
    · subst h
      simp
    · by_cases h' : i < k
      · simp [h, h', Nat.lt_succ_of_lt h']
      · have : ¬ i < k + 1 := by omega
        simp [h, h', this]

theorem scramble_wf {m : Memory} (h : Memory.wf m) (base k : Nat) : Memory.wf (scramble base k m) := by
  induction k with
  | zero => exact h
  | succ k ih => exact write_wf ih _ _

theorem scramble_below {m : Memory} {cap : Nat} (h : Memory.below cap m) (base : Nat) {k : Nat} (hk : k ≤ cap) :
    Memory.below cap (scramble base k m) := by
  induction k with
  | zero => exact h
  | succ k ih => exact write_below (ih (by omega)) (by omega) _

/-! ### Consecutive stores -/

theorem storeBytes_read (start : Nat) (bs : List Byte) (m : Memory) (i : Nat) :
    Memory.read (storeBytes start bs m) i =
      if start ≤ i ∧ i < start + bs.length then bs[i - start]? else Memory.read m i := by
  induction bs generalizing start m with
  | nil =>
    rw [if_neg (by simp)]
    rfl
  | cons b bs ih =>
    simp only [storeBytes, ih, List.length_cons]
    by_cases hi : i = start
    · subst hi
      simp
    · by_cases h : start + 1 ≤ i ∧ i < start + 1 + bs.length
      · rw [if_pos h, if_pos (by omega)]
        obtain ⟨k, rfl⟩ : ∃ k, i = start + 1 + k := ⟨i - (start + 1), by omega⟩
        have e₁ : start + 1 + k - (start + 1) = k := by omega
        have e₂ : start + 1 + k - start = k + 1 := by omega
        rw [e₁, e₂, List.getElem?_cons_succ]
      · rw [if_neg h, if_neg (by omega)]
        exact read_write_other _ _ hi

theorem storeBytes_wf {m : Memory} (h : Memory.wf m) (start : Nat) (bs : List Byte) :
    Memory.wf (storeBytes start bs m) := by
  induction bs generalizing start m with
  | nil => exact h
  | cons b bs ih => exact ih (write_wf h _ _) _

/-- Reset leaves both buffers canonical. -/
theorem resetBlock_wf (s : State) : Memory.wf (resetBlock s).inBuf ∧ Memory.wf (resetBlock s).outBuf := by
  simp [Memory.wf]

end Sys2Proof.Machine
end

