-- ==== Sys2Proof/Laws/Codec.lean ====
section
/-! SUPPORT. What the detection loops find, what they depend on, and the equations of Enc, Dec and the reading of a stream as blocks, free of fuel. -/

namespace Sys2Proof.Machine

/-! ### The detection loops -/

/-- All that the run scan finds: it extends a run of `len` bytes by at most `fuel`, within the input, and stops at the
cap, at the end, or at a different byte. -/
theorem runScan_spec (S : Nat → Byte) (n p fuel len : Nat) (hn : p + len ≤ n)
    (hrun : ∀ j, j < len → S (p + j) = S p) :
    len ≤ runScan S n p fuel len ∧ runScan S n p fuel len ≤ len + fuel ∧ p + runScan S n p fuel len ≤ n ∧
      (∀ j, j < runScan S n p fuel len → S (p + j) = S p) ∧
      (runScan S n p fuel len = len + fuel ∨ p + runScan S n p fuel len = n ∨
        S (p + runScan S n p fuel len) ≠ S p) := by
  induction fuel generalizing len with
  | zero => exact ⟨le_rfl, le_rfl, hn, hrun, .inl rfl⟩
  | succ fuel ih =>
    simp only [runScan]
    by_cases h : p + len < n ∧ S (p + len) = S p
    · rw [if_pos h]
      have hrun' : ∀ j, j < len + 1 → S (p + j) = S p := by
        intro j hj
        rcases Nat.lt_succ_iff_lt_or_eq.mp hj with hj | rfl
        · exact hrun j hj
        · exact h.2
      obtain ⟨h₁, h₂, h₃, h₄, h₅⟩ := ih (len + 1) (by omega) hrun'
      exact ⟨by omega, by omega, h₃, h₄, h₅.imp_left (by omega)⟩
    · rw [if_neg h]
      refine ⟨le_rfl, by omega, hn, hrun, .inr ?_⟩
      by_cases hp : p + len = n
      · exact .inl hp
      · exact .inr fun he => h ⟨by omega, he⟩

/-- All that the literal scan finds: it extends a literal of `len` bytes by at most `fuel`, within the input, over
positions where no run starts, and stops at the cap, at the end, or where a run starts. -/
theorem litScan_spec (S : Nat → Byte) (n p fuel len : Nat) (hn : p + len ≤ n) :
    len ≤ litScan S n p fuel len ∧ litScan S n p fuel len ≤ len + fuel ∧ p + litScan S n p fuel len ≤ n ∧
      (∀ j, len ≤ j → j < litScan S n p fuel len → runStarts S n (p + j) = false) ∧
      (litScan S n p fuel len = len + fuel ∨ p + litScan S n p fuel len = n ∨
        runStarts S n (p + litScan S n p fuel len) = true) := by
  induction fuel generalizing len with
  | zero => exact ⟨le_rfl, le_rfl, hn, fun j h₁ h₂ => absurd h₁ (by simp [litScan] at h₂; omega), .inl rfl⟩
  | succ fuel ih =>
    simp only [litScan]
    by_cases h : p + len < n ∧ runStarts S n (p + len) = false
    · rw [if_pos h]
      obtain ⟨h₁, h₂, h₃, h₄, h₅⟩ := ih (len + 1) (by omega)
      refine ⟨by omega, by omega, h₃, fun j hj hj' => ?_, h₅.imp_left (by omega)⟩
      rcases Nat.eq_or_lt_of_le hj with rfl | hj
      · exact h.2
      · exact h₄ j hj hj'
    · rw [if_neg h]
      refine ⟨le_rfl, by omega, hn, fun j h₁ h₂ => absurd h₁ (by omega), .inr ?_⟩
      by_cases hp : p + len = n
      · exact .inl hp
      · refine .inr ?_
        cases hs : runStarts S n (p + len)
        · exact absurd ⟨by omega, hs⟩ h
        · rfl

/-- The run scan depends on the bytes from its position to the end of the input only. -/
theorem runScan_congr {S T : Nat → Byte} {n p : Nat} (hp : p < n) (h : ∀ i, p ≤ i → i < n → S i = T i)
    (fuel len : Nat) : runScan S n p fuel len = runScan T n p fuel len := by
  induction fuel generalizing len with
  | zero => rfl
  | succ fuel ih =>
    simp only [runScan, ih, h p le_rfl hp]
    by_cases hl : p + len < n
    · rw [h (p + len) (by omega) hl]
    · simp [hl]

theorem runStarts_congr {S T : Nat → Byte} {n p q : Nat} (h : ∀ i, p ≤ i → i < n → S i = T i) (hq : p ≤ q) :
    runStarts S n q = runStarts T n q := by
  unfold runStarts
  by_cases hl : q + 1 < n
  · rw [h q hq (by omega), h (q + 1) (by omega) hl]
  · simp [hl]

theorem litScan_congr {S T : Nat → Byte} {n p : Nat} (h : ∀ i, p ≤ i → i < n → S i = T i)
    (fuel len : Nat) : litScan S n p fuel len = litScan T n p fuel len := by
  induction fuel generalizing len with
  | zero => rfl
  | succ fuel ih => simp only [litScan, ih, runStarts_congr h (Nat.le_add_right p len)]

/-- Scanning at a position is scanning the suffix that begins there. -/
theorem runScan_suffix (S : Nat → Byte) (n p fuel len : Nat) :
    runScan S (p + n) p fuel len = runScan (fun i => S (p + i)) n 0 fuel len := by
  induction fuel generalizing len with
  | zero => rfl
  | succ fuel ih => simp [runScan, ih]

theorem litScan_suffix (S : Nat → Byte) (n p fuel len : Nat) :
    litScan S (p + n) p fuel len = litScan (fun i => S (p + i)) n 0 fuel len := by
  induction fuel generalizing len with
  | zero => rfl
  | succ fuel ih => simp [litScan, runStarts, ih, Nat.add_assoc]

/-- `RunLen` is between 1 and 128 and stays within the input. -/
theorem runLen_bounds {S : Nat → Byte} {n p : Nat} (hp : p < n) :
    1 ≤ runLen S n p ∧ runLen S n p ≤ 128 ∧ p + runLen S n p ≤ n := by
  obtain ⟨h₁, h₂, h₃, -, -⟩ := runScan_spec S n p (Config.runMax - 1) 1 (by omega)
    (by intro j hj; obtain rfl : j = 0 := by omega
        rfl)
  exact ⟨h₁, h₂, h₃⟩

/-- `LitLen` is between 1 and 128 and stays within the input. -/
theorem litLen_bounds {S : Nat → Byte} {n p : Nat} (hp : p < n) :
    1 ≤ litLen S n p ∧ litLen S n p ≤ 128 ∧ p + litLen S n p ≤ n := by
  obtain ⟨h₁, h₂, h₃, -, -⟩ := litScan_spec S n p (Config.litMax - 1) 1 (by omega)
  exact ⟨h₁, h₂, h₃⟩

/-! ### Enc without fuel (41_encoder.md R128) -/

/-- `RunLen_s(0)` of 41_encoder.md R128. -/
def firstRun (s : List Byte) : Nat := runLen (byteAt s) s.length 0

/-- `LitLen_s(0)` of 41_encoder.md R128. -/
def firstLit (s : List Byte) : Nat := litLen (byteAt s) s.length 0

theorem firstRun_bounds {s : List Byte} (h : s ≠ []) : 1 ≤ firstRun s ∧ firstRun s ≤ 128 ∧ firstRun s ≤ s.length := by
  have := runLen_bounds (S := byteAt s) (List.length_pos_iff.mpr h)
  simpa [firstRun] using this

theorem firstLit_bounds {s : List Byte} (h : s ≠ []) : 1 ≤ firstLit s ∧ firstLit s ≤ 128 ∧ firstLit s ≤ s.length := by
  have := litLen_bounds (S := byteAt s) (List.length_pos_iff.mpr h)
  simpa [firstLit] using this

theorem encFuel_cons (k : Nat) (v : Byte) (rest : List Byte) :
    encFuel (k + 1) (v :: rest) =
      if 2 ≤ firstRun (v :: rest) then
        [runControl (firstRun (v :: rest)), v] ++ encFuel k ((v :: rest).drop (firstRun (v :: rest)))
      else
        literalControl (firstLit (v :: rest)) ::
          ((v :: rest).take (firstLit (v :: rest)) ++ encFuel k ((v :: rest).drop (firstLit (v :: rest)))) := rfl

theorem encFuel_enough {k : Nat} {s : List Byte} (h : s.length ≤ k) : encFuel k s = enc s := by
  suffices H : ∀ n s k l, s.length ≤ n → s.length ≤ k → s.length ≤ l → encFuel k s = encFuel l s from
    H s.length s k s.length le_rfl h le_rfl
  intro n
  induction n with
  | zero =>
    intro s k l hn _ _
    obtain rfl : s = [] := List.length_eq_zero_iff.mp (by omega)
    cases k <;> cases l <;> rfl
  | succ n ih =>
    intro s k l hn hk hl
    cases s with
    | nil => cases k <;> cases l <;> rfl
    | cons v rest =>
      obtain ⟨k, rfl⟩ : ∃ k', k = k' + 1 := ⟨k - 1, by simp at hk; omega⟩
      obtain ⟨l, rfl⟩ : ∃ l', l = l' + 1 := ⟨l - 1, by simp at hl; omega⟩
      have hr := firstRun_bounds (List.cons_ne_nil v rest)
      have hL := firstLit_bounds (List.cons_ne_nil v rest)
      rw [encFuel_cons, encFuel_cons]
      simp only [List.length_cons] at hn hk hl hr hL
      rw [ih ((v :: rest).drop (firstRun (v :: rest))) k l (by simp; omega) (by simp; omega) (by simp; omega),
        ih ((v :: rest).drop (firstLit (v :: rest))) k l (by simp; omega) (by simp; omega) (by simp; omega)]

@[simp] theorem enc_nil : enc [] = [] := rfl

/-- The second equation of 41_encoder.md R128. -/
theorem enc_cons (v : Byte) (rest : List Byte) :
    enc (v :: rest) =
      if 2 ≤ firstRun (v :: rest) then
        [runControl (firstRun (v :: rest)), v] ++ enc ((v :: rest).drop (firstRun (v :: rest)))
      else
        literalControl (firstLit (v :: rest)) ::
          ((v :: rest).take (firstLit (v :: rest)) ++ enc ((v :: rest).drop (firstLit (v :: rest)))) := by
  have hr := firstRun_bounds (List.cons_ne_nil v rest)
  have hL := firstLit_bounds (List.cons_ne_nil v rest)
  show encFuel (rest.length + 1) (v :: rest) = _
  simp only [List.length_cons] at hr hL
  rw [encFuel_cons, encFuel_enough (by simp; omega), encFuel_enough (by simp; omega)]

/-! ### Dec without fuel (42_decoder.md R160) -/

theorem controlLen_pos (c : Byte) : 1 ≤ controlLen c := Nat.le_add_left 1 _

theorem controlLen_le (c : Byte) : controlLen c ≤ 128 := by
  have := (c.extractLsb' 0 7).isLt
  simp only [controlLen]
  omega

theorem decFuel_enough {k : Nat} {t : List Byte} (h : t.length ≤ k) : decFuel k t = dec t := by
  suffices H : ∀ n t k l, t.length ≤ n → t.length ≤ k → t.length ≤ l → decFuel k t = decFuel l t from
    H t.length t k t.length le_rfl h le_rfl
  intro n
  induction n with
  | zero =>
    intro t k l hn _ _
    obtain rfl : t = [] := List.length_eq_zero_iff.mp (by omega)
    cases k <;> cases l <;> rfl
  | succ n ih =>
    intro t k l hn hk hl
    cases t with
    | nil => cases k <;> cases l <;> rfl
    | cons c t =>
      obtain ⟨k, rfl⟩ : ∃ k', k = k' + 1 := ⟨k - 1, by simp at hk; omega⟩
      obtain ⟨l, rfl⟩ : ∃ l', l = l' + 1 := ⟨l - 1, by simp at hl; omega⟩
      simp only [List.length_cons] at hn hk hl
      simp only [decFuel]
      rw [ih (t.drop (controlLen c)) k l (by simp; omega) (by simp; omega) (by simp; omega)]
      cases t with
      | nil => rfl
      | cons v rest =>
        simp only [List.length_cons] at hn hk hl
        simp only [ih rest k l (by omega) (by omega) (by omega)]

@[simp] theorem dec_nil : dec [] = .ok [] := rfl

/-- A run block at the front of a stream (42_decoder.md R160). -/
theorem dec_run {c : Byte} (h : controlIsRun c = true) (v : Byte) (rest : List Byte) :
    dec (c :: v :: rest) = prepend (List.replicate (controlLen c) v) (dec rest) := by
  show decFuel (rest.length + 2) _ = _
  simp [decFuel, h, decFuel_enough (Nat.le_succ rest.length)]

/-- A run block whose fill byte is missing (42_decoder.md R154). -/
theorem dec_run_short {c : Byte} (h : controlIsRun c = true) : dec [c] = .malformedPayload := by
  show decFuel 1 _ = _
  simp [decFuel, h]

/-- A literal block at the front of a stream (42_decoder.md R160). -/
theorem dec_lit {c : Byte} (h : controlIsRun c = false) {t : List Byte} (hl : controlLen c ≤ t.length) :
    dec (c :: t) = prepend (t.take (controlLen c)) (dec (t.drop (controlLen c))) := by
  show decFuel (t.length + 1) _ = _
  have : ¬ t.length < controlLen c := by omega
  simp [decFuel, h, this, decFuel_enough (t := t.drop (controlLen c)) (k := t.length) (by simp)]

/-- A literal block cut short (42_decoder.md R155). -/
theorem dec_lit_short {c : Byte} (h : controlIsRun c = false) {t : List Byte} (hl : t.length < controlLen c) :
    dec (c :: t) = .malformedPayload := by
  show decFuel (t.length + 1) _ = _
  simp [decFuel, h, hl]

/-! ### What a decode emits, without fuel -/

theorem decPrefixFuel_enough {k : Nat} {t : List Byte} (h : t.length ≤ k) : decPrefixFuel k t = decPrefix t := by
  suffices H : ∀ n t k l, t.length ≤ n → t.length ≤ k → t.length ≤ l → decPrefixFuel k t = decPrefixFuel l t from
    H t.length t k t.length le_rfl h le_rfl
  intro n
  induction n with
  | zero =>
    intro t k l hn _ _
    obtain rfl : t = [] := List.length_eq_zero_iff.mp (by omega)
    cases k <;> cases l <;> rfl
  | succ n ih =>
    intro t k l hn hk hl
    cases t with
    | nil => cases k <;> cases l <;> rfl
    | cons c t =>
      obtain ⟨k, rfl⟩ : ∃ k', k = k' + 1 := ⟨k - 1, by simp at hk; omega⟩
      obtain ⟨l, rfl⟩ : ∃ l', l = l' + 1 := ⟨l - 1, by simp at hl; omega⟩
      simp only [List.length_cons] at hn hk hl
      simp only [decPrefixFuel]
      rw [ih (t.drop (controlLen c)) k l (by simp; omega) (by simp; omega) (by simp; omega)]
      cases t with
      | nil => rfl
      | cons v rest =>
        simp only [List.length_cons] at hn hk hl
        simp only [ih rest k l (by omega) (by omega) (by omega)]

@[simp] theorem decPrefix_nil : decPrefix [] = [] := rfl

theorem decPrefix_run {c : Byte} (h : controlIsRun c = true) (v : Byte) (rest : List Byte) :
    decPrefix (c :: v :: rest) = List.replicate (controlLen c) v ++ decPrefix rest := by
  show decPrefixFuel (rest.length + 2) _ = _
  simp [decPrefixFuel, h, decPrefixFuel_enough (Nat.le_succ rest.length)]

theorem decPrefix_run_short {c : Byte} (h : controlIsRun c = true) : decPrefix [c] = [] := by
  show decPrefixFuel 1 _ = _
  simp [decPrefixFuel, h]

theorem decPrefix_lit {c : Byte} (h : controlIsRun c = false) {t : List Byte} (hl : controlLen c ≤ t.length) :
    decPrefix (c :: t) = t.take (controlLen c) ++ decPrefix (t.drop (controlLen c)) := by
  show decPrefixFuel (t.length + 1) _ = _
  have : ¬ t.length < controlLen c := by omega
  simp [decPrefixFuel, h, this, decPrefixFuel_enough (t := t.drop (controlLen c)) (k := t.length) (by simp)]

theorem decPrefix_lit_short {c : Byte} (h : controlIsRun c = false) {t : List Byte} (hl : t.length < controlLen c) :
    decPrefix (c :: t) = [] := by
  show decPrefixFuel (t.length + 1) _ = _
  simp [decPrefixFuel, h, hl]

/-- A decode that succeeds has emitted its result. -/
theorem decPrefix_of_ok {t o : List Byte} (h : dec t = .ok o) : decPrefix t = o := by
  suffices H : ∀ k t o, decFuel k t = .ok o → decPrefixFuel k t = o from H _ t o h
  intro k
  induction k with
  | zero =>
    intro t o h
    cases t <;> simpa [decFuel, decPrefixFuel] using h
  | succ k ih =>
    intro t o h
    have pre : ∀ a u, prepend a (decFuel k u) = .ok o → a ++ decPrefixFuel k u = o := by
      intro a u hu
      cases hd : decFuel k u with
      | malformedPayload => simp [hd, prepend] at hu
      | ok o' => rw [ih u o' hd]; simpa [hd, prepend] using hu
    cases t with
    | nil => simpa [decFuel, decPrefixFuel] using h
    | cons c t =>
      simp only [decFuel] at h
      simp only [decPrefixFuel]
      split_ifs at h ⊢
      · cases t with
        | nil => simp at h
        | cons v rest => exact pre _ _ h
      · exact pre _ _ h

/-! ### Blocks of a stream without fuel -/

theorem blocksFuel_enough {k : Nat} {t : List Byte} (h : t.length ≤ k) : blocksFuel k t = blocksOf t := by
  suffices H : ∀ n t k l, t.length ≤ n → t.length ≤ k → t.length ≤ l → blocksFuel k t = blocksFuel l t from
    H t.length t k t.length le_rfl h le_rfl
  intro n
  induction n with
  | zero =>
    intro t k l hn _ _
    obtain rfl : t = [] := List.length_eq_zero_iff.mp (by omega)
    cases k <;> cases l <;> rfl
  | succ n ih =>
    intro t k l hn hk hl
    cases t with
    | nil => cases k <;> cases l <;> rfl
    | cons c t =>
      obtain ⟨k, rfl⟩ : ∃ k', k = k' + 1 := ⟨k - 1, by simp at hk; omega⟩
      obtain ⟨l, rfl⟩ : ∃ l', l = l' + 1 := ⟨l - 1, by simp at hl; omega⟩
      simp only [List.length_cons] at hn hk hl
      simp only [blocksFuel]
      rw [ih (t.drop (controlLen c)) k l (by simp; omega) (by simp; omega) (by simp; omega)]
      cases t with
      | nil => rfl
      | cons v rest =>
        simp only [List.length_cons] at hn hk hl
        simp only [ih rest k l (by omega) (by omega) (by omega)]

@[simp] theorem blocksOf_nil : blocksOf [] = some [] := rfl

theorem blocksOf_run {c : Byte} (h : controlIsRun c = true) (v : Byte) (rest : List Byte) :
    blocksOf (c :: v :: rest) = (blocksOf rest).map (.run (controlLen c) v :: ·) := by
  show blocksFuel (rest.length + 2) _ = _
  simp [blocksFuel, h, blocksFuel_enough (Nat.le_succ rest.length)]

theorem blocksOf_lit {c : Byte} (h : controlIsRun c = false) {t : List Byte} (hl : controlLen c ≤ t.length) :
    blocksOf (c :: t) = (blocksOf (t.drop (controlLen c))).map (.literal (t.take (controlLen c)) :: ·) := by
  show blocksFuel (t.length + 1) _ = _
  have : ¬ t.length < controlLen c := by omega
  simp [blocksFuel, h, this, blocksFuel_enough (t := t.drop (controlLen c)) (k := t.length) (by simp)]

/-! ### The control bytes the encoder writes -/

theorem controlIsRun_literalControl {len : Nat} (h₁ : 1 ≤ len) (h₂ : len ≤ 128) :
    controlIsRun (literalControl len) = false := by
  interval_cases len <;> decide

theorem controlLen_literalControl {len : Nat} (h₁ : 1 ≤ len) (h₂ : len ≤ 128) :
    controlLen (literalControl len) = len := by
  interval_cases len <;> decide

theorem controlIsRun_runControl (len : Nat) : controlIsRun (runControl len) = true := by
  simp [controlIsRun, runControl]

theorem controlLen_runControl {len : Nat} (h₁ : 1 ≤ len) (h₂ : len ≤ 128) :
    controlLen (runControl len) = len := by
  interval_cases len <;> decide

end Sys2Proof.Machine
end

