-- ==== Sys2Proof/Laws/Machine.lean ====
section
/-! SUPPORT. What each shared operation and each step can do: the snapshot, the flags, the meanings, the block step and the machine's step. -/

namespace Sys2Proof.Machine

/-! ### Parameters -/

/-- What legal parameters say of the capacities (00_scope.md R9). -/
theorem Params.caps_of_wellFormed {p : Params} (h : p.wellFormed = true) :
    1 ≤ p.inCap ∧ p.inCap ≤ 2 ^ 56 ∧ 1 ≤ p.outCap ∧ p.outCap ≤ 2 ^ 56 := by
  simp only [Params.wellFormed, Bool.and_eq_true, decide_eq_true_eq] at h
  exact h.1.1.1

/-! ### Flags -/

theorem isBusy_idle {s : State} (h : s.fsm = .idle) : isBusy s = false := by simp [isBusy, h]

theorem isBusy_running {s : State} {r : Run} (h : s.fsm = .running r) : isBusy s = true := by simp [isBusy, h]

theorem isBusy_eq_false {s : State} : isBusy s = false ↔ s.fsm = .idle := by
  unfold isBusy
  cases s.fsm <;> simp

theorem isBusy_eq_true {s : State} : isBusy s = true ↔ ∃ r, s.fsm = .running r := by
  unfold isBusy
  cases s.fsm <;> simp

theorem statusWord_bit_zero (s : State) : (statusWord s).getLsbD 0 = isBusy s := by
  unfold statusWord
  cases isBusy s <;> cases s.done <;> cases s.err <;> decide

/-- STATUS of an idle block: DONE in bit 1 and the code in bits 7:4 (10_state.md R26). -/
theorem statusWord_idle {s : State} (h : s.fsm = .idle) :
    statusWord s = (if s.done then (0x2 : Word) else 0x0) ||| ((errBits s.err).setWidth 64 <<< 4) := by
  simp only [statusWord, isBusy_idle h]
  cases s.done <;> cases s.err <;> rfl

/-- STATUS of a busy block whose DONE and ERR are clear (10_state.md R27). -/
theorem statusWord_busy {s : State} {r : Run} (h : s.fsm = .running r) (hd : s.done = false) (he : s.err = .ok) :
    statusWord s = 1 := by
  simp only [statusWord, isBusy_running h, hd, he]
  rfl

/-! ### The snapshot -/

/-- The snapshot depends on IN and on where its draws begin. -/
theorem snapByte_congr {r q : Run} {s t : State} (hs : r.snap = q.snap) (hi : s.inBuf = t.inBuf) :
    snapByte r s = snapByte q t := by
  funext i
  simp [snapByte, hs, hi]

@[simp] theorem snapSlice_length (r : Run) (s : State) (start len : Nat) : (snapSlice r s start len).length = len := by
  simp [snapSlice]

theorem snapSlice_getElem? (r : Run) (s : State) (start len j : Nat) :
    (snapSlice r s start len)[j]? = if j < len then some (snapByte r s (start + j)) else none := by
  by_cases h : j < len <;> simp [snapSlice, h]

@[simp] theorem snapSlice_getElem (r : Run) (s : State) (start len j : Nat) (h : j < (snapSlice r s start len).length) :
    (snapSlice r s start len)[j] = snapByte r s (start + j) := by
  simp [snapSlice]

theorem snapSlice_congr {r q : Run} {s t : State} (hs : r.snap = q.snap) (hi : s.inBuf = t.inBuf) :
    snapSlice r s = snapSlice q t := by
  funext i len
  simp [snapSlice, snapByte_congr hs hi]

/-- The rest of the snapshot from position `p` on. -/
theorem snapshot_drop (r : Run) (s : State) (p : Nat) : (snapshot r s).drop p = snapSlice r s p (r.n - p) := by
  apply List.ext_getElem?
  intro j
  simp only [snapshot, List.getElem?_drop, snapSlice_getElem?, Nat.zero_add]
  by_cases h : j < r.n - p
  · rw [if_pos h, if_pos (by omega)]
  · rw [if_neg h, if_neg (by omega)]

theorem snapSlice_cons (r : Run) (s : State) (p n : Nat) :
    snapSlice r s p (n + 1) = snapByte r s p :: snapSlice r s (p + 1) n := by
  apply List.ext_getElem?
  intro j
  cases j with
  | zero => simp
  | succ j => simp [snapSlice_getElem?, Nat.add_comm, Nat.add_left_comm]

theorem snapSlice_take (r : Run) (s : State) (p n k : Nat) (h : k ≤ n) :
    (snapSlice r s p n).take k = snapSlice r s p k := by
  apply List.ext_getElem?
  intro j
  rw [List.getElem?_take]
  simp only [snapSlice_getElem?]
  by_cases hj : j < k
  · rw [if_pos hj, if_pos hj, if_pos (by omega)]
  · rw [if_neg hj, if_neg hj]

theorem snapSlice_drop (r : Run) (s : State) (p n k : Nat) :
    (snapSlice r s p n).drop k = snapSlice r s (p + k) (n - k) := by
  apply List.ext_getElem?
  intro j
  simp only [List.getElem?_drop, snapSlice_getElem?, Nat.add_assoc]
  by_cases hj : j < n - k
  · rw [if_pos hj, if_pos (by omega)]
  · rw [if_neg hj, if_neg (by omega)]

/-- `RunLen` at a position of the snapshot is `RunLen_s(0)` of the rest (41_encoder.md R128). -/
theorem runLen_snapshot (r : Run) (s : State) {p n : Nat} (h : p < n) :
    runLen (snapByte r s) n p = firstRun (snapSlice r s p (n - p)) := by
  obtain ⟨m, rfl⟩ : ∃ m, n = p + m := ⟨n - p, by omega⟩
  rw [runLen, runScan_suffix, Nat.add_sub_cancel_left, firstRun, runLen, snapSlice_length]
  refine runScan_congr (by omega) (fun i _ hi => ?_) _ _
  simp [byteAt, List.getD, hi]

/-- `LitLen` at a position of the snapshot is `LitLen_s(0)` of the rest (41_encoder.md R128). -/
theorem litLen_snapshot (r : Run) (s : State) {p n : Nat} (h : p < n) :
    litLen (snapByte r s) n p = firstLit (snapSlice r s p (n - p)) := by
  obtain ⟨m, rfl⟩ : ∃ m, n = p + m := ⟨n - p, by omega⟩
  rw [litLen, litScan_suffix, Nat.add_sub_cancel_left, firstLit, litLen, snapSlice_length]
  refine litScan_congr (fun i _ hi => ?_) _ _
  simp [byteAt, List.getD, hi]

/-! ### Advancing -/

/-- The run a block step leaves behind: `RD` past the block, `WR` past its output. -/
def Run.after (r : Run) (consumed produced : Nat) : Run := { r with rd := r.rd + consumed, wr := r.wr + produced }

theorem advance_running (bs : List Byte) (k : Nat) (r : Run) (s : State) :
    (advance bs k r s).fsm = .running (r.after k bs.length) := by
  simp [Run.after]

/-- Two block steps make one longer advance. -/
theorem advance_advance (xs ys : List Byte) (k l : Nat) (r : Run) (s : State) :
    advance ys l (r.after k xs.length) (advance xs k r s) = advance (xs ++ ys) (k + l) r s := by
  have e : (emitAll s.params.outCap xs (s.outBuf, r.wr)) =
      ((emitAll s.params.outCap xs (s.outBuf, r.wr)).1, r.wr + xs.length) :=
    Prod.ext rfl (emitAll_count _ _ _)
  simp only [advance, Run.after]
  rw [emitAll_append, e]
  simp [Nat.add_assoc]

/-! ### Meanings: what each can answer -/

/-- A command is a violation while busy and takes its effect while idle; there is no third case. -/
theorem acceptIdle_cases (f : State → State) (s : State) :
    (∃ r, s.fsm = .running r ∧ acceptIdle f s = .next (violate s)) ∨ (s.fsm = .idle ∧ acceptIdle f s = .next (f s)) := by
  cases h : s.fsm with
  | idle => exact .inr ⟨rfl, by simp [acceptIdle, isBusy_idle h]⟩
  | running r => exact .inl ⟨r, rfl, by simp [acceptIdle, isBusy_running h]⟩

/-- All that an accepted ENCODE or DECODE can do. -/
theorem startOrReject_cases (op : CodecOp) (s : State) :
    (s.params.inCap < s.inLen.toNat ∧ startOrReject op s = rejectCommand .lengthError s) ∨
      (s.inLen.toNat ≤ s.params.inCap ∧ startOrReject op s = startOp op s) := by
  unfold startOrReject
  split_ifs with h
  · exact .inl ⟨h, rfl⟩
  · exact .inr ⟨by omega, rfl⟩

/-- All that completing can do. -/
theorem complete_cases (r : Run) (s : State) :
    (s.params.outCap < r.wr ∧ complete r s = raiseError .outputOverflow r s) ∨
      (r.wr ≤ s.params.outCap ∧ complete r s = completeOk r s) := by
  unfold complete
  split_ifs with h
  · exact .inl ⟨h, rfl⟩
  · exact .inr ⟨by omega, rfl⟩

/-- All that a decoder block can do: stop where no block step is enabled, raise MALFORMED_PAYLOAD, or advance. -/
theorem decodeBlock_cases (size : Nat) (bytes : Run → List Byte) (s : State) :
    ((∀ r, s.fsm = .running r → ¬(r.op = .dec ∧ r.rd < r.n)) ∧
        decodeBlock size bytes s = .fault .blockStepNotEnabled) ∨
      ∃ r, s.fsm = .running r ∧ r.op = .dec ∧ r.rd < r.n ∧
        ((r.n < r.rd + size ∧ decodeBlock size bytes s = .next (raiseError .malformedPayload r s)) ∨
          (r.rd + size ≤ r.n ∧ decodeBlock size bytes s = .next (advance (bytes r) size r s))) := by
  unfold decodeBlock
  cases h : s.fsm with
  | idle => exact .inl ⟨fun r hr => by simp at hr, rfl⟩
  | running r =>
    by_cases he : r.op = .dec ∧ r.rd < r.n
    · refine .inr ⟨r, rfl, he.1, he.2, ?_⟩
      by_cases hs : r.rd + size > r.n
      · exact .inl ⟨hs, by simp [he, hs]⟩
      · exact .inr ⟨by omega, by simp [he, hs]⟩
    · exact .inl ⟨fun q hq => by simp at hq; exact hq ▸ he, by simp [he]⟩

/-- The decoded block of a control byte, as one decoder block. -/
theorem exec_decodeControl (c : Byte) (s : State) :
    exec (decodeControl c) s =
      decodeBlock (decodeControl c).streamBytes
        (fun r => if controlIsRun c then List.replicate (controlLen c) (snapByte r s (r.rd + 1))
          else snapSlice r s (r.rd + 1) (controlLen c)) s := by
  unfold decodeControl
  cases h : controlIsRun c <;> simp [exec, execLit, execRun, Instr.streamBytes]

theorem streamBytes_decodeControl (c : Byte) :
    2 ≤ (decodeControl c).streamBytes ∧ (decodeControl c).streamBytes ≤ 129 := by
  have h₁ := controlLen_pos c
  have h₂ := controlLen_le c
  unfold decodeControl
  cases controlIsRun c
  · simp only [Bool.false_eq_true, if_false, Instr.streamBytes]
    omega
  · simp [Instr.streamBytes]

/-- How many bytes a decoded block outputs: its length operand (30_encoding.md R73). -/
theorem decodeControl_output_length (c : Byte) (r : Run) (s : State) :
    (if controlIsRun c then List.replicate (controlLen c) (snapByte r s (r.rd + 1))
      else snapSlice r s (r.rd + 1) (controlLen c)).length = controlLen c := by
  cases controlIsRun c <;> simp

/-! ### The block step -/

/-- The bytes and the consumed count of the encoder's step at `RD` (41_encoder.md R125, R126). -/
def encodeEmission (r : Run) (s : State) : List Byte × Nat :=
  if 2 ≤ runLen (snapByte r s) r.n r.rd then
    ([runControl (runLen (snapByte r s) r.n r.rd), snapByte r s r.rd], runLen (snapByte r s) r.n r.rd)
  else
    (literalControl (litLen (snapByte r s) r.n r.rd) :: snapSlice r s r.rd (litLen (snapByte r s) r.n r.rd),
      litLen (snapByte r s) r.n r.rd)

/-- An encoder step consumes at least one byte, stays within the input, and emits at most twice what it consumes. -/
theorem encodeEmission_bounds {r : Run} (s : State) (h : r.rd < r.n) :
    1 ≤ (encodeEmission r s).2 ∧ r.rd + (encodeEmission r s).2 ≤ r.n ∧
      (encodeEmission r s).1.length ≤ 2 * (encodeEmission r s).2 := by
  have hL := litLen_bounds (S := snapByte r s) h
  have hr := runLen_bounds (S := snapByte r s) h
  unfold encodeEmission
  split_ifs with h₂
  · exact ⟨hr.1, hr.2.2, by simp; omega⟩
  · exact ⟨hL.1, hL.2.2, by simp; omega⟩

theorem encodeStep_eq {r : Run} {s : State} (h : r.rd < r.n) :
    encodeStep r s = .next (advance (encodeEmission r s).1 (encodeEmission r s).2 r s) := by
  unfold encodeStep encodeEmission
  rw [if_pos h]
  split_ifs <;> rfl

/-- All that a block step can do. The five cases: no operation runs; it completes; the encoder emits a block; the
decoder executes a block or raises MALFORMED_PAYLOAD; or, in a state no run reaches (`RD` past `N`), it faults. -/
theorem blockStep_cases (s : State) :
    (s.fsm = .idle ∧ blockStep s = .next s) ∨
    (∃ r, s.fsm = .running r ∧ r.rd = r.n ∧ blockStep s = .next (complete r s)) ∨
    (∃ r, s.fsm = .running r ∧ r.op = .enc ∧ r.rd < r.n ∧
      blockStep s = .next (advance (encodeEmission r s).1 (encodeEmission r s).2 r s)) ∨
    (∃ r, s.fsm = .running r ∧ r.op = .dec ∧ r.rd < r.n ∧
      ((r.n < r.rd + (decodeControl (fetchControl r s)).streamBytes ∧
          blockStep s = .next (raiseError .malformedPayload r s)) ∨
        (r.rd + (decodeControl (fetchControl r s)).streamBytes ≤ r.n ∧
          blockStep s = .next (advance
            (if controlIsRun (fetchControl r s) then
              List.replicate (controlLen (fetchControl r s)) (snapByte r s (r.rd + 1))
            else snapSlice r s (r.rd + 1) (controlLen (fetchControl r s)))
            (decodeControl (fetchControl r s)).streamBytes r s)))) ∨
    (∃ r, s.fsm = .running r ∧ r.n < r.rd ∧ blockStep s = .fault .blockStepNotEnabled) := by
  cases hf : s.fsm with
  | idle => exact .inl ⟨rfl, by simp [blockStep, hf]⟩
  | running r =>
    by_cases hn : r.rd = r.n
    · exact .inr (.inl ⟨r, rfl, hn, by simp [blockStep, hf, hn]⟩)
    · by_cases hlt : r.rd < r.n
      · cases ho : r.op with
        | enc =>
          refine .inr (.inr (.inl ⟨r, rfl, ho, hlt, ?_⟩))
          rw [← encodeStep_eq hlt]
          simp [blockStep, hf, hn, ho]
        | dec =>
          refine .inr (.inr (.inr (.inl ⟨r, rfl, ho, hlt, ?_⟩)))
          have e : blockStep s = exec (decodeControl (fetchControl r s)) s := by simp [blockStep, hf, hn, ho, decodeStep]
          rw [e, exec_decodeControl]
          rcases decodeBlock_cases (decodeControl (fetchControl r s)).streamBytes
            (fun r' => if controlIsRun (fetchControl r s) then
              List.replicate (controlLen (fetchControl r s)) (snapByte r' s (r'.rd + 1))
              else snapSlice r' s (r'.rd + 1) (controlLen (fetchControl r s))) s with h | ⟨q, hq, -, -, h⟩
          · exact absurd ⟨ho, hlt⟩ (h.1 r hf)
          · obtain rfl : r = q := by rw [hf] at hq; exact Fsm.running.inj hq
            exact h
      · refine .inr (.inr (.inr (.inr ⟨r, rfl, by omega, ?_⟩)))
        cases ho : r.op with
        | enc => simp [blockStep, hf, hn, ho, encodeStep, hlt]
        | dec =>
          have e : blockStep s = exec (decodeControl (fetchControl r s)) s := by simp [blockStep, hf, hn, ho, decodeStep]
          rw [e, exec_decodeControl]
          simp [decodeBlock, hf, hlt]

/-! ### The machine's step -/

/-- Whose turn it is. -/
theorem step_cases (s : State) :
    (nextAgent s = .block ∧ step s = blockStep (popTurn s)) ∨ (nextAgent s = .host ∧ step s = hostStep (popTurn s)) := by
  unfold step
  cases nextAgent s
  · exact .inr ⟨rfl, rfl⟩
  · exact .inl ⟨rfl, rfl⟩

/-- What a command write can do: violate while busy; while idle acknowledge, start, or reject with one of two codes. -/
theorem writeCmd_cases (w : Word) (s : State) :
    (∃ r, s.fsm = .running r ∧ writeCmd w s = .next (violate s)) ∨
    (s.fsm = .idle ∧
      (writeCmd w s = .next (clearStatus s) ∨
        (∃ op, s.inLen.toNat ≤ s.params.inCap ∧ writeCmd w s = .next (startOp op s)) ∨
        (∃ e, e ≠ .ok ∧ writeCmd w s = .next (rejectCommand e s)))) := by
  have key : ∃ f : State → State, writeCmd w s = acceptIdle f s ∧
      (f s = clearStatus s ∨ (∃ op, f s = startOrReject op s) ∨ f s = rejectCommand .illegalCmd s) := by
    unfold writeCmd decodeCmd
    split_ifs
    · exact ⟨_, rfl, .inr (.inr rfl)⟩
    · exact ⟨_, rfl, .inl rfl⟩
    · exact ⟨_, rfl, .inr (.inl ⟨_, rfl⟩)⟩
    · exact ⟨_, rfl, .inr (.inl ⟨_, rfl⟩)⟩
    · exact ⟨_, rfl, .inr (.inr rfl)⟩
  obtain ⟨f, hw, hf⟩ := key
  rcases acceptIdle_cases f s with ⟨r, hr, h⟩ | ⟨hi, h⟩
  · exact .inl ⟨r, hr, hw.trans h⟩
  · refine .inr ⟨hi, ?_⟩
    rw [hw, h]
    rcases hf with hf | ⟨op, hf⟩ | hf
    · exact .inl (by rw [hf])
    · rcases startOrReject_cases op s with ⟨-, h'⟩ | ⟨hl, h'⟩
      · exact .inr (.inr ⟨.lengthError, by decide, by rw [hf, h']⟩)
      · exact .inr (.inl ⟨op, hl, by rw [hf, h']⟩)
    · exact .inr (.inr ⟨.illegalCmd, by decide, by rw [hf]⟩)

/-- A value the host reads shows an idle block only when it is STATUS and the block is idle. -/
theorem showsIdle_regRead {offset : Nat} {s : State} (h : (Response.word offset (regRead offset s)).showsIdle = true) :
    s.fsm = .idle ∧ offset = 0x10 := by
  simp only [Response.showsIdle, Bool.and_eq_true, decide_eq_true_eq] at h
  obtain ⟨rfl, h⟩ := h
  have h' : (!(statusWord s).getLsbD 0) = true := h
  rw [statusWord_bit_zero] at h'
  exact ⟨isBusy_eq_false.mp (by simpa using h'), rfl⟩

/-- All that a read can do: violate, or record a response, taking at most one draw. Only a STATUS read of an idle block
shows the host one. -/
theorem busRead_cases (region : Region) (offset width : Nat) (s : State) :
    busRead region offset width s = violate s ∨
      ∃ x d, busRead region offset width s = { s with responses := x :: s.responses, draws := s.draws + d } ∧
        (x.showsIdle = true → s.fsm = .idle ∧ x = .word 0x10 (statusWord s)) := by
  have cell : ∀ c : Option Byte, ∃ x d,
      respondCell c s = { s with responses := x :: s.responses, draws := s.draws + d } ∧ x.showsIdle = false := by
    intro c
    cases c with
    | none => exact ⟨.byte (nextDraw s), 1, rfl, rfl⟩
    | some b => exact ⟨.byte b, 0, rfl, rfl⟩
  unfold busRead
  split_ifs
  · refine .inr ?_
    cases region with
    | reg =>
      refine ⟨.word offset (regRead offset s), 0, rfl, fun h => ?_⟩
      obtain ⟨hf, rfl⟩ := showsIdle_regRead h
      exact ⟨hf, rfl⟩
    | inbuf =>
      obtain ⟨x, d, e, h⟩ := cell (Memory.read s.inBuf offset)
      exact ⟨x, d, e, by simp [h]⟩
    | outbuf =>
      obtain ⟨x, d, e, h⟩ := cell (outCell s offset)
      exact ⟨x, d, e, by simp [h]⟩
  · exact .inl rfl

/-- All that a write can do: violate, be ignored, be a command, set IN_LEN while idle, or store in IN while idle. -/
theorem busWrite_cases (region : Region) (offset width : Nat) (v : Word) (s : State) :
    busWrite region offset width v s = .next (violate s) ∨
    busWrite region offset width v s = .next s ∨
    (region = .reg ∧ offset = 0x08 ∧ width = 8 ∧ busWrite region offset width v s = writeCmd v s) ∨
    (s.fsm = .idle ∧ busWrite region offset width v s = .next { s with inLen := v }) ∨
    (s.fsm = .idle ∧ offset < s.params.inCap ∧
      busWrite region offset width v s = .next { s with inBuf := Memory.write s.inBuf offset (v.setWidth 8) }) := by
  unfold busWrite
  split_ifs with h
  · cases region with
    | reg =>
      simp only [legalWrite, regWrite]
      simp only [accessOk, decide_eq_true_eq] at h
      split_ifs with h₁ h₂
      · exact .inr (.inr (.inl ⟨trivial, h₁, h.1, rfl⟩))
      · exact .inl rfl
      · rename_i hb
        exact .inr (.inr (.inr (.inl ⟨isBusy_eq_false.mp (by simpa using hb), rfl⟩)))
      · exact .inr (.inl rfl)
    | inbuf =>
      simp only [legalWrite, inWrite]
      simp only [accessOk, decide_eq_true_eq] at h
      split_ifs with hb
      · exact .inl rfl
      · exact .inr (.inr (.inr (.inr ⟨isBusy_eq_false.mp (by simpa using hb), h.2, rfl⟩)))
    | outbuf => exact .inr (.inl rfl)
  · exact .inl rfl

/-- All that one host operation can do: be refused for its address, be a command, violate, change nothing but what was
read and what is pending, or (while idle) set IN_LEN or store one byte in IN. -/
theorem hostOp_cases (op : HostOp) (s : State) :
    ((∃ a width v, (op = .memRead a width ∨ op = .memWrite a width v) ∧ locate s.params a = none) ∧
        hostOp op s = .refused .outsideRegions) ∨
    (∃ w, (op = .write .reg 0x08 8 w ∨ ∃ a, op = .memWrite a 8 w ∧ locate s.params a = some (.reg, 0x08)) ∧
        hostOp op s = writeCmd w s) ∨
    hostOp op s = .next (violate s) ∨
    (∃ rs d ins, hostOp op s = .next { s with responses := rs, draws := s.draws + d, inputs := ins } ∧
        (rs = s.responses ∨ ∃ x, rs = x :: s.responses ∧
          (x.showsIdle = true → s.fsm = .idle ∧ x = .word 0x10 (statusWord s)))) ∨
    (s.fsm = .idle ∧ ∃ v, hostOp op s = .next { s with inLen := v }) ∨
    (s.fsm = .idle ∧ ∃ i v, i < s.params.inCap ∧
        hostOp op s = .next { s with inBuf := Memory.write s.inBuf i v }) := by
  have read : ∀ region offset width,
      (Host.Outcome.next (busRead region offset width s) : Host.Outcome State Fault Refusal) = .next (violate s) ∨
      ∃ rs d ins, (Host.Outcome.next (busRead region offset width s) : Host.Outcome State Fault Refusal) =
          .next { s with responses := rs, draws := s.draws + d, inputs := ins } ∧
        (rs = s.responses ∨ ∃ x, rs = x :: s.responses ∧
          (x.showsIdle = true → s.fsm = .idle ∧ x = .word 0x10 (statusWord s))) := by
    intro region offset width
    rcases busRead_cases region offset width s with h | ⟨x, d, h, hx⟩
    · exact .inl (by rw [h])
    · exact .inr ⟨x :: s.responses, d, s.inputs, by rw [h], .inr ⟨x, rfl, hx⟩⟩
  cases op with
  | read region offset width =>
    rcases read region offset width with h | h
    · exact .inr (.inr (.inl h))
    · exact .inr (.inr (.inr (.inl h)))
  | write region offset width v =>
    rcases busWrite_cases region offset width v s with h | h | ⟨rfl, rfl, rfl, h⟩ | ⟨hi, h⟩ | ⟨hi, hc, h⟩
    · exact .inr (.inr (.inl h))
    · exact .inr (.inr (.inr (.inl ⟨s.responses, 0, s.inputs, h, .inl rfl⟩)))
    · exact .inr (.inl ⟨v, .inl rfl, h⟩)
    · exact .inr (.inr (.inr (.inr (.inl ⟨hi, v, h⟩))))
    · exact .inr (.inr (.inr (.inr (.inr ⟨hi, offset, _, hc, h⟩))))
  | memRead addr width =>
    cases hl : locate s.params addr with
    | none => exact .inl ⟨⟨addr, width, 0, .inl rfl, hl⟩, by simp [hostOp, hl]⟩
    | some x =>
      obtain ⟨region, offset⟩ := x
      have e : hostOp (.memRead addr width) s = .next (busRead region offset width s) := by simp [hostOp, hl]
      rw [e]
      rcases read region offset width with h | h
      · exact .inr (.inr (.inl h))
      · exact .inr (.inr (.inr (.inl h)))
  | memWrite addr width v =>
    cases hl : locate s.params addr with
    | none => exact .inl ⟨⟨addr, width, v, .inr rfl, hl⟩, by simp [hostOp, hl]⟩
    | some x =>
      obtain ⟨region, offset⟩ := x
      have e : hostOp (.memWrite addr width v) s = busWrite region offset width v s := by simp [hostOp, hl]
      rw [e]
      rcases busWrite_cases region offset width v s with h | h | ⟨rfl, rfl, rfl, h⟩ | ⟨hi, h⟩ | ⟨hi, hc, h⟩
      · exact .inr (.inr (.inl h))
      · exact .inr (.inr (.inr (.inl ⟨s.responses, 0, s.inputs, h, .inl rfl⟩)))
      · exact .inr (.inl ⟨v, .inr ⟨addr, rfl, hl⟩, h⟩)
      · exact .inr (.inr (.inr (.inr (.inl ⟨hi, v, h⟩))))
      · exact .inr (.inr (.inr (.inr (.inr ⟨hi, offset, _, hc, h⟩))))
  | poll =>
    refine .inr (.inr (.inr (.inl ?_)))
    have h : (Response.word 0x10 (statusWord s)).showsIdle = true → s.fsm = .idle ∧
        Response.word 0x10 (statusWord s) = .word 0x10 (statusWord s) := fun h => ⟨(showsIdle_regRead h).1, rfl⟩
    unfold hostOp pollTurn
    split_ifs
    · exact ⟨.word 0x10 (statusWord s) :: s.responses, 0, .host .poll :: s.inputs, rfl, .inr ⟨_, rfl, h⟩⟩
    · exact ⟨.word 0x10 (statusWord s) :: s.responses, 0, s.inputs, rfl, .inr ⟨_, rfl, h⟩⟩
  | readout =>
    exact .inr (.inr (.inr (.inl
      ⟨.word 0x20 s.outLen :: s.responses, 0, readOutOps s.outLen.toNat ++ s.inputs, rfl,
        .inr ⟨_, rfl, fun h => by simp [Response.showsIdle] at h⟩⟩)))

end Sys2Proof.Machine
end

