-- ==== Sys2Proof/Laws/Command.lean ====
section
/-! SUPPORT. The host's sequence LOADIN, START, POLL always reaches its end, from any state that keeps its positions within its input. -/

namespace Sys2Proof.Machine

/-- The positions of a running operation lie within its input, and `N` is the latched IN_LEN (10_state.md R33). -/
def Positioned (s : State) : Prop := ∀ r, s.fsm = .running r → r.rd ≤ r.n ∧ r.n = s.inLen.toNat

/-- Block steps that the running operation can still take (40_commands.md R112). -/
def stepsLeft (s : State) : Nat :=
  match s.fsm with
  | .idle => 0
  | .running r => r.n - r.rd + 1

theorem stepsLeft_idle {s : State} (h : s.fsm = .idle) : stepsLeft s = 0 := by simp [stepsLeft, h]

theorem stepsLeft_running {s : State} {r : Run} (h : s.fsm = .running r) : stepsLeft s = r.n - r.rd + 1 := by
  simp [stepsLeft, h]

/-- A block step of a running operation completes and leaves one block step fewer, with the host's side as it was. -/
theorem blockStep_running {s : State} {r : Run} (hp : Positioned s) (hf : s.fsm = .running r) :
    ∃ t, blockStep s = .next t ∧ Positioned t ∧ stepsLeft t + 1 ≤ stepsLeft s ∧ t.inputs = s.inputs ∧
      t.turns = s.turns ∧ t.inLen = s.inLen := by
  obtain ⟨hrd, hn⟩ := hp r hf
  have ended : ∀ {t : State}, t.fsm = .idle → Positioned t ∧ stepsLeft t + 1 ≤ stepsLeft s := fun h =>
    ⟨fun q hq => by simp [h] at hq, by rw [stepsLeft_idle h, stepsLeft_running hf]; omega⟩
  have moved : ∀ bs k, 1 ≤ k → r.rd + k ≤ r.n →
      Positioned (advance bs k r s) ∧ stepsLeft (advance bs k r s) + 1 ≤ stepsLeft s := by
    intro bs k hk hk'
    refine ⟨fun q hq => ?_, ?_⟩
    · rw [advance_fsm] at hq
      cases hq
      exact ⟨hk', hn⟩
    · rw [stepsLeft_running (advance_fsm bs k r s), stepsLeft_running hf]
      show r.n - (r.rd + k) + 1 + 1 ≤ _
      omega
  rcases blockStep_cases s with ⟨h, -⟩ | ⟨q, hq, -, e⟩ | ⟨q, hq, -, hlt, e⟩ | ⟨q, hq, -, hlt, h⟩ | ⟨q, hq, hlt, -⟩
  · rw [hf] at h; cases h
  all_goals rw [hf] at hq; cases hq
  · rcases complete_cases r s with ⟨-, h⟩ | ⟨-, h⟩ <;> rw [h] at e <;>
      exact ⟨_, e, (ended (by rfl)).1, (ended (by rfl)).2, rfl, rfl, rfl⟩
  · have hb := encodeEmission_bounds s hlt
    exact ⟨_, e, (moved _ _ hb.1 hb.2.1).1, (moved _ _ hb.1 hb.2.1).2, rfl, rfl, rfl⟩
  · rcases h with ⟨-, e⟩ | ⟨hs, e⟩
    · exact ⟨_, e, (ended (by rfl)).1, (ended (by rfl)).2, rfl, rfl, rfl⟩
    · have hb := streamBytes_decodeControl (fetchControl r s)
      exact ⟨_, e, (moved _ _ (by omega) hs).1, (moved _ _ (by omega) hs).2, rfl, rfl, rfl⟩
  · omega

/-! ### The sequence's inputs -/

/-- A write of one byte of IN leaves the operation, IN_LEN and the outside world as they are. -/
theorem applyInput_wr8In (k : Nat) (b : Byte) (s : State) :
    ∃ t, applyInput (wr8In k b) s = .next t ∧ t.fsm = s.fsm ∧ t.inLen = s.inLen ∧ t.inputs = s.inputs ∧
      t.turns = s.turns := by
  simp only [wr8In, applyInput, hostOp, busWrite, legalWrite, inWrite]
  split_ifs <;> exact ⟨_, rfl, rfl, rfl, rfl, rfl⟩

/-- A write of IN_LEN is a violation while busy, and sets it while idle. -/
theorem applyInput_wrInLen (v : Word) (s : State) :
    (isBusy s = true ∧ applyInput (wr64 .IN_LEN v) s = .next (violate s)) ∨
      (isBusy s = false ∧ applyInput (wr64 .IN_LEN v) s = .next { s with inLen := v }) := by
  have e : applyInput (wr64 .IN_LEN v) s = .next (if isBusy s then violate s else { s with inLen := v }) := rfl
  cases hb : isBusy s
  · exact .inr ⟨rfl, by simp [e, hb]⟩
  · exact .inl ⟨rfl, by simp [e, hb]⟩

/-- A start is a violation while busy, and starts an operation or is rejected while idle. -/
theorem applyInput_start {i : Input} (h : i = startEncode ∨ i = startDecode) (s : State) :
    applyInput i s = .next (violate s) ∨
      (s.fsm = .idle ∧ (applyInput i s = .next (rejectCommand .lengthError s) ∨
        ∃ op, applyInput i s = .next (startOp op s))) := by
  obtain ⟨op, e⟩ : ∃ op, applyInput i s = acceptIdle (startOrReject op) s := by
    rcases h with rfl | rfl
    · exact ⟨.enc, rfl⟩
    · exact ⟨.dec, rfl⟩
  rw [e]
  rcases acceptIdle_cases (startOrReject op) s with ⟨r, -, h⟩ | ⟨hi, h⟩
  · exact .inl h
  · refine .inr ⟨hi, ?_⟩
    rw [h]
    rcases startOrReject_cases op s with ⟨-, h⟩ | ⟨-, h⟩
    · exact .inl (by rw [h])
    · exact .inr ⟨op, by rw [h]⟩

/-- An input of the sequence, with `v` the length it writes. -/
def CommandInput (v : Word) (i : Input) : Prop :=
  (∃ k b, i = wr8In k b) ∨ i = wr64 .IN_LEN v ∨ (i = startEncode ∨ i = startDecode) ∨ i = poll

/-- How many steps a pending input of the sequence can still call for, when no operation reads more than `m` bytes. -/
def inputCost (m : Nat) (i : Input) : Nat := if i = startEncode ∨ i = startDecode then m + 2 else 1

/-- How many steps the sequence can still call for. -/
def commandLeft (m : Nat) (s : State) : Nat :=
  s.turns.length + (s.inputs.map (inputCost m)).sum + stepsLeft s

/-- Part of the sequence is pending, and an operation it starts reads at most `m` bytes: IN_LEN is at most `m`, or the
block is idle and `v`, which is, is written before anything but bytes of IN. -/
structure CommandPending (m : Nat) (v : Word) (s : State) : Prop where
  positioned : Positioned s
  length : v.toNat ≤ m
  inputs : ∀ i ∈ s.inputs, CommandInput v i
  bounded : s.inLen.toNat ≤ m ∨
    (s.fsm = .idle ∧ ∃ pre post, s.inputs = pre ++ wr64 .IN_LEN v :: post ∧ ∀ i ∈ pre, ∃ k b, i = wr8In k b)

/-- When the sequence can call for no more steps it has ended. -/
theorem finalState_of_commandLeft {m : Nat} {s : State} (h : commandLeft m s = 0) : FinalState s := by
  simp only [commandLeft, Nat.add_eq_zero_iff] at h
  refine ⟨?_, ?_⟩
  · cases hi : s.inputs with
    | nil => rfl
    | cons i rest =>
      have h1 : 1 ≤ inputCost m i := by unfold inputCost; split <;> omega
      simp [hi] at h
      omega
  · cases hf : s.fsm with
    | idle => rfl
    | running r => simp [stepsLeft_running hf] at h

/-- A step leaves the sequence one step fewer, or none when it had none. -/
theorem step_commandPending {m : Nat} {v : Word} {s : State} (h : CommandPending m v s) :
    ∃ t, step s = .next t ∧ CommandPending m v t ∧
      commandLeft m t ≤ commandLeft m s - 1 := by
  have turn : s.turns = [] ∨ s.turns.tail.length + 1 = s.turns.length := by
    cases s.turns <;> simp
  rcases step_cases s with ⟨ha, e⟩ | ⟨ha, e⟩
  · cases hf : s.fsm with
    | idle =>
      have ht : s.turns ≠ [] := fun h' => by simp [nextAgent, h', isBusy_idle hf] at ha
      have hl := turn.resolve_left ht
      refine ⟨popTurn s, by rw [e]; simp [blockStep, hf], ⟨h.positioned, h.length, h.inputs, h.bounded⟩, ?_⟩
      show s.turns.tail.length + _ + stepsLeft s ≤ s.turns.length + _ + stepsLeft s - 1
      simp only [popTurn_inputs]
      omega
    | running r =>
      obtain ⟨t, e', hp, hl, hi, ht, hn⟩ := blockStep_running (s := popTurn s) h.positioned (r := r) hf
      refine ⟨t, e.trans e', ⟨hp, h.length, by rw [hi]; exact h.inputs, .inl ?_⟩, ?_⟩
      · rw [hn]
        exact h.bounded.resolve_right fun h' => by simp [hf] at h'
      · have : stepsLeft (popTurn s) = stepsLeft s := rfl
        simp only [commandLeft, hi, ht, popTurn_inputs, popTurn_turns, List.length_tail]
        omega
  · cases hin : s.inputs with
    | nil =>
      refine ⟨popTurn s, by rw [e]; simp [hostStep, hin], ⟨h.positioned, h.length, h.inputs, h.bounded⟩, ?_⟩
      rcases turn with ht | hl
      · have hf : s.fsm = .idle := isBusy_eq_false.mp (by
          cases hb : isBusy s
          · rfl
          · simp [nextAgent, ht, hb] at ha)
        simp [commandLeft, hin, ht, stepsLeft_idle (s := popTurn s) hf]
      · show s.turns.tail.length + _ + stepsLeft s ≤ s.turns.length + _ + stepsLeft s - 1
        simp only [popTurn_inputs]
        omega
    | cons i rest =>
      have e' : step s = applyInput i { popTurn s with inputs := rest } := by
        rw [e]; simp [hostStep, hin]
      have hrest : ∀ j ∈ rest, CommandInput v j := fun j hj => h.inputs j (by simp [hin, hj])
      have cost : (s.inputs.map (inputCost m)).sum = inputCost m i + (rest.map (inputCost m)).sum := by simp [hin]
      -- an input that leaves the operation as it is
      have same : ∀ t : State, t.fsm = s.fsm → t.inputs = rest → t.turns = s.turns.tail →
          (t.fsm = .idle ∨ t.inLen = s.inLen) →
          (t.inLen.toNat ≤ m ∨ (t.fsm = .idle ∧ ∃ pre post, rest = pre ++ wr64 .IN_LEN v :: post ∧
            ∀ i ∈ pre, ∃ k b, i = wr8In k b)) →
          CommandPending m v t ∧ commandLeft m t ≤ commandLeft m s - 1 := by
        intro t hf hi ht hn hb
        refine ⟨⟨fun r hr => ?_, h.length, by rw [hi]; exact hrest, by rw [hi]; exact hb⟩, ?_⟩
        · rcases hn with hn | hn
          · rw [hn] at hr; cases hr
          · rw [hn]; exact h.positioned r (hf ▸ hr)
        · have h1 : 1 ≤ inputCost m i := by unfold inputCost; split <;> omega
          have h2 : stepsLeft t = stepsLeft s := by simp [stepsLeft, hf]
          have h3 : s.turns.tail.length ≤ s.turns.length := by simp
          simp only [commandLeft, hi, ht, cost]
          omega
      -- what is known of IN_LEN once the first input is none of the loading part
      have later : (¬∃ k b, i = wr8In k b) → i ≠ wr64 .IN_LEN v → s.inLen.toNat ≤ m := by
        intro h1 h2
        refine h.bounded.resolve_right ?_
        rintro ⟨-, pre, post, hpp, hpre⟩
        rw [hin] at hpp
        cases pre with
        | nil => exact h2 (List.cons.inj hpp).1
        | cons x pre => exact h1 ((List.cons.inj hpp).1 ▸ hpre x (by simp))
      rcases h.inputs i (by simp [hin]) with ⟨k, b, rfl⟩ | rfl | hs | rfl
      · obtain ⟨t, ht, a, b', c, d⟩ := applyInput_wr8In k b { popTurn s with inputs := rest }
        have := same t a c d (.inr b') (by
          rw [b', a]
          refine h.bounded.imp_right ?_
          rintro ⟨hf, pre, post, hpp, hpre⟩
          refine ⟨hf, ?_⟩
          rw [hin] at hpp
          cases pre with
          | nil => exact absurd (List.cons.inj hpp).1 (by simp [wr8In, wr64])
          | cons x pre => exact ⟨pre, post, (List.cons.inj hpp).2, fun j hj => hpre j (by simp [hj])⟩)
        exact ⟨t, e'.trans ht, this.1, this.2⟩
      · rcases applyInput_wrInLen v { popTurn s with inputs := rest } with ⟨hb, ht⟩ | ⟨hb, ht⟩
        · have hb' : isBusy s = true := hb
          have := same (violate { popTurn s with inputs := rest }) rfl rfl rfl (.inr rfl) (.inl (h.bounded.resolve_right fun h' => by
            simp [isBusy_idle h'.1] at hb'))
          exact ⟨_, e'.trans ht, this.1, this.2⟩
        · have := same { popTurn s with inputs := rest, inLen := v } rfl rfl rfl
            (.inl (isBusy_eq_false.mp hb)) (.inl h.length)
          exact ⟨_, e'.trans ht, this.1, this.2⟩
      · have hm : s.inLen.toNat ≤ m := later
          (by rcases hs with rfl | rfl <;> rintro ⟨k, b, h⟩ <;> simp [startEncode, startDecode, wr64, wr8In] at h)
          (by rcases hs with rfl | rfl <;> simp [startEncode, startDecode, wr64, RegName.offset])
        rcases applyInput_start hs { popTurn s with inputs := rest } with ht | ⟨hf, ht | ⟨op, ht⟩⟩
        · have := same (violate { popTurn s with inputs := rest }) rfl rfl rfl (.inr rfl) (.inl hm)
          exact ⟨_, e'.trans ht, this.1, this.2⟩
        · have := same (rejectCommand .lengthError { popTurn s with inputs := rest }) rfl rfl rfl (.inr rfl) (.inl hm)
          exact ⟨_, e'.trans ht, this.1, this.2⟩
        · refine ⟨_, e'.trans ht, ⟨fun r hr => ?_, h.length, hrest, .inl hm⟩, ?_⟩
          · cases hr
            exact ⟨Nat.zero_le _, rfl⟩
          · have h1 : inputCost m i = m + 2 := if_pos hs
            have h2 : stepsLeft s = 0 := stepsLeft_idle hf
            have h4 : s.turns.tail.length ≤ s.turns.length := by simp
            show s.turns.tail.length + (rest.map (inputCost m)).sum + (s.inLen.toNat + 1) ≤ _
            simp only [commandLeft, h2, cost, h1]
            omega
      · have hm : s.inLen.toNat ≤ m := later
          (by rintro ⟨k, b, h⟩; simp [poll, wr8In] at h) (by simp [poll, wr64])
        have ht : step s = .next (pollTurn { popTurn s with inputs := rest }) := e'
        cases hb : isBusy s
        · have hp : pollTurn { popTurn s with inputs := rest } =
              busRead .reg 0x10 8 { popTurn s with inputs := rest } := by
            unfold pollTurn
            rw [statusWord_bit_zero, if_neg (by show ¬isBusy s = true; simp [hb])]
          rw [hp] at ht
          have := same (busRead .reg 0x10 8 { popTurn s with inputs := rest }) rfl rfl rfl (.inr rfl) (.inl hm)
          exact ⟨_, ht, this.1, this.2⟩
        · have hl := turn.resolve_left fun h' => by simp [nextAgent, h', hb] at ha
          have hp : pollTurn { popTurn s with inputs := rest } =
              { respond (.word 0x10 (statusWord s)) (popTurn s) with inputs := poll :: rest } := by
            unfold pollTurn
            rw [statusWord_bit_zero, if_pos (by show isBusy s = true; exact hb)]
            rfl
          rw [hp] at ht
          refine ⟨_, ht, ⟨h.positioned, h.length, by simpa [hin] using h.inputs, .inl hm⟩, ?_⟩
          show s.turns.tail.length + ((poll :: rest).map (inputCost m)).sum + stepsLeft s ≤ _
          simp only [commandLeft, hin]
          omega

/-- Enough steps bring the sequence to its end. -/
theorem runSteps_commandPending {m : Nat} {v : Word} : ∀ (k : Nat) (s : State), CommandPending m v s →
    commandLeft m s ≤ k → ∃ t, runSteps k s = .next t ∧ FinalState t := by
  intro k
  induction k with
  | zero => exact fun s _ hk => ⟨s, rfl, finalState_of_commandLeft (Nat.le_zero.mp hk)⟩
  | succ k ih =>
    intro s h hk
    obtain ⟨t, e, ht, hl⟩ := step_commandPending h
    obtain ⟨u, hu⟩ := ih t ht (by omega)
    exact ⟨u, by simpa [runSteps, e] using hu.1, hu.2⟩

/-! ### The whole sequence -/

/-- A write of IN, wherever it goes, costs one step. -/
theorem wr8Seq_cost (m start : Nat) (b : List Byte) : ((wr8Seq start b).map (inputCost m)).sum = b.length := by
  induction b generalizing start with
  | nil => rfl
  | cons x xs ih =>
    have h : inputCost m (wr8In start x) = 1 := if_neg (by simp [wr8In, startEncode, startDecode, wr64])
    simp [wr8Seq, ih, h]
    omega

theorem mem_wr8Seq {start : Nat} {b : List Byte} {i : Input} (h : i ∈ wr8Seq start b) : ∃ k x, i = wr8In k x := by
  induction b generalizing start with
  | nil => cases h
  | cons x xs ih =>
    rcases List.mem_cons.mp h with rfl | h
    · exact ⟨_, _, rfl⟩
    · exact ih h

/-- `LOADIN b; START; POLL` ends with nothing pending and an idle block, begun while an operation runs or not, under every
schedule (70_reset_and_hazards.md R248). -/
theorem runCommand_ends {start : Input} (hs : start = startEncode ∨ start = startDecode) (b : List Byte) {s : State}
    (hp : Positioned s) : ∃ t, runCommand start b s = .next t ∧ FinalState t := by
  have hmem : ∀ i ∈ loadin b ++ [start, poll], CommandInput (BitVec.ofNat 64 b.length) i := by
    intro i hi
    simp only [loadin, List.mem_append, List.mem_cons, List.not_mem_nil, or_false] at hi
    rcases hi with (hi | rfl) | rfl | rfl
    · exact .inl (mem_wr8Seq hi)
    · exact .inr (.inl rfl)
    · exact .inr (.inr (.inl hs))
    · exact .inr (.inr (.inr rfl))
  have hv : (BitVec.ofNat 64 b.length).toNat ≤ b.length := by simpa using Nat.mod_le _ _
  have hc : ∀ m, ((loadin b ++ [start, poll]).map (inputCost m)).sum = b.length + m + 4 := by
    intro m
    have h1 : inputCost m start = m + 2 := if_pos hs
    have h2 : inputCost m poll = 1 := if_neg (by simp [poll, startEncode, startDecode, wr64])
    have h3 : inputCost m (wr64 .IN_LEN (BitVec.ofNat 64 b.length)) = 1 :=
      if_neg (by simp [startEncode, startDecode, wr64, RegName.offset])
    simp [loadin, wr8Seq_cost, h1, h2, h3]
    omega
  cases hf : s.fsm with
  | idle =>
    refine runSteps_commandPending (m := b.length) _ _ ⟨hp, hv, hmem, .inr ⟨hf, wr8Seq 0 b, [start, poll], ?_, fun i hi =>
      mem_wr8Seq hi⟩⟩ ?_
    · simp [loadin]
    · show s.turns.length + ((loadin b ++ [start, poll]).map (inputCost b.length)).sum + stepsLeft s ≤ _
      simp only [hc, stepsLeft_idle hf, commandFuel, earlierSteps, hf]
      omega
  | running r =>
    obtain ⟨hrd, hn⟩ := hp r hf
    refine runSteps_commandPending (m := b.length + r.n) _ _ ⟨hp, by omega, hmem, .inl ?_⟩ ?_
    · show s.inLen.toNat ≤ _
      omega
    · show s.turns.length + ((loadin b ++ [start, poll]).map (inputCost (b.length + r.n))).sum + stepsLeft s ≤ _
      simp only [hc, stepsLeft_running hf, commandFuel, earlierSteps, hf]
      omega

end Sys2Proof.Machine
end

