-- ==== Sys2Proof/Laws/PerInstr.lean ====
section
/-! SUPPORT. One statement about every instruction as syntax: its code lies in its row of spec/opcode_table.json, and the table's own numbering reads it back. -/

namespace Sys2Proof.Laws.TableRow

open Sys2Proof.Machine

/-- The bits of a code as a number. -/
def codeBits : Code → Nat
  | .control c => c.toNat
  | .cmd w => w.toNat

/-- A row of spec/opcode_table.json (30_encoding.md R85): its width in bits, its mask and its match. -/
structure Row where
  bits : Nat
  mask : Nat
  value : Nat
  deriving DecidableEq, Repr

/-- The row of each instruction. -/
def row : Instr → Row
  | .lit _ => { bits := 8, mask := 0x80, value := 0x00 }
  | .run _ => { bits := 8, mask := 0x80, value := 0x80 }
  | .nop => { bits := 64, mask := 0xFFFFFFFFFFFFFFFF, value := 0x0 }
  | .encode => { bits := 64, mask := 0xFFFFFFFFFFFFFFFF, value := 0x1 }
  | .decode => { bits := 64, mask := 0xFFFFFFFFFFFFFFFF, value := 0x2 }

/-- The code of a well-formed instruction carries its row's fixed bits and is read back as the instruction. -/
def Statement (i : Instr) : Prop :=
  i.wellFormed = true →
    codeBits (encode i) &&& (row i).mask = (row i).value ∧ decodeTableWord (row i).bits (codeBits (encode i)) = some i

/-- A control byte is in the row of its kind, and the table's numbering reads it as the decoder does. -/
theorem control_row (c : Byte) :
    c.toNat &&& 0x80 = (if controlIsRun c then 0x80 else 0x00) ∧ decodeTableWord 8 c.toNat = some (decodeControl c) := by
  refine ⟨?_, by simp [decodeTableWord, decodeStream]⟩
  revert c
  decide

theorem lit (len : Nat) : Statement (.lit len) := by
  intro h
  obtain ⟨h₁, h₂⟩ : 1 ≤ len ∧ len ≤ 128 := by simpa [Instr.wellFormed, blockLenOk] using h
  have hr := control_row (literalControl len)
  simp only [decodeControl, controlIsRun_literalControl h₁ h₂, controlLen_literalControl h₁ h₂, Bool.false_eq_true,
    if_false] at hr
  exact hr

theorem run (len : Nat) : Statement (.run len) := by
  intro h
  obtain ⟨h₁, h₂⟩ : 1 ≤ len ∧ len ≤ 128 := by simpa [Instr.wellFormed, blockLenOk] using h
  have hr := control_row (runControl len)
  simp only [decodeControl, controlIsRun_runControl, controlLen_runControl h₁ h₂, if_true] at hr
  exact hr

theorem nop : Statement .nop := fun _ => ⟨by decide, by decide⟩

theorem encode : Statement .encode := fun _ => ⟨by decide, by decide⟩

theorem decode : Statement .decode := fun _ => ⟨by decide, by decide⟩

end Sys2Proof.Laws.TableRow
end

