-- ==== Sys2Proof/Tests/Slice0.lean ====
section
/-! SUPPORT. Small tests with expected values from spec/95_test_vectors.md and the rules' own examples, and a witness for the hypotheses of every statement. -/

namespace Sys2Proof.Tests

open Sys2Proof Sys2Proof.Machine

/-! ### Small states -/

/-- A small instance: eight cells of IN, four of OUT. -/
def small : Params := { inCap := 8, outCap := 4, regBase := 0x0, inBase := 0x100, outBase := 0x200 }

/-- An idle block whose input `bs` is loaded. -/
def ready (bs : List Byte) : State :=
  { State.resetWith small with inBuf := storeBytes 0 bs [], inLen := BitVec.ofNat 64 bs.length }

/-- The positions of an operation on `n` bytes. -/
def positions (op : CodecOp) (n rd wr : Nat) : Run := { op := op, n := n, rd := rd, wr := wr, snap := 0 }

/-- A block running `op` on `bs` at the given positions. -/
def busy (op : CodecOp) (bs : List Byte) (rd wr : Nat) : State :=
  { ready bs with fsm := .running (positions op bs.length rd wr), draws := bs.length, startedAt := some 0 }

/-- An idle block whose operation has ended with two bytes of output, with or without the host having seen it. -/
def ended (seen : Bool) : State :=
  { ready [0x82, 0x41] with
    done := true, outLen := 2, outBuf := [(0, 0x41#8), (1, 0x41#8)], startedAt := some 0,
    responses := if seen then [.word 0x10 0x2] else [] }

/-- An idle block that reports an error. -/
def failed : State := { ready [] with done := true, err := .malformedPayload }

/-- The next state, where there is one. -/
def next? (o : Host.Outcome State Fault Refusal) : Option State :=
  match o with
  | .next t => some t
  | .fault _ => none
  | .refused _ => none

/-- What `OUT[0 .. n)` holds in the next state. -/
def outOf (o : Host.Outcome State Fault Refusal) (n : Nat) : Option (List (Option Byte)) :=
  (next? o).map fun t => (List.range n).map (Memory.read t.outBuf)

/-- STATUS and OUT_LEN in the next state. -/
def resultOf (o : Host.Outcome State Fault Refusal) : Option (Word × Word) :=
  (next? o).map fun t => (statusWord t, t.outLen)

/-! ### Well-formedness refuses ill-formed terms -/

theorem smoke_lit_zero : (Instr.lit 0).wellFormed = false := by decide
theorem smoke_lit_long : (Instr.lit 129).wellFormed = false := by decide
theorem smoke_run_zero : (Instr.run 0).wellFormed = false := by decide
theorem smoke_run_long : (Instr.run 129).wellFormed = false := by decide
theorem smoke_run_one_not_canonical : (Instr.run 1).canonical = false := by decide
theorem smoke_lit_zero_not_canonical : (Instr.lit 0).canonical = false := by decide
theorem smoke_command_not_canonical :
    Instr.nop.canonical = false ∧ Instr.encode.canonical = false ∧ Instr.decode.canonical = false := by decide
theorem smoke_no_capacity :
    Params.wellFormed { small with inCap := 0 } = false ∧ Params.wellFormed { small with outCap := 0 } = false := by decide
theorem smoke_large_capacity :
    Params.wellFormed { small with inCap := 2 ^ 56 + 1, outBase := 2 ^ 60 } = false ∧
      Params.wellFormed { small with outCap := 2 ^ 56 + 1 } = false := by decide
theorem smoke_regions_overlap :
    Params.wellFormed { small with inBase := 63 } = false ∧ Params.wellFormed { small with outBase := 63 } = false ∧
      Params.wellFormed { small with outBase := 0x107 } = false := by decide
theorem smoke_good_params : small.wellFormed = true ∧ Config.defaultParams.wellFormed = true := by decide
theorem smoke_stream_lines :
    StreamLine.wellFormed (.lit []) = false ∧ StreamLine.wellFormed (.run 0 0) = false ∧
      StreamLine.wellFormed (.run 129 0) = false ∧ StreamLine.wellFormed (.fill 0 0) = false := by decide

/-! ### Decoding words written out from the encodings (30_encoding.md R71 to R81) -/

/-- R74: `K = 0`, `N7 = 0000010`. -/
theorem test_decode_lit : decode (.control 0b00000010) = .ok (.lit 3) := by decide
/-- R75: `K = 1`, `N7 = 0001111` (T1's run of 16). -/
theorem test_decode_run : decode (.control 0b10001111) = .ok (.run 16) := by decide
/-- R80: `RES = 0`, `OP = 0, 1, 2`. -/
theorem test_decode_nop : decode (.cmd 0x0000000000000000) = .ok .nop := by decide
theorem test_decode_encode : decode (.cmd 0x0000000000000001) = .ok .encode := by decide
theorem test_decode_decode : decode (.cmd 0x0000000000000002) = .ok .decode := by decide
/-- R80, R81: `OP = 3`, and a valid `OP` with `RES` nonzero (40_commands.md R104's `0x5`). -/
theorem test_decode_reserved :
    decode (.cmd 0x3) = .error (.illegalCmd 0x3) ∧ decode (.cmd 0x5) = .error (.illegalCmd 0x5) := by decide
/-- R70: an empty stream has no control byte. -/
theorem test_decode_empty : decodeStream [] = .error .endOfStream := by decide
/-- The opcode table's numbering. -/
theorem test_table_words :
    decodeTableWord 8 0x02 = some (.lit 3) ∧ decodeTableWord 8 0x82 = some (.run 3) ∧
      decodeTableWord 64 0x2 = some .decode ∧ decodeTableWord 64 0x3 = none := by decide

/-! ### One step of each instruction -/

/-- 42_decoder.md R152's example: `02 41 42 43` gives `41 42 43`. -/
theorem test_lit_copies :
    outOf (exec (.lit 3) (busy .dec [0x02, 0x41, 0x42, 0x43] 0 0)) 4 = some [some 0x41, some 0x42, some 0x43, none] := by
  decide

/-- D12: `01 48` is a literal short by one byte. -/
theorem test_lit_truncated : resultOf (exec (.lit 2) (busy .dec [0x01, 0x48] 0 0)) = some (0x12, 0) := by decide

/-- 42_decoder.md R153's example: `82 21` gives `21 21 21`. -/
theorem test_run_replays :
    outOf (exec (.run 3) (busy .dec [0x82, 0x21] 0 0)) 4 = some [some 0x21, some 0x21, some 0x21, none] := by decide

/-- D9: `80` has no fill byte. -/
theorem test_run_truncated : resultOf (exec (.run 1) (busy .dec [0x80] 0 0)) = some (0x12, 0) := by decide

/-- K4: STATUS `0x12`, then NOP, gives 0. -/
theorem test_nop_acknowledges : statusWord failed = 0x12 ∧ resultOf (exec .nop failed) = some (0, 0) := by decide

/-- 40_commands.md R102's example: the step on `07 07 07` emits `82 07`. -/
theorem test_encode_run_step :
    outOf (blockStep (busy .enc [0x07, 0x07, 0x07] 0 0)) 4 = some [some 0x82, some 0x07, none, none] := by decide

/-- 40_commands.md R105: IN_LEN one above IN_CAP gives STATUS `0x42`. -/
theorem test_encode_length_error : resultOf (exec .encode { ready [] with inLen := 9 }) = some (0x42, 0) := by decide

/-- 40_commands.md R106: an accepted DECODE reads STATUS `0x1`. -/
theorem test_decode_starts : resultOf (exec .decode (ready [0x00, 0x41])) = some (0x1, 0) := by decide

/-- K7: the block step on an empty input completes with STATUS `0x2`, OUT_LEN 0. -/
theorem test_decode_empty_completes : resultOf (blockStep (busy .dec [] 0 0)) = some (0x2, 0) := by decide

/-- E17: `41 42 43 43` encodes as `01 41 42 81 43`. -/
theorem test_enc_literal_stops_before_run : enc [0x41, 0x42, 0x43, 0x43] = [0x01, 0x41, 0x42, 0x81, 0x43] := by decide

/-- D7: `01 48 69 82 21` decodes to `48 69 21 21 21`. -/
theorem test_dec_literal_then_run : dec [0x01, 0x48, 0x69, 0x82, 0x21] = .ok [0x48, 0x69, 0x21, 0x21, 0x21] := by decide

/-- T5: the container of `41 42`. -/
theorem test_pack_incompressible :
    packSoftware [0x41, 0x42] =
      [0x52, 0x4C, 0x45, 0x43, 0x01, 0x00, 2, 0, 0, 0, 0, 0, 0, 0, 2, 0, 0, 0, 0, 0, 0, 0, 0x41, 0x42] := by decide

/-- 70_reset_and_hazards.md R244 duty 3: only a STATUS read, and only of an idle block, shows the host that OUT may be
read. -/
theorem test_status_read_settles_out :
    (busRead .reg 0x10 8 (ended false)).outSettled = true ∧ (busRead .reg 0x20 8 (ended false)).outSettled = false ∧
      (busRead .reg 0x10 8 (busy .dec [0x00] 0 0)).outSettled = false := by decide

/-- 20_memory.md R57, R60: OUT reads as its cell while idle whether or not STATUS was read, and never while busy. -/
theorem test_out_read_needs_no_status_read :
    outCell (ended false) 0 = some 0x41 ∧ outCell (ended true) 0 = some 0x41 ∧
      outCell { busy .dec [0x00] 0 0 with outBuf := [(0, 0x41#8)] } 0 = none := by decide

/-- As K10 on a smaller OUT: an overflow frees all of it. D13: `01 48 69 82` is truncated with `WR = 2`. -/
theorem test_error_frees_the_reached_cells :
    (raiseError .outputOverflow (positions .dec 2 2 5) (busy .dec [0x84, 0x41] 2 5)).freed = 4 ∧
      (decPrefix [0x01, 0x48, 0x69, 0x82]).length = 2 := by decide

/-- Log entry 17: pack begun while a DECODE runs. A block that moves eagerly ends it first and no access is a violation;
one that lets the host move first makes the accesses violations, and POLL waits for the DECODE. -/
theorem test_pack_while_busy :
    (next? (runCommand startEncode [0x41, 0x41] (busy .dec [0x00, 0x42] 0 0))).map
        (fun t => (statusWord t, t.outLen, t.violated)) = some (0x2, 2, false) ∧
      (next? (runCommand startEncode [0x41, 0x41]
          { busy .dec [0x00, 0x42] 0 0 with turns := [.host, .host, .host, .host] })).map
        (fun t => (statusWord t, t.outLen, t.violated)) = some (0x2, 1, true) := by decide

/-- A running operation meets `Positioned`, so the sequence ends. -/
theorem test_command_ends_while_busy : ∃ t, runCommand startDecode [0x80] (busy .enc [0x41] 0 0) = .next t ∧ FinalState t :=
  runCommand_ends (.inr rfl) _ (by rintro r h; cases h; decide)

/-! ### Witnesses: registers and buffers -/

theorem witness_registerWrite : isBusy (ready []) = false ∧ isBusy (busy .dec [0x00] 0 0) = true := by decide

theorem witness_bufferWrite :
    (7 < (ready []).params.inCap ∧ isBusy (ready []) = false) ∧
      (7 < (busy .dec [0x00] 0 0).params.inCap ∧ isBusy (busy .dec [0x00] 0 0) = true) ∧
      3 < (ready []).params.outCap := by decide

theorem witness_bufferRead :
    (0 < (ready [0x41]).params.inCap ∧ Memory.read (ready [0x41]).inBuf 0 = some 0x41) ∧
      (7 < (ready [0x41]).params.inCap ∧ Memory.read (ready [0x41]).inBuf 7 = none) ∧
      (3 < (busy .dec [0x00] 0 0).params.outCap ∧ isBusy (busy .dec [0x00] 0 0) = true) ∧
      (let s := { ready [] with outBuf := [(3, 0x41#8)] }
       3 < s.params.outCap ∧ isBusy s = false ∧ Memory.read s.outBuf 3 = some 0x41) ∧
      (3 < (ready []).params.outCap ∧ isBusy (ready []) = false ∧ Memory.read (ready []).outBuf 3 = none) := by decide

theorem witness_wrongAccessForm :
    ¬(8 = 8 ∧ 64 % 8 = 0 ∧ 64 < 64) ∧ ¬(4 = 8 ∧ 0 % 8 = 0 ∧ 0 < 64) ∧ ¬(8 = 8 ∧ 4 % 8 = 0 ∧ 4 < 64) ∧
      ¬(1 = 1 ∧ 8 < (ready []).params.inCap) ∧ ¬(2 = 1 ∧ 0 < (ready []).params.inCap) ∧
      ¬(1 = 1 ∧ 4 < (ready []).params.outCap) ∧ ¬(8 = 1 ∧ 0 < (ready []).params.outCap) := by decide

/-! ### Witnesses: commands -/

theorem witness_nop : failed.fsm = .idle := by decide

/-- IN_LEN equal to IN_CAP is the boundary. -/
theorem witness_start :
    ({ ready [] with inLen := 8 } : State).fsm = .idle ∧
      ({ ready [] with inLen := 8 } : State).inLen.toNat ≤ ({ ready [] with inLen := 8 } : State).params.inCap := by decide

theorem witness_overlong :
    ({ ready [] with inLen := 9 } : State).fsm = .idle ∧
      ({ ready [] with inLen := 9 } : State).params.inCap < ({ ready [] with inLen := 9 } : State).inLen.toNat := by decide

theorem witness_illegal : (ready []).fsm = .idle ∧ (0x3 : Word) ≠ 0x0 ∧ (0x3 : Word) ≠ 0x1 ∧ (0x3 : Word) ≠ 0x2 := by
  decide

theorem witness_busyCommand : isBusy (busy .enc [0x41] 0 0) = true := by decide

/-- WR equal to OUT_CAP, and one above it. -/
theorem witness_endOfInput :
    ((busy .dec [0x00] 1 4).fsm = .running (positions .dec 1 1 4) ∧ (positions .dec 1 1 4).rd = (positions .dec 1 1 4).n ∧
      (positions .dec 1 1 4).wr ≤ (busy .dec [0x00] 1 4).params.outCap) ∧
    ((busy .dec [0x00] 1 5).fsm = .running (positions .dec 1 1 5) ∧ (positions .dec 1 1 5).rd = (positions .dec 1 1 5).n ∧
      (busy .dec [0x00] 1 5).params.outCap < (positions .dec 1 1 5).wr) := by decide

/-- The last cell the error frees and the first it keeps, with WR above OUT_CAP and below it. -/
theorem witness_errorEntry :
    3 < min (positions .dec 1 1 5).wr (ready []).params.outCap ∧
      min (positions .dec 1 1 5).wr (ready []).params.outCap ≤ 4 ∧
      1 < min (positions .dec 1 1 2).wr (ready []).params.outCap ∧
      min (positions .dec 1 1 2).wr (ready []).params.outCap ≤ 2 := by decide

theorem witness_idleStatus :
    ∃ t, step { failed with inputs := [ack] } = .next t ∧ ({ failed with inputs := [ack] } : State).fsm = .idle ∧
      (t.done, t.err) ≠ (failed.done, failed.err) := ⟨_, rfl, by decide, by decide⟩

theorem witness_operationEnds :
    (∃ t, step (busy .dec [] 0 0) = .next t ∧ t.fsm = .idle) ∧
      (∃ t, step (busy .dec [0x80] 0 0) = .next t ∧ t.fsm = .idle) ∧
      (∃ t, step { busy .dec [0x80] 0 0 with inputs := [.reset], turns := [.host] } = .next t ∧ t.fsm = .idle) :=
  ⟨⟨_, rfl, rfl⟩, ⟨_, rfl, rfl⟩, ⟨_, rfl, rfl⟩⟩

/-! ### Witnesses: encodings and the step -/

theorem witness_controlByte :
    (0x7F : Byte).toNat ≤ 0x7F ∧ (0x80 : Byte).toNat = 0x80 ∧ 0x81 ≤ (0x81 : Byte).toNat := by decide

theorem witness_wellFormed :
    (Instr.lit 1).wellFormed = true ∧ (Instr.lit 128).wellFormed = true ∧ (Instr.run 1).wellFormed = true ∧
      (Instr.run 128).wellFormed = true ∧ Instr.nop.wellFormed = true := by decide

theorem witness_decodes :
    decode (.control 0xFF) = .ok (.run 128) ∧ decode (.control 0x00) = .ok (.lit 1) ∧ decode (.cmd 0x2) = .ok .decode := by
  decide

theorem witness_decodeStep :
    nextAgent (busy .dec [0x00, 0x41] 0 0) = .block ∧
      (busy .dec [0x00, 0x41] 0 0).fsm = .running (positions .dec 2 0 0) ∧ (positions .dec 2 0 0).op = .dec ∧
      (positions .dec 2 0 0).rd < (positions .dec 2 0 0).n := by decide

theorem witness_commandStep :
    nextAgent { ready [0x41] with inputs := [startEncode] } = .host ∧
      ({ ready [0x41] with inputs := [startEncode] } : State).inputs = .host (.write .reg 0x08 8 0x1) :: [] ∧
      decode (.cmd 0x1) = .ok .encode := by decide

/-! ### Witnesses: decoder blocks -/

/-- A literal that ends exactly at `N`, and one that is a byte short. -/
theorem witness_literalBlock :
    (busy .dec [0x00, 0x41] 0 3).fsm = .running (positions .dec 2 0 3) ∧ (positions .dec 2 0 3).op = .dec ∧
      (positions .dec 2 0 3).rd < 2 ∧ 0 + 1 + 1 ≤ (positions .dec 2 0 3).n ∧ (positions .dec 2 0 3).n < 0 + 1 + 2 := by decide

theorem witness_runBlock :
    ((busy .dec [0x81, 0x41] 0 3).fsm = .running (positions .dec 2 0 3) ∧ (positions .dec 2 0 3).op = .dec ∧
      0 + 2 ≤ (positions .dec 2 0 3).n) ∧
    ((busy .dec [0x81] 0 3).fsm = .running (positions .dec 1 0 3) ∧ (positions .dec 1 0 3).op = .dec ∧
      (positions .dec 1 0 3).rd < (positions .dec 1 0 3).n ∧ (positions .dec 1 0 3).n < 0 + 2) := by decide

theorem witness_truncated :
    ((busy .dec [0x00, 0x41, 0x80] 2 1).fsm = .running (positions .dec 3 2 1) ∧
      0x80 ≤ (snapByte (positions .dec 3 2 1) (busy .dec [0x00, 0x41, 0x80] 2 1) 2).toNat ∧ 2 + 1 = 3) ∧
    ((busy .dec [0x01, 0x48] 0 0).fsm = .running (positions .dec 2 0 0) ∧
      (snapByte (positions .dec 2 0 0) (busy .dec [0x01, 0x48] 0 0) 0).toNat < 0x80 ∧
      2 < 0 + 1 + ((snapByte (positions .dec 2 0 0) (busy .dec [0x01, 0x48] 0 0) 0).toNat + 1)) := by decide

/-- The last cell of OUT, and the first beyond it. -/
theorem witness_nonCanonicalRun :
    ∀ wr ∈ [3, 4], (busy .dec [0x80, 0x41] 0 wr).fsm = .running (positions .dec 2 0 wr) ∧
      (positions .dec 2 0 wr).rd + 2 ≤ (positions .dec 2 0 wr).n ∧
      snapByte (positions .dec 2 0 wr) (busy .dec [0x80, 0x41] 0 wr) 0 = 0x80 := by decide

/-! ### Witnesses: encoder -/

theorem witness_scan : (0 : Nat) < 2 ∧ (1 : Nat) < 2 := by decide

/-- `41 42 42`: no run at 0, a run at 1. -/
theorem witness_litLen :
    runLen (byteAt [0x41, 0x42, 0x42]) 3 0 = 1 ∧ runLen (byteAt [0x41, 0x42, 0x42]) 3 1 = 2 := by decide

/-- A run block whose second byte is beyond OUT, and one that fits. -/
theorem witness_encoderRun :
    ∀ wr ∈ [2, 3], (busy .enc [0x42, 0x42] 0 wr).fsm = .running (positions .enc 2 0 wr) ∧
      2 = runLen (snapByte (positions .enc 2 0 wr) (busy .enc [0x42, 0x42] 0 wr)) 2 0 := by decide

theorem witness_encoderLiteral :
    (busy .enc [0x41, 0x42, 0x42] 0 2).fsm = .running (positions .enc 3 0 2) ∧
      runLen (snapByte (positions .enc 3 0 2) (busy .enc [0x41, 0x42, 0x42] 0 2)) 3 0 = 1 ∧
      1 = litLen (snapByte (positions .enc 3 0 2) (busy .enc [0x41, 0x42, 0x42] 0 2)) 3 0 := by decide

/-! ### Witnesses: the codec as functions -/

theorem witness_encodingSize : ([0x41] : List Byte) ≠ [] ∧ 1 ≤ 1 ∧ (0x00 : Byte) ≠ 0x01 := by decide

/-- E19's blocks: literals of one byte and short runs, each followed by another block. -/
theorem witness_encodingBlocks :
    blocksOf (enc [0x00, 0x01, 0x01, 0x02, 0x03]) = some [.literal [0x00], .run 2 0x01, .literal [0x02, 0x03]] := by decide

/-- E8: two run blocks with one fill byte, the first of length 128. -/
theorem witness_encodingRunsMeet :
    blocksOf (enc (List.replicate 130 0x55)) = some [.run 128 0x55, .run 2 0x55] := by decide +kernel

theorem witness_decodedSize : dec [0x82, 0x21] = .ok [0x21, 0x21, 0x21] := by decide

theorem witness_fill : 1 ≤ 1 := by decide

/-! ### Witnesses: whole operations -/

/-- Inputs whose encoding fits OUT exactly and exceeds it by one byte. -/
theorem witness_encodeOperation :
    ∀ bs ∈ [[0x41, 0x42, 0x43], [0x41, 0x42, 0x43, 0x44]],
      (ready bs).params.wellFormed = true ∧ (ready bs).fsm = .idle ∧ (ready bs).inLen.toNat ≤ (ready bs).params.inCap ∧
        ((enc bs).length ≤ (ready bs).params.outCap ∨ (enc bs).length = (ready bs).params.outCap + 1) := by decide

/-- Inputs that are truncated, that decode to exactly OUT_CAP bytes, and to one more. -/
theorem witness_decodeOperation :
    ∀ bs ∈ [[0x80], [0x83, 0x41], [0x84, 0x41]],
      (ready bs).params.wellFormed = true ∧ (ready bs).fsm = .idle ∧ (ready bs).inLen.toNat ≤ (ready bs).params.inCap := by
  decide

theorem witness_decodeOperation_results :
    dec [0x80] = .malformedPayload ∧ dec [0x83, 0x41] = .ok (List.replicate 4 0x41) ∧
      dec [0x84, 0x41] = .ok (List.replicate 5 0x41) := by decide

theorem witness_progress :
    (busy .enc [0x41] 0 0).fsm = .running (positions .enc 1 0 0) ∧ (positions .enc 1 0 0).rd < (positions .enc 1 0 0).n := by
  decide

/-- Two clean starts with the same input that differ in OUT, in the draws taken, and in what lies beyond the input. -/
theorem witness_sameInput :
    let a := ready [0x07, 0x07]
    let b := { a with outBuf := [(0, 0x11#8)], draws := 5, inBuf := storeBytes 0 [0x07, 0x07, 0x09] [] }
    CleanStart a ∧ CleanStart b ∧ a.params.outCap = b.params.outCap ∧ a.inLen = b.inLen ∧
      ∀ i, i < a.inLen.toNat → Memory.read a.inBuf i = Memory.read b.inBuf i := by
  unfold CleanStart; decide

/-! ### Witnesses: the whole machine -/

/-- The invariant holds of a block in the middle of a DECODE. -/
theorem witness_inv_busy : StateInv { busy .dec [0x00, 0x41, 0x80] 2 1 with outBuf := [(0, 0x41#8)] } where
  params := by decide
  inWf := by decide
  inBelow := by decide
  outWf := by decide
  outBelow := by decide
  busyClear := by intro r h; cases h; decide
  undoneOk := by decide
  errLen := by decide
  lenBound := by decide
  lenWritten := by decide
  runCounts := by intro r h; cases h; decide
  runWritten := by intro r h; cases h; decide
  runDraws := by intro r h; cases h; decide
  runUnsettled := by intro r h; cases h; rfl
  freedBound := by decide
  freedWritten := by decide

/-- The invariant holds of an idle block after an error that left two cells `any`. -/
theorem witness_inv_failed : StateInv { failed with outBuf := [(0, 0x41#8), (1, 0x41#8)], freed := 2 } where
  params := by decide
  inWf := by decide
  inBelow := by decide
  outWf := by decide
  outBelow := by decide
  busyClear := by intro r h; cases h
  undoneOk := by decide
  errLen := by decide
  lenBound := by decide
  lenWritten := by decide
  runCounts := by intro r h; cases h
  runWritten := by intro r h; cases h
  runDraws := by intro r h; cases h
  runUnsettled := by intro r h; cases h
  freedBound := by decide
  freedWritten := by decide

/-- The invariant holds of an idle block with a result of two bytes and a READOUT pending. -/
theorem witness_inv_idle :
    StateInv { ended true with inputs := [readout] } where
  params := by decide
  inWf := by decide
  inBelow := by decide
  outWf := by decide
  outBelow := by decide
  busyClear := by intro r h; cases h
  undoneOk := by decide
  errLen := by decide
  lenBound := by decide
  lenWritten := by decide
  runCounts := by intro r h; cases h
  runWritten := by intro r h; cases h
  runDraws := by intro r h; cases h
  runUnsettled := by intro r h; cases h
  freedBound := by decide
  freedWritten := by decide

theorem witness_invStep : ∃ t, step { busy .dec [0x00, 0x41, 0x80] 2 1 with outBuf := [(0, 0x41#8)] } = .next t := ⟨_, rfl⟩

theorem witness_blockStep : ∃ t, blockStep (busy .enc [0x41] 0 0) = .next t := ⟨_, rfl⟩

theorem witness_violated :
    ∃ t, step { ready [] with violated := true, inputs := [.reset] } = .next t ∧
      ({ ready [] with violated := true, inputs := [.reset] } : State).violated = true := ⟨_, rfl, rfl⟩

theorem witness_refusals :
    step { ready [] with inputs := [.secondHost] } = .refused .secondHost ∧
      step { ready [] with inputs := [.host (.memRead 0x40 8)] } = .refused .outsideRegions := ⟨rfl, rfl⟩

/-- POLL while busy and while idle. -/
theorem witness_poll :
    (nextAgent { busy .enc [0x41] 0 0 with inputs := [poll], turns := [.host] } = .host ∧
      isBusy { busy .enc [0x41] 0 0 with inputs := [poll], turns := [.host] } = true) ∧
    (nextAgent { ready [] with inputs := [poll] } = .host ∧ isBusy { ready [] with inputs := [poll] } = false) := by decide

theorem witness_readout :
    ∀ seen ∈ [true, false],
      ({ ended seen with inputs := [readout] } : State).fsm = .idle ∧ (ended seen).turns = [] ∧
        ({ ended seen with inputs := [readout] } : State).inputs = [readout] := by decide

theorem witness_command :
    (ready []).params.wellFormed = true ∧ HostReady (ready []) ∧
      ∀ b ∈ [[0x41, 0x42, 0x43], [0x41, 0x42, 0x43, 0x44], [0x80], [0x83, 0x41], [0x84, 0x41]],
        b.length ≤ (ready []).params.inCap := by
  unfold HostReady; decide

/-- The two ways the host comes to know that OUT may be read. -/
theorem witness_settles :
    (∃ t, step { ended false with inputs := [rd64 .STATUS] } = .next t ∧ (ended false).outSettled = false ∧
      t.outSettled = true) ∧
    (∃ t, step { busy .dec [0x00] 0 0 with inputs := [.reset], turns := [.host] } = .next t ∧
      (busy .dec [0x00] 0 0).outSettled = false ∧ t.outSettled = true) :=
  ⟨⟨_, rfl, rfl, rfl⟩, ⟨_, rfl, rfl, rfl⟩⟩

/-- The invariant holds of an idle block whose end the host has seen. -/
theorem witness_settled :
    StateInv (ended true) ∧ (ended true).outSettled = true ∧ 1 < (ended true).params.outCap ∧
      Memory.read (ended true).outBuf 1 = some 0x41 :=
  ⟨{ witness_inv_idle with runUnsettled := by intro r h; cases h }, rfl, by decide, rfl⟩

/-- The last cell of OUT while an operation runs, after a STATUS read. -/
theorem witness_unsettled :
    isBusy (busy .dec [0x00] 0 0) = true ∧ 3 < (busy .dec [0x00] 0 0).params.outCap ∧
      ∀ op ∈ [HostOp.read .reg 0x10 8], ∃ region offset width, op = .read region offset width :=
  ⟨rfl, by decide, fun _ h => ⟨_, _, _, List.mem_singleton.mp h⟩⟩

theorem witness_resetParams : small.wellFormed = true ∧ ({ small with inCap := 2 ^ 56, outBase := 2 ^ 57 } : Params).wellFormed = true := by
  decide

/-! ### Witnesses: the container -/

theorem witness_layout : (2 ^ 64 - 1 : Nat) < 2 ^ 64 ∧ ([0x41] : List Byte).length < 2 ^ 64 := by decide

theorem witness_pack :
    (ready []).params.wellFormed = true ∧ HostReady (ready []) ∧
      (List.replicate 4 0x41).length ≤ (ready []).params.inCap ∧
      (List.replicate 4 0x41).length ≤ (ready []).params.outCap ∧ (List.replicate 4 0x41).length < 2 ^ 64 := by
  unfold HostReady; decide

/-- Each check of unpack fails on some container that passes the earlier ones. -/
theorem witness_unpackRejects :
    ([] : List Byte).length < 22 ∧
      (storedRaw [] |>.set 0 0x00).take 4 ≠ [0x52, 0x4C, 0x45, 0x43] ∧
      byteAt (storedRaw [] |>.set 4 0x02) 4 ≠ 0x01 ∧
      22 + payloadSize (storedRaw [] ++ [0x00]) ≠ (storedRaw [] ++ [0x00]).length := by decide

theorem witness_unpackModes :
    (∀ f ∈ [container 0x00 3 [0x41, 0x42], container 0x00 2 [0x41, 0x42], container 0x01 0 [0x81, 0x00],
        container 0x01 5 [0x84, 0x41], container 0x01 4 [0x83, 0x41]], headerCheck f = none) ∧
      originalSize (container 0x00 3 [0x41, 0x42]) ≠ payloadSize (container 0x00 3 [0x41, 0x42]) ∧
      originalSize (container 0x00 2 [0x41, 0x42]) = payloadSize (container 0x00 2 [0x41, 0x42]) ∧
      originalSize (container 0x01 0 [0x81, 0x00]) = 0 ∧
      (ready []).params.outCap < originalSize (container 0x01 5 [0x84, 0x41]) := by decide

/-- Payloads that are truncated, of another size than declared, and right. -/
theorem witness_unpackMaps :
    ∀ f ∈ [container 0x01 4 [0x83], container 0x01 3 [0x83, 0x41], container 0x01 4 [0x83, 0x41]],
      headerCheck f = none ∧ (byteAt f 5).getLsbD 0 = true ∧ originalSize f ≠ 0 ∧
        payloadSize f ≤ (ready []).params.inCap ∧ originalSize f ≤ (ready []).params.outCap := by decide

theorem witness_unpackMaps_results :
    dec [0x83] = .malformedPayload ∧ dec [0x83, 0x41] = .ok (List.replicate 4 0x41) := by decide

theorem witness_truncation : ∃ t f, pack [0x41, 0x41, 0x41, 0x41] (ready []) = .next (t, f) ∧ 1 ≤ f.length :=
  ⟨_, _, rfl, by decide⟩

end Sys2Proof.Tests
end

section
/-! SUPPORT. The statements of 10_state.md: what one turn can do to the state, said once; the invariant and the sticky
mark as short consequences; the fields of STATUS; reset. -/

namespace Sys2Proof.Machine

/-! ### Written cells -/

/-- A cell is written after emitting exactly when it was before, or one of the emitted bytes landed in it. -/
theorem emitAll_written_iff {cap : Nat} {bs : List Byte} {m : Memory} {w i : Nat} :
    (Memory.read (emitAll cap bs (m, w)).1 i).isSome = true ↔
      (w ≤ i ∧ i < w + bs.length ∧ i < cap) ∨ (Memory.read m i).isSome = true := by
  rw [emitAll_read]
  split_ifs with h
  · have hlt : i - w < bs.length := by omega
    simp [h, hlt]
  · simp [h]

/-- A cell is written after error entry exactly when it was before, or it is one of the first `k`. -/
theorem scramble_written_iff {base k i : Nat} {m : Memory} :
    (Memory.read (scramble base k m) i).isSome = true ↔ i < k ∨ (Memory.read m i).isSome = true := by
  rw [scramble_read]
  split_ifs with h <;> simp [h]

/-! ### What one turn can do -/

/-- The record `rs` of what the host has read is that of `s`, or has one value more; that value shows an idle block only
as the STATUS of one. -/
def ReadsAtMostOne (s : State) (rs : List Response) : Prop :=
  rs = s.responses ∨
    ∃ x, rs = x :: s.responses ∧ (x.showsIdle = true → s.fsm = .idle ∧ x = .word 0x10 (statusWord s))

/-- What one turn can do to a state whose turn and whose input are already taken off their lists. -/
inductive Effect (s : State) : State → Prop
  /-- A broken host duty is marked (10_state.md R34). -/
  | violate : Effect s (violate s)
  /-- Only the outside world's side moves: at most one value is returned, and what is pending may change. -/
  | record (rs : List Response) (d : Nat) (ins : List Input) (read : ReadsAtMostOne s rs) :
      Effect s { s with responses := rs, draws := s.draws + d, inputs := ins }
  /-- IN_LEN is set while idle (20_memory.md R55). -/
  | setInLen (idle : s.fsm = .idle) (v : Word) : Effect s { s with inLen := v }
  /-- A byte of IN is stored while idle (20_memory.md R56). -/
  | storeIn (idle : s.fsm = .idle) {i : Nat} (cell : i < s.params.inCap) (v : Byte) :
      Effect s { s with inBuf := Memory.write s.inBuf i v }
  /-- NOP acknowledges (40_commands.md R101). -/
  | acknowledge (idle : s.fsm = .idle) : Effect s (clearStatus s)
  /-- A command is rejected at acceptance (40_commands.md R104, R105). -/
  | reject (idle : s.fsm = .idle) {e : ErrCode} (error : e ≠ .ok) : Effect s (rejectCommand e s)
  /-- An operation starts (40_commands.md R106). -/
  | start (idle : s.fsm = .idle) (op : CodecOp) (fits : s.inLen.toNat ≤ s.params.inCap) : Effect s (startOp op s)
  /-- The platform resets the block (10_state.md R37). -/
  | reset : Effect s (resetBlock s)
  /-- A block of the stream is processed: at least one byte consumed, at most 64 emitted for each. -/
  | advance {r : Run} (running : s.fsm = .running r) (bytes : List Byte) {k : Nat} (progress : 1 ≤ k)
      (within : r.rd + k ≤ r.n) (ratio : bytes.length ≤ 64 * k) : Effect s (advance bytes k r s)
  /-- The operation completes within OUT_CAP (40_commands.md R108). -/
  | complete {r : Run} (running : s.fsm = .running r) (ended : r.rd = r.n) (fits : r.wr ≤ s.params.outCap) :
      Effect s (completeOk r s)
  /-- The operation ends in an error (60_exceptions.md R215). -/
  | raise {r : Run} (running : s.fsm = .running r) {e : ErrCode} (error : e ≠ .ok) : Effect s (raiseError e r s)

/-- A turn that passes with no effect. -/
theorem Effect.pass (s : State) : Effect s s := .record s.responses 0 s.inputs (.inl rfl)

theorem writeCmd_effect {w : Word} {s t : State} (h : writeCmd w s = .next t) : Effect s t := by
  rcases writeCmd_cases w s with ⟨_, -, e⟩ | ⟨hi, e | ⟨op, hl, e⟩ | ⟨c, hc, e⟩⟩ <;> cases e.symm.trans h
  · exact .violate
  · exact .acknowledge hi
  · exact .start hi op hl
  · exact .reject hi hc

theorem hostOp_effect {op : HostOp} {s t : State} (h : hostOp op s = .next t) : Effect s t := by
  rcases hostOp_cases op s with ⟨-, e⟩ | ⟨w, -, e⟩ | e | ⟨rs, d, ins, e, hr⟩ | ⟨hi, v, e⟩ | ⟨hi, i, v, hc, e⟩
  case inr.inl => exact writeCmd_effect (e.symm.trans h)
  all_goals cases e.symm.trans h
  · exact .violate
  · exact .record rs d ins hr
  · exact .setInLen hi v
  · exact .storeIn hi hc v

theorem applyInput_effect {i : Input} {s t : State} (h : applyInput i s = .next t) : Effect s t := by
  cases i with
  | host op => exact hostOp_effect h
  | reset => cases h; exact .reset
  | secondHost => cases h

theorem blockStep_effect {s t : State} (h : blockStep s = .next t) : Effect s t := by
  rcases blockStep_cases s with
    ⟨-, e⟩ | ⟨r, hf, hn, e⟩ | ⟨r, hf, -, hlt, e⟩ | ⟨r, hf, -, -, ⟨-, e⟩ | ⟨hs, e⟩⟩ | ⟨r, -, -, e⟩ <;>
    cases e.symm.trans h
  · exact .pass s
  · rcases complete_cases r s with ⟨-, e⟩ | ⟨hw, e⟩ <;> rw [e]
    · exact .raise hf (by decide)
    · exact .complete hf hn hw
  · obtain ⟨hk, hn, hl⟩ := encodeEmission_bounds s hlt
    exact .advance hf _ hk hn (by omega)
  · exact .raise hf (by decide)
  · have hb := streamBytes_decodeControl (fetchControl r s)
    have hl := controlLen_le (fetchControl r s)
    refine .advance hf _ (by omega) hs ?_
    rw [decodeControl_output_length]
    omega

/-- One step of the machine: a turn is taken off the schedule, at most one input off the queue, and one effect
follows. -/
theorem step_effect {s t : State} (h : step s = .next t) :
    ∃ ins, Effect { s with turns := s.turns.tail, inputs := ins } t := by
  rcases step_cases s with ⟨-, e⟩ | ⟨-, e⟩ <;> rw [e] at h
  · exact ⟨s.inputs, blockStep_effect h⟩
  · unfold hostStep at h
    split at h
    · cases h; exact ⟨s.inputs, .pass _⟩
    · exact ⟨_, applyInput_effect h⟩

/-! ### The invariant -/

/-- The parts of the state that the invariant does not constrain: the mark, the schedule and the pending inputs are
free, more draws may be taken, and what was read may grow so long as no running operation is shown ended. -/
theorem StateInv.hostSide {s : State} (h : StateInv s) (v : Bool) (d : Nat) (ins : List Input) (ts : List Agent)
    {rs : List Response} (unsettled : ∀ r, s.fsm = .running r → State.outSettled { s with responses := rs } = false) :
    StateInv { s with violated := v, draws := s.draws + d, inputs := ins, turns := ts, responses := rs } :=
  { h with
    runDraws := fun r hr => (h.runDraws r hr).trans (Nat.le_add_right _ _)
    runUnsettled := unsettled }

/-- What a read returns does not settle OUT while an operation runs (70_reset_and_hazards.md R244 duty 3). -/
theorem StateInv.unsettled_of_read {s : State} (h : StateInv s) {rs : List Response} (read : ReadsAtMostOne s rs) {r : Run}
    (hr : s.fsm = .running r) : State.outSettled { s with responses := rs } = false := by
  have hs := h.runUnsettled r hr
  rcases read with rfl | ⟨x, rfl, hx⟩
  · exact hs
  · refine Bool.eq_false_iff.mpr fun ht => ?_
    rcases outSettled_of_read (s := s) (t := { s with responses := x :: s.responses }) rfl rfl ht with h' | h'
    · simp [hs] at h'
    · simp [(hx h').1] at hr

theorem StateInv.clearStatus {s : State} (h : StateInv s) : StateInv (clearStatus s) :=
  { h with
    busyClear := fun r hr => ⟨rfl, rfl, (h.busyClear r hr).2.2⟩
    undoneOk := fun _ => rfl
    errLen := fun he => absurd rfl he }

theorem StateInv.rejectCommand {s : State} (h : StateInv s) (idle : s.fsm = .idle) (e : ErrCode) :
    StateInv (rejectCommand e s) :=
  { h with
    busyClear := by simp [idle]
    undoneOk := by simp
    errLen := fun _ => rfl
    lenBound := Nat.zero_le _
    lenWritten := by simp }

theorem StateInv.startOp {s : State} (h : StateInv s) (op : CodecOp) (fits : s.inLen.toNat ≤ s.params.inCap) :
    StateInv (startOp op s) :=
  { h with
    busyClear := by simp
    undoneOk := fun _ => rfl
    errLen := fun he => absurd rfl he
    lenBound := Nat.zero_le _
    lenWritten := by simp
    runCounts := by simp [fits]
    runWritten := by simp
    runDraws := by simp
    runUnsettled := by simp }

theorem StateInv.advance {s : State} (h : StateInv s) {r : Run} (running : s.fsm = .running r) (bytes : List Byte)
    {k : Nat} (within : r.rd + k ≤ r.n) (ratio : bytes.length ≤ 64 * k) : StateInv (advance bytes k r s) := by
  obtain ⟨hdone, herr, hlen⟩ := h.busyClear r running
  obtain ⟨hn, hcap, -, hwr⟩ := h.runCounts r running
  have after : ∀ {q}, (Machine.advance bytes k r s).fsm = .running q → q = r.after k bytes.length :=
    fun hq => (Fsm.running.inj ((advance_running bytes k r s).symm.trans hq)).symm
  refine { h with
    outWf := emitAll_wf h.outWf
    outBelow := emitAll_below h.outBelow
    busyClear := fun _ _ => ⟨hdone, herr, hlen⟩
    lenWritten := fun i hi => emitAll_written_iff.mpr (.inr (h.lenWritten i hi))
    runCounts := fun q hq => ?_
    runWritten := fun q hq i hi hc => emitAll_written_iff.mpr ?_
    runDraws := fun q hq => ?_
    runUnsettled := fun _ _ => h.runUnsettled r running
    freedWritten := fun i hi => emitAll_written_iff.mpr (.inr (h.freedWritten i hi)) }
  · cases after hq
    exact ⟨hn, hcap, within, by simp only [Run.after]; omega⟩
  · cases after hq
    by_cases hw : i < r.wr
    · exact .inr (h.runWritten r running i hw hc)
    · exact .inl ⟨by omega, hi, hc⟩
  · cases after hq
    exact h.runDraws r running

theorem StateInv.completeOk {s : State} (h : StateInv s) {r : Run} (running : s.fsm = .running r)
    (fits : r.wr ≤ s.params.outCap) : StateInv (completeOk r s) := by
  obtain ⟨-, -, -, hcap⟩ := Params.caps_of_wellFormed h.params
  have hlen : (Machine.completeOk r s).outLen.toNat = r.wr := by
    simp only [completeOk_outLen, BitVec.toNat_ofNat]
    exact Nat.mod_eq_of_lt (by omega)
  exact { h with
    busyClear := nofun
    undoneOk := fun _ => rfl
    errLen := fun he => absurd rfl he
    lenBound := hlen.trans_le fits
    lenWritten := fun i hi => h.runWritten r running i (hlen ▸ hi) (by omega)
    runCounts := nofun
    runWritten := nofun
    runDraws := nofun
    runUnsettled := nofun
    freedBound := Nat.zero_le _
    freedWritten := by simp }

theorem StateInv.raiseError {s : State} (h : StateInv s) (e : ErrCode) (r : Run) : StateInv (raiseError e r s) :=
  { h with
    outWf := scramble_wf h.outWf _ _
    outBelow := scramble_below h.outBelow _ (Nat.min_le_right _ _)
    busyClear := nofun
    undoneOk := nofun
    errLen := fun _ => rfl
    lenBound := Nat.zero_le _
    lenWritten := by simp
    runCounts := nofun
    runWritten := nofun
    runDraws := nofun
    runUnsettled := nofun
    freedBound := Nat.min_le_right _ _
    freedWritten := fun _ hi => scramble_written_iff.mpr (.inl hi) }

/-! ### Reset -/

/-- Every field the block's reset sets stands at its value (10_state.md R37). -/
structure Cleared (s : State) : Prop where
  done : s.done = false
  err : s.err = .ok
  inLen : s.inLen = 0
  outLen : s.outLen = 0
  fsm : s.fsm = .idle
  inBuf : s.inBuf = []
  outBuf : s.outBuf = []
  freed : s.freed = 0

theorem resetBlock_cleared (s : State) : Cleared (resetBlock s) := ⟨rfl, rfl, rfl, rfl, rfl, rfl, rfl, rfl⟩

theorem resetWith_cleared (p : Params) : Cleared (State.resetWith p) := ⟨rfl, rfl, rfl, rfl, rfl, rfl, rfl, rfl⟩

theorem Cleared.atResetValues {s : State} (h : Cleared s) : AtResetValues s := by
  have hstatus : statusWord s = 0 := by simp [statusWord_idle h.fsm, h.done, h.err, errBits]
  exact ⟨rfl, rfl, hstatus, h.inLen, h.outLen, rfl, rfl, rfl, h.fsm, by simp [h.inBuf], by simp [h.outBuf]⟩

/-- Nothing is written, counted or running, so each clause speaks of an empty buffer, a length 0 or no operation. -/
theorem Cleared.stateInv {s : State} (h : Cleared s) (params : s.params.wellFormed = true) : StateInv s := by
  obtain ⟨hdone, herr, -, hout, hfsm, hin, hbuf, hfreed⟩ := h
  constructor <;> simp [params, herr, hout, hfsm, hin, hbuf, hfreed]

/-! ### Effects and what they keep -/

/-- Every effect keeps the invariant. -/
theorem Effect.keeps_stateInv {s t : State} (e : Effect s t) (h : StateInv s) : StateInv t := by
  cases e with
  | violate => exact h.hostSide true 0 s.inputs s.turns h.runUnsettled
  | record rs d ins read => exact h.hostSide s.violated d ins s.turns (fun _ => h.unsettled_of_read read)
  | setInLen idle v => exact { h with runCounts := by simp [idle] }
  | storeIn idle cell v => exact { h with inWf := write_wf h.inWf _ v, inBelow := write_below h.inBelow cell v }
  | acknowledge _ => exact h.clearStatus
  | reject idle _ => exact h.rejectCommand idle _
  | start _ op fits => exact h.startOp op fits
  | reset => exact (resetBlock_cleared s).stateInv h.params
  | advance running bytes _ within ratio => exact h.advance running bytes within ratio
  | complete running _ fits => exact h.completeOk running fits
  | raise _ _ => exact h.raiseError _ _

/-- No effect clears the mark, reset among them (10_state.md R34). -/
theorem Effect.keeps_violated {s t : State} (e : Effect s t) (h : s.violated = true) : t.violated = true := by
  cases e with
  | violate => rfl
  | _ => exact h

/-! ### The fields of STATUS -/

theorem flagBit_getLsbD (b : Bool) (i : Nat) : (flagBit b).getLsbD i = (decide (i = 0) && b) := by
  cases b <;> simp [flagBit]

/-- Where each bit of STATUS comes from (10_state.md R26). -/
theorem statusWord_getLsbD (s : State) (i : Nat) :
    (statusWord s).getLsbD i =
      if i = 0 then isBusy s else if i = 1 then s.done
      else if 4 ≤ i ∧ i < 8 then (errBits s.err).getLsbD (i - 4) else false := by
  simp only [statusWord, BitVec.getLsbD_append, flagBit_getLsbD]
  match i with
  | 0 | 1 | 2 | 3 => simp
  | k + 4 =>
    have hk : k + 4 < 8 ↔ k < 4 := by omega
    simp [hk]

theorem statusWord_bit_one (s : State) : (statusWord s).getLsbD 1 = s.done := statusWord_getLsbD s 1

theorem statusWord_errField (s : State) : (statusWord s).extractLsb' 4 4 = errBits s.err := by
  ext i hi
  rw [BitVec.getElem_extractLsb', statusWord_getLsbD, if_neg (by omega), if_neg (by omega), if_pos (by omega),
    Nat.add_sub_cancel_left, BitVec.getLsbD_eq_getElem hi]

/-- A field that meets neither BUSY, DONE nor ERR reads 0. -/
theorem statusWord_reserved (s : State) {start len : Nat} (low : 2 ≤ start) (out : start + len ≤ 4 ∨ 8 ≤ start) :
    (statusWord s).extractLsb' start len = 0 := by
  ext i hi
  rw [BitVec.getElem_extractLsb', statusWord_getLsbD, if_neg (by omega), if_neg (by omega), if_neg (by omega)]
  simp

/-- No reserved code is ever held (60_exceptions.md R211). -/
theorem errBits_le_four (e : ErrCode) : (errBits e).toNat ≤ 4 := by cases e <;> decide

theorem errBits_pos {e : ErrCode} (h : e ≠ .ok) : 1 ≤ (errBits e).toNat := by
  cases e with
  | ok => exact absurd rfl h
  | _ => decide

/-- The four readable shapes of STATUS: idle and clear, busy, succeeded, failed with a code (10_state.md R27). -/
theorem statusWord_shapes {s : State} (h : StateInv s) :
    statusWord s = 0x0 ∨ statusWord s = 0x1 ∨ statusWord s = 0x2 ∨
      ∃ code : Word, 1 ≤ code.toNat ∧ code.toNat ≤ 4 ∧ statusWord s = 0x2 ||| (code <<< 4) := by
  cases hf : s.fsm with
  | running r =>
    obtain ⟨hd, he, -⟩ := h.busyClear r hf
    exact .inr (.inl (statusWord_busy hf hd he))
  | idle =>
    have hs := statusWord_idle hf
    cases hd : s.done with
    | false =>
      have he := h.undoneOk hd
      exact .inl (by simp [hs, hd, he, errBits])
    | true =>
      by_cases he : s.err = .ok
      · exact .inr (.inr (.inl (by simp [hs, hd, he, errBits])))
      · have hw : ((errBits s.err).setWidth 64).toNat = (errBits s.err).toNat :=
          BitVec.toNat_setWidth_of_le (by decide)
        exact .inr (.inr (.inr ⟨(errBits s.err).setWidth 64, hw ▸ errBits_pos he, hw ▸ errBits_le_four _,
          by simp [hs, hd]⟩))

end Sys2Proof.Machine

namespace Sys2Proof.Proofs

open Sys2Proof.Machine

/-- Settles O43: a step is one effect on a state whose turn and input are taken off, and every effect keeps the
invariant. -/
theorem stepKeepsTheInvariant : Obligations.StepKeepsTheInvariant := by
  intro s t h hstep
  obtain ⟨ins, e⟩ := step_effect hstep
  exact e.keeps_stateInv (h.hostSide s.violated 0 ins s.turns.tail h.runUnsettled)

/-- Settles O45, from the fields of STATUS and the invariant's clauses about DONE and ERR. -/
theorem statusReadsOneOfFourShapes : Obligations.StatusReadsOneOfFourShapes := by
  intro s h
  rw [statusWord_bit_zero, statusWord_bit_one, statusWord_errField]
  refine ⟨fun hb => ?_, fun hd _ => ?_, errBits_le_four s.err, statusWord_shapes h⟩
  · obtain ⟨r, hf⟩ := isBusy_eq_true.mp hb
    obtain ⟨hd, he, -⟩ := h.busyClear r hf
    exact ⟨hd, by rw [he]; rfl⟩
  · rw [h.undoneOk hd]
    rfl

/-- Settles O46: a step is one effect, and no effect clears the mark. -/
theorem violatedIsSticky : Obligations.ViolatedIsSticky := by
  intro s t hstep h
  obtain ⟨_, e⟩ := step_effect hstep
  exact e.keeps_violated h

/-- Settles O1: reset sets every field it lists, in any state. -/
theorem resetPutsEveryRegisterAndBufferAtItsValue : Obligations.ResetPutsEveryRegisterAndBufferAtItsValue :=
  ⟨fun s => ⟨resetBlock s, rfl, (resetBlock_cleared s).atResetValues, rfl, rfl⟩,
    (resetWith_cleared Config.defaultParams).atResetValues⟩

/-- Settles O3, field by field. -/
theorem statusFieldsStandAtTheirBits : Obligations.StatusFieldsStandAtTheirBits := fun s =>
  ⟨statusWord_bit_zero s, statusWord_bit_one s, statusWord_errField s, statusWord_reserved s (by decide) (by decide),
    statusWord_reserved s (by decide) (by decide)⟩

/-- Settles O44: the cleared state meets the invariant under any legal parameters, the model's own among them. -/
theorem resetMeetsTheInvariant : Obligations.ResetMeetsTheInvariant :=
  have reset : ∀ p : Params, p.wellFormed = true → StateInv (State.resetWith p) := fun p hp =>
    (resetWith_cleared p).stateInv hp
  ⟨reset, reset Config.defaultParams (by decide)⟩

end Sys2Proof.Proofs
end

section
/-! SUPPORT. The statements of 20_memory.md: what a block step leaves alone, and what a bus access does in each region. -/

namespace Sys2Proof.Machine

/-! ### The write side of a block step -/

/-- Emitting stores nothing at or beyond the capacity (41_encoder.md R124). -/
theorem emitAll_read_beyond {cap i : Nat} (bs : List Byte) (m : Memory) (w : Nat) (h : cap ≤ i) :
    Memory.read (emitAll cap bs (m, w)).1 i = Memory.read m i := by
  rw [emitAll_read, if_neg (by omega)]

/-- Error entry stores nothing at or beyond the cells it frees (60_exceptions.md R215). -/
theorem scramble_read_beyond (base : Nat) {k i : Nat} (m : Memory) (h : k ≤ i) :
    Memory.read (scramble base k m) i = Memory.read m i := by
  rw [scramble_read, if_neg (by omega)]

/-- What the block's steps keep (20_memory.md R51): IN, the outside world's side, and OUT at and beyond OUT_CAP. -/
structure WritesOnlyOutput (s t : State) : Prop where
  sameIn : SameIn s t
  sameHostSide : SameHostSide s t
  sameBeyond : ∀ a, s.params.outCap ≤ a → Memory.read t.outBuf a = Memory.read s.outBuf a

theorem WritesOnlyOutput.refl (s : State) : WritesOnlyOutput s s :=
  ⟨⟨rfl, fun _ => rfl⟩, ⟨rfl, rfl, rfl, rfl, rfl, rfl⟩, fun _ _ => rfl⟩

theorem advance_writesOnlyOutput (bytes : List Byte) (k : Nat) (r : Run) (s : State) :
    WritesOnlyOutput s (advance bytes k r s) :=
  ⟨⟨rfl, fun _ => rfl⟩, ⟨rfl, rfl, rfl, rfl, rfl, rfl⟩, fun _ h => emitAll_read_beyond bytes s.outBuf r.wr h⟩

theorem completeOk_writesOnlyOutput (r : Run) (s : State) : WritesOnlyOutput s (completeOk r s) :=
  ⟨⟨rfl, fun _ => rfl⟩, ⟨rfl, rfl, rfl, rfl, rfl, rfl⟩, fun _ _ => rfl⟩

/-- The cells an error frees are counted up to OUT_CAP at most. -/
theorem raiseError_writesOnlyOutput (e : ErrCode) (r : Run) (s : State) : WritesOnlyOutput s (raiseError e r s) :=
  ⟨⟨rfl, fun _ => rfl⟩, ⟨rfl, rfl, rfl, rfl, rfl, rfl⟩, fun _ h =>
    scramble_read_beyond s.draws s.outBuf ((Nat.min_le_right _ _).trans h)⟩

theorem complete_writesOnlyOutput (r : Run) (s : State) : WritesOnlyOutput s (complete r s) := by
  rcases complete_cases r s with ⟨-, e⟩ | ⟨-, e⟩ <;> rw [e]
  · exact raiseError_writesOnlyOutput _ r s
  · exact completeOk_writesOnlyOutput r s

theorem blockStep_writesOnlyOutput {s t : State} (h : blockStep s = .next t) : WritesOnlyOutput s t := by
  rcases blockStep_cases s with
    ⟨-, e⟩ | ⟨r, -, -, e⟩ | ⟨r, -, -, -, e⟩ | ⟨r, -, -, -, ⟨-, e⟩ | ⟨-, e⟩⟩ | ⟨r, -, -, e⟩ <;>
    cases e.symm.trans h
  · exact .refl s
  · exact complete_writesOnlyOutput r s
  · exact advance_writesOnlyOutput _ _ r s
  · exact raiseError_writesOnlyOutput _ r s
  · exact advance_writesOnlyOutput _ _ r s

/-! ### Access forms -/

theorem accessOk_reg {p : Params} {offset width : Nat} :
    accessOk p .reg offset width = true ↔ width = 8 ∧ offset % 8 = 0 ∧ offset < 64 := decide_eq_true_iff

theorem accessOk_inbuf {p : Params} {offset width : Nat} :
    accessOk p .inbuf offset width = true ↔ width = 1 ∧ offset < p.inCap := decide_eq_true_iff

theorem accessOk_outbuf {p : Params} {offset width : Nat} :
    accessOk p .outbuf offset width = true ↔ width = 1 ∧ offset < p.outCap := decide_eq_true_iff

/-- An access of a form that is not legal only sets `violated` (20_memory.md R52, R53). -/
theorem access_of_wrong_form {s : State} {region : Region} {offset width : Nat} (v : Word)
    (wrong : ¬accessOk s.params region offset width = true) :
    busRead region offset width s = violate s ∧ busWrite region offset width v s = .next (violate s) :=
  ⟨if_neg wrong, if_neg wrong⟩

/-! ### Reads -/

@[simp] theorem regRead_id (s : State) : regRead 0x00 s = 0x0000000143454C52 := rfl
@[simp] theorem regRead_cmd (s : State) : regRead 0x08 s = 0 := rfl
@[simp] theorem regRead_status (s : State) : regRead 0x10 s = statusWord s := rfl
@[simp] theorem regRead_inLen (s : State) : regRead 0x18 s = s.inLen := rfl
@[simp] theorem regRead_outLen (s : State) : regRead 0x20 s = s.outLen := rfl
@[simp] theorem regRead_inCap (s : State) : regRead 0x28 s = BitVec.ofNat 64 s.params.inCap := rfl
@[simp] theorem regRead_outCap (s : State) : regRead 0x30 s = BitVec.ofNat 64 s.params.outCap := rfl
@[simp] theorem regRead_reserved (s : State) : regRead 0x38 s = 0 := rfl

theorem busRead_reg (s : State) {offset : Nat} (aligned : offset % 8 = 0) (inside : offset < 64) :
    busRead .reg offset 8 s = respond (.word offset (regRead offset s)) s :=
  if_pos (accessOk_reg.mpr ⟨rfl, aligned, inside⟩)

theorem busRead_inbuf {s : State} {i : Nat} (inside : i < s.params.inCap) :
    busRead .inbuf i 1 s = respondCell (Memory.read s.inBuf i) s :=
  if_pos (accessOk_inbuf.mpr ⟨rfl, inside⟩)

theorem busRead_outbuf {s : State} {i : Nat} (inside : i < s.params.outCap) :
    busRead .outbuf i 1 s = respondCell (outCell s i) s :=
  if_pos (accessOk_outbuf.mpr ⟨rfl, inside⟩)

theorem outCell_busy {s : State} (busy : isBusy s = true) (i : Nat) : outCell s i = none := if_pos busy

theorem outCell_idle {s : State} (idle : isBusy s = false) (i : Nat) : outCell s i = Memory.read s.outBuf i := by
  simp [outCell, idle]

theorem respondCell_some (b : Byte) (s : State) :
    respondCell (some b) s = { s with responses := .byte b :: s.responses } := rfl

theorem respondCell_none (s : State) :
    respondCell none s = { s with responses := .byte (nextDraw s) :: s.responses, draws := s.draws + 1 } := rfl

/-! ### Writes -/

theorem busWrite_reg (s : State) (v : Word) {offset : Nat} (aligned : offset % 8 = 0) (inside : offset < 64) :
    busWrite .reg offset 8 v s = regWrite offset v s :=
  if_pos (accessOk_reg.mpr ⟨rfl, aligned, inside⟩)

theorem busWrite_inbuf {s : State} {i : Nat} (v : Word) (inside : i < s.params.inCap) :
    busWrite .inbuf i 1 v s = .next (inWrite i (v.setWidth 8) s) :=
  if_pos (accessOk_inbuf.mpr ⟨rfl, inside⟩)

theorem busWrite_outbuf {s : State} {i : Nat} (v : Word) (inside : i < s.params.outCap) :
    busWrite .outbuf i 1 v s = .next s :=
  if_pos (accessOk_outbuf.mpr ⟨rfl, inside⟩)

theorem regWrite_cmd (v : Word) (s : State) : regWrite 0x08 v s = writeCmd v s := rfl

theorem regWrite_inLen_idle {s : State} (idle : isBusy s = false) (v : Word) :
    regWrite 0x18 v s = .next { s with inLen := v } := by
  simp [regWrite, idle]

theorem regWrite_inLen_busy {s : State} (busy : isBusy s = true) (v : Word) :
    regWrite 0x18 v s = .next (violate s) := by
  simp [regWrite, busy]

theorem regWrite_ignored {offset : Nat} (notCmd : offset ≠ 0x08) (notInLen : offset ≠ 0x18) (v : Word) (s : State) :
    regWrite offset v s = .next s := by
  simp [regWrite, notCmd, notInLen]

theorem inWrite_idle {s : State} (idle : isBusy s = false) (i : Nat) (v : Byte) :
    inWrite i v s = { s with inBuf := Memory.write s.inBuf i v } := by
  simp [inWrite, idle]

theorem inWrite_busy {s : State} (busy : isBusy s = true) (i : Nat) (v : Byte) : inWrite i v s = violate s :=
  if_pos busy

end Sys2Proof.Machine

namespace Sys2Proof.Proofs

open Sys2Proof.Machine

/-- Settles O47, by the cases of a block step: each one emits, completes, raises or passes, and stores below OUT_CAP. -/
theorem blockStepWritesOnlyItsOutput : Obligations.BlockStepWritesOnlyItsOutput := by
  intro s t h
  obtain ⟨hin, hhost, hbeyond⟩ := blockStep_writesOnlyOutput h
  exact ⟨hin, hhost, hbeyond⟩

/-- Settles O2: a legal read responds with `regRead`, which has one equation for each offset. -/
theorem registerReadReturnsTheRegisterAtItsOffset : Obligations.RegisterReadReturnsTheRegisterAtItsOffset := by
  intro s
  simp [busRead_reg, respond]

/-- Settles O4: CMD and IN_LEN are the only offsets at which a write has an effect. -/
theorem registerWriteTakesEffectByOffset : Obligations.RegisterWriteTakesEffectByOffset := by
  intro s v
  have inLen : busWrite .reg 0x18 8 v s = regWrite 0x18 v s := busWrite_reg s v (by decide) (by decide)
  refine ⟨fun off hoff => ?_, fun idle => ?_, fun busy => ?_, ?_⟩
  · have readOnly : ∀ off ∈ [0x00, 0x10, 0x20, 0x28, 0x30, 0x38],
        off % 8 = 0 ∧ off < 64 ∧ off ≠ 0x08 ∧ off ≠ 0x18 := by decide
    obtain ⟨aligned, inside, notCmd, notInLen⟩ := readOnly off hoff
    rw [busWrite_reg s v aligned inside, regWrite_ignored notCmd notInLen]
  · rw [inLen, regWrite_inLen_idle idle]
  · exact inLen.trans (regWrite_inLen_busy busy v)
  · rw [busWrite_reg s v (by decide) (by decide), regWrite_cmd]

/-- Settles O5: one cell of IN is written while idle, and reading after a write says which. -/
theorem bufferWriteStoresOnlyInIdleIn : Obligations.BufferWriteStoresOnlyInIdleIn := by
  intro s i v
  refine ⟨fun inside idle => ?_, fun inside busy => ?_, busWrite_outbuf v⟩
  · have stores : busWrite .inbuf i 1 v s = .next { s with inBuf := Memory.write s.inBuf i (v.setWidth 8) } := by
      rw [busWrite_inbuf v inside, inWrite_idle idle]
    exact ⟨_, stores, read_write_same .., fun _ other => read_write_other _ _ other, fun _ => rfl,
      ⟨rfl, rfl, rfl, rfl, rfl, rfl⟩, rfl, rfl, rfl, rfl⟩
  · rw [busWrite_inbuf v inside, inWrite_busy busy, violate]

/-- Settles O6: a read answers with the cell it finds, and with the next draw where it finds none. -/
theorem bufferReadReturnsItsCellOrADraw : Obligations.BufferReadReturnsItsCellOrADraw := by
  intro s i
  refine ⟨fun inside b written => ?_, fun inside unwritten => ⟨nextDraw s, s.draws + 1, ?_⟩,
    fun inside busy => ⟨nextDraw s, s.draws + 1, ?_⟩, fun inside idle b written => ?_,
    fun inside idle unwritten => ⟨nextDraw s, s.draws + 1, ?_⟩⟩
  · rw [busRead_inbuf inside, written, respondCell_some]
  · rw [busRead_inbuf inside, unwritten, respondCell_none]
  · rw [busRead_outbuf inside, outCell_busy busy, respondCell_none]
  · rw [busRead_outbuf inside, outCell_idle idle, written, respondCell_some]
  · rw [busRead_outbuf inside, outCell_idle idle, unwritten, respondCell_none]

/-- Settles O7: in each region the legal form is the one `accessOk` tests. -/
theorem wrongAccessFormOnlySetsViolated : Obligations.WrongAccessFormOnlySetsViolated := fun _ _ _ v =>
  ⟨fun wrong => access_of_wrong_form v (mt accessOk_reg.mp wrong),
    fun wrong => access_of_wrong_form v (mt accessOk_inbuf.mp wrong),
    fun wrong => access_of_wrong_form v (mt accessOk_outbuf.mp wrong)⟩

end Sys2Proof.Proofs
end

section
/-! SUPPORT. The statements of 30_encoding.md: what a control byte and a CMD word decode to and encode from, what the
encoder makes of a constant input, and the turns of POLL and READOUT. -/

namespace Sys2Proof.Machine

/-! ### Control bytes -/

/-- The encodable lengths of a block (30_encoding.md R73). -/
theorem blockLenOk_iff {len : Nat} : blockLenOk len = true ↔ 1 ≤ len ∧ len ≤ 128 := decide_eq_true_iff

/-- The lengths of the run blocks the encoder emits (30_encoding.md R76). -/
theorem canonical_run_iff {len : Nat} : (Instr.run len).canonical = true ↔ 2 ≤ len ∧ len ≤ 128 := decide_eq_true_iff

theorem decodeControl_literalControl {len : Nat} (pos : 1 ≤ len) (le : len ≤ 128) :
    decodeControl (literalControl len) = .lit len := by
  simp [decodeControl, controlIsRun_literalControl pos le, controlLen_literalControl pos le]

theorem decodeControl_runControl {len : Nat} (pos : 1 ≤ len) (le : len ≤ 128) :
    decodeControl (runControl len) = .run len := by
  simp [decodeControl, controlIsRun_runControl, controlLen_runControl pos le]

/-- The kind bit is the top bit (30_encoding.md R71). -/
theorem controlIsRun_eq (c : Byte) : controlIsRun c = decide (128 ≤ c.toNat) :=
  BitVec.msb_eq_decide c

/-- The length field is the byte below its top bit (30_encoding.md R73). -/
theorem controlLen_eq (c : Byte) : controlLen c = c.toNat % 128 + 1 := by
  simp [controlLen]

/-- The lower half of the table of control bytes (30_encoding.md R78). -/
theorem decodeControl_of_lt {c : Byte} (low : c.toNat < 128) : decodeControl c = .lit (c.toNat + 1) := by
  simp [decodeControl, controlIsRun_eq, controlLen_eq, Nat.not_le.mpr low, Nat.mod_eq_of_lt low]

/-- The upper half of the table of control bytes (30_encoding.md R78). -/
theorem decodeControl_of_le {c : Byte} (high : 128 ≤ c.toNat) : decodeControl c = .run (c.toNat - 128 + 1) := by
  have field : c.toNat % 128 = c.toNat - 128 := by omega
  simp [decodeControl, controlIsRun_eq, controlLen_eq, high, field]

theorem literalControl_toNat_add_one (c : Byte) : literalControl (c.toNat + 1) = c := by
  simp [literalControl]

/-- Setting the top bit above a 7-bit length field adds 128 to it (30_encoding.md R75). -/
theorem runControl_toNat_sub {c : Byte} (high : 128 ≤ c.toNat) : runControl (c.toNat - 128 + 1) = c := by
  have small : c.toNat - 128 < 256 := by omega
  have sum : 128 + (c.toNat - 128) = 128 ||| (c.toNat - 128) :=
    Nat.two_pow_add_eq_or_of_lt (i := 7) (by omega) 1
  apply BitVec.eq_of_toNat_eq
  calc (runControl (c.toNat - 128 + 1)).toNat
      = 128 ||| (c.toNat - 128) := by simp [runControl, Nat.mod_eq_of_lt small]
    _ = c.toNat := by omega

/-- A control byte is the code of the block it names, whose length is in range (30_encoding.md R77). -/
theorem encode_decodeControl (c : Byte) :
    (decodeControl c).wellFormed = true ∧ encode (decodeControl c) = .control c := by
  by_cases low : c.toNat < 128
  · rw [decodeControl_of_lt low]
    exact ⟨blockLenOk_iff.mpr (by omega), congrArg Code.control (literalControl_toNat_add_one c)⟩
  · have high : 128 ≤ c.toNat := Nat.not_lt.mp low
    rw [decodeControl_of_le high]
    exact ⟨blockLenOk_iff.mpr (by omega), congrArg Code.control (runControl_toNat_sub high)⟩

/-! ### CMD words -/

/-- A CMD word is its two fields (30_encoding.md R79). -/
theorem cmdRes_append_cmdOp (w : Word) : cmdRes w ++ cmdOp w = w :=
  BitVec.extractLsb'_append_extractLsb' (w := 62) (len := 2)

/-- A word whose reserved bits are 0 is fixed by its opcode (30_encoding.md R80). -/
theorem cmd_eq_of_fields {w : Word} {op : BitVec 2} (reserved : cmdRes w = 0) (opcode : cmdOp w = op) :
    w = (0 : BitVec 62) ++ op := by
  rw [← reserved, ← opcode, cmdRes_append_cmdOp]

/-- A CMD word that decodes is the code of its command (30_encoding.md R80, R81). -/
theorem encode_of_decodeCmd {w : Word} {i : Instr} (h : decodeCmd w = .ok i) :
    i.wellFormed = true ∧ encode i = .cmd w := by
  unfold decodeCmd at h
  split_ifs at h with reserved opcode opcode opcode
  all_goals
    cases h
    rw [cmd_eq_of_fields (not_not.mp reserved) opcode]
    exact ⟨rfl, rfl⟩

/-! ### The encoding of a constant input -/

/-- The run at the front of a constant input is all of it, up to the cap (41_encoder.md R121). -/
theorem firstRun_replicate {n : Nat} (pos : 1 ≤ n) (v : Byte) : firstRun (List.replicate n v) = min n 128 := by
  have constant : ∀ i, i < n → byteAt (List.replicate n v) i = v := fun i hi => by simp [byteAt, List.getD, hi]
  obtain ⟨-, cap, inside, -, stop⟩ := runScan_spec (byteAt (List.replicate n v)) n 0 127 1 (by omega)
    (fun j hj => by rw [Nat.lt_one_iff.mp hj])
  have run : firstRun (List.replicate n v) = runScan (byteAt (List.replicate n v)) n 0 127 1 := by
    simp [firstRun, runLen, Config.runMax]
  rw [run]
  rcases stop with stop | stop | stop
  · omega
  · omega
  · have ended : n ≤ runScan (byteAt (List.replicate n v)) n 0 127 1 := by
      by_contra more
      exact stop (by rw [constant _ (by omega), constant _ (by omega)])
    omega

/-- Two or more equal bytes begin with one run block (41_encoder.md R125). -/
theorem enc_replicate {n : Nat} (two : 2 ≤ n) (v : Byte) :
    enc (List.replicate n v) = (Block.run (min n 128) v).bytes ++ enc (List.replicate (n - 128) v) := by
  obtain ⟨m, rfl⟩ : ∃ m, n = m + 1 := ⟨n - 1, by omega⟩
  have rest : m + 1 - min (m + 1) 128 = m + 1 - 128 := by omega
  rw [List.replicate_succ, enc_cons, ← List.replicate_succ, firstRun_replicate (by omega), if_pos (by omega),
    List.drop_replicate, rest, Block.bytes]

/-- One byte is one literal block (41_encoder.md R126). -/
theorem enc_singleton (v : Byte) : enc [v] = (Block.literal [v]).bytes := rfl

theorem fillBlocks_add (n : Nat) (v : Byte) : fillBlocks (n + 128) v = .run 128 v :: fillBlocks n v := by
  simp [fillBlocks, List.replicate_succ]

/-- FILL's blocks are those the encoder chooses: runs of 128 while that many bytes are left, then the remainder
(30_encoding.md R84). -/
theorem assembleBlocks_fillBlocks (n : Nat) (v : Byte) : assembleBlocks (fillBlocks n v) = enc (List.replicate n v) := by
  induction n using Nat.strong_induction_on with
  | _ n ih =>
    by_cases long : 128 ≤ n
    · obtain ⟨m, rfl⟩ := Nat.exists_eq_add_of_le' long
      rw [enc_replicate (by omega), Nat.min_eq_right long, Nat.add_sub_cancel, ← ih m (by omega), fillBlocks_add,
        assembleBlocks, assembleBlocks, List.flatMap_cons]
    · have quotient : n / 128 = 0 := by omega
      have remainder : n % 128 = n := by omega
      by_cases two : 2 ≤ n
      · have none_left : n - 128 = 0 := by omega
        rw [enc_replicate two, none_left, Nat.min_eq_left (by omega)]
        simp [fillBlocks, quotient, remainder, two, assembleBlocks]
      · obtain rfl | rfl : n = 0 ∨ n = 1 := by omega
        · rfl
        · exact (enc_singleton v).symm

/-! ### Turns of POLL and READOUT -/

/-- The host's turn takes the oldest pending input. -/
theorem step_host {s : State} {i : Input} {rest : List Input} (turn : nextAgent s = .host)
    (pending : s.inputs = i :: rest) : step s = applyInput i { popTurn s with inputs := rest } := by
  simp [step, turn, hostStep, pending]

/-- With no turn scheduled, an idle block leaves the turn to the host. -/
theorem step_idle {s : State} {i : Input} {rest : List Input} (idle : s.fsm = .idle) (noTurns : s.turns = [])
    (pending : s.inputs = i :: rest) : step s = applyInput i { s with inputs := rest } := by
  rw [step_host (by simp [nextAgent, noTurns, isBusy_idle idle]) pending]
  simp [popTurn, noTurns]

theorem runSteps_succ {s t : State} (h : step s = .next t) (k : Nat) : runSteps (k + 1) s = runSteps k t := by
  simp [runSteps, h]

/-- The state after the host has read `x`, with `ins` still pending. -/
def afterRead (x : Response) (ins : List Input) (s : State) : State := { respond x s with inputs := ins }

/-- The state after the host has read the bytes `bs` in order, with nothing pending. -/
def afterByteReads (bs : List Byte) (s : State) : State :=
  { s with inputs := [], responses := (bs.map Response.byte).reverse ++ s.responses }

theorem afterByteReads_cons (b : Byte) (bs : List Byte) (ins : List Input) (s : State) :
    afterByteReads (b :: bs) s = afterByteReads bs (afterRead (.byte b) ins s) := by
  simp [afterByteReads, afterRead, respond]

/-- A turn of POLL (30_encoding.md R84). -/
theorem pollTurn_eq (s : State) :
    pollTurn s = afterRead (.word 0x10 (statusWord s)) (if isBusy s then poll :: s.inputs else s.inputs) s := by
  have read : busRead .reg 0x10 8 s = respond (.word 0x10 (statusWord s)) s := busRead_reg s (by decide) (by decide)
  rw [pollTurn, statusWord_bit_zero, read]
  cases isBusy s <;> rfl

/-- The first turn of READOUT (30_encoding.md R84). -/
theorem readoutTurn_eq (s : State) :
    readoutTurn s = afterRead (.word 0x20 s.outLen) ((List.range s.outLen.toNat).map rd8Out ++ s.inputs) s := by
  have read : busRead .reg 0x20 8 s = respond (.word 0x20 s.outLen) s := busRead_reg s (by decide) (by decide)
  rw [readoutTurn, read]
  rfl

/-- A certain cell of OUT holds the byte that a read returns (20_memory.md R57). -/
theorem outCell_eq_some_outByte {s : State} {i : Nat} (certain : (outCell s i).isSome = true) :
    outCell s i = some (outByte s i) := by
  obtain ⟨b, hb⟩ := Option.isSome_iff_exists.mp certain
  rw [outByte, hb]

/-- A read of a certain cell of OUT returns its byte and takes no draw. -/
theorem busRead_outbuf_of_isSome {s : State} {i : Nat} (inside : i < s.params.outCap)
    (certain : (outCell s i).isSome = true) : busRead .outbuf i 1 s = respond (.byte (outByte s i)) s := by
  rw [busRead_outbuf inside, outCell_eq_some_outByte certain]
  rfl

/-- What was read and what is pending do not change what OUT holds. -/
theorem outByte_afterRead (x : Response) (ins : List Input) (s : State) : outByte (afterRead x ins s) = outByte s := rfl

/-- One pending byte read of a certain cell of OUT. -/
theorem step_rd8Out {s : State} {i : Nat} {rest : List Input} (idle : s.fsm = .idle) (noTurns : s.turns = [])
    (pending : s.inputs = rd8Out i :: rest) (inside : i < s.params.outCap) (certain : (outCell s i).isSome = true) :
    step s = .next (afterRead (.byte (outByte s i)) rest s) := by
  rw [step_idle idle noTurns pending]
  exact congrArg Host.Outcome.next (busRead_outbuf_of_isSome (s := { s with inputs := rest }) inside certain)

/-- Byte reads of an idle block's OUT take one step each and return the bytes of certain cells in order. -/
theorem runSteps_rd8Out (cells : List Nat) {s : State} (idle : s.fsm = .idle) (noTurns : s.turns = [])
    (pending : s.inputs = cells.map rd8Out)
    (certain : ∀ i ∈ cells, i < s.params.outCap ∧ (outCell s i).isSome = true) :
    runSteps cells.length s = .next (afterByteReads (cells.map (outByte s)) s) := by
  induction cells generalizing s with
  | nil =>
    cases s
    cases pending
    rfl
  | cons i cells ih =>
    obtain ⟨⟨inside, hcell⟩, later⟩ := List.forall_mem_cons.mp certain
    have first := step_rd8Out idle noTurns pending inside hcell
    rw [List.length_cons, runSteps_succ first, ih (s := afterRead _ _ s) idle noTurns rfl later, outByte_afterRead,
      List.map_cons, afterByteReads_cons]

/-- READOUT alone on an idle block takes one step for OUT_LEN and one for each byte of the result. -/
theorem runSteps_readout {s : State} (idle : s.fsm = .idle) (noTurns : s.turns = []) (pending : s.inputs = [readout])
    (fits : s.outLen.toNat ≤ s.params.outCap) (certain : ∀ i, i < s.outLen.toNat → (outCell s i).isSome = true) :
    runSteps (1 + s.outLen.toNat) s =
      .next (afterByteReads (outBytes s) (respond (.word 0x20 s.outLen) s)) := by
  have first : step s = .next (afterRead (.word 0x20 s.outLen) ((List.range s.outLen.toNat).map rd8Out) s) := by
    rw [step_idle idle noTurns pending, ← List.append_nil (List.map _ _)]
    exact congrArg Host.Outcome.next (readoutTurn_eq { s with inputs := [] })
  have reads := runSteps_rd8Out (List.range s.outLen.toNat)
    (s := afterRead (.word 0x20 s.outLen) ((List.range s.outLen.toNat).map rd8Out) s) idle noTurns rfl
    fun i hi => ⟨(List.mem_range.mp hi).trans_le fits, certain i (List.mem_range.mp hi)⟩
  rw [List.length_range, outByte_afterRead, ← outBytes] at reads
  rw [Nat.add_comm, runSteps_succ first, reads]
  rfl

end Sys2Proof.Machine

namespace Sys2Proof.Proofs

open Sys2Proof.Machine

/-- Settles O20, by the instruction: a block's control byte names its kind and length, and each CMD word is decoded. -/
theorem decodeInvertsEncode : Obligations.DecodeInvertsEncode := by
  intro i wf
  cases i with
  | lit len =>
    obtain ⟨pos, le⟩ := blockLenOk_iff.mp wf
    exact congrArg Except.ok (decodeControl_literalControl pos le)
  | run len =>
    obtain ⟨pos, le⟩ := blockLenOk_iff.mp wf
    exact congrArg Except.ok (decodeControl_runControl pos le)
  | nop => rfl
  | encode => rfl
  | decode => rfl

/-- Settles O21, in each of the two encoding spaces. -/
theorem encodeInvertsDecode : Obligations.EncodeInvertsDecode := by
  intro c i h
  cases c with
  | control c =>
    cases h
    exact encode_decodeControl c
  | cmd w => exact encode_of_decodeCmd h

/-- Settles O38: FILL's blocks are those the encoder chooses for a constant input, for every length. -/
theorem fillAssemblesToTheEncoding : Obligations.FillAssemblesToTheEncoding := by
  intro n v pos
  simp [assemble, StreamLine.wellFormed, pos, assembleLine, assembleBlocks_fillBlocks]

/-- Settles O50: one step for OUT_LEN, then one for each byte; the invariant says that every cell below OUT_LEN exists
and is written. -/
theorem readoutReturnsTheResult : Obligations.ReadoutReturnsTheResult := by
  intro s inv idle noTurns pending
  have cell : ∀ i, outCell s i = Memory.read s.outBuf i := outCell_idle (isBusy_idle idle)
  have certain : ∀ i, i < s.outLen.toNat → (outCell s i).isSome = true := fun i hi => by
    rw [cell, inv.lenWritten i hi]
  refine ⟨_, outBytes s, runSteps_readout idle noTurns pending inv.lenBound certain, rfl, by simp [outBytes], rfl,
    fun i hi => ?_, rfl, rfl, ⟨rfl, fun _ => rfl⟩, fun _ => rfl, rfl, rfl⟩
  rw [← cell, outCell_eq_some_outByte (certain i hi)]
  simp [outBytes, hi]

/-- Settles O18: below 128 a literal, from 128 on a run, and 128 alone a run of length 1. -/
theorem everyControlByteNamesItsBlock : Obligations.EveryControlByteNamesItsBlock := by
  intro c
  refine ⟨fun low => ?_, fun mid => ?_, fun high => ?_⟩
  · rw [decodeControl_of_lt (by omega)]
    exact ⟨rfl, rfl, blockLenOk_iff.mpr (by omega)⟩
  · rw [decodeControl_of_le (by omega), mid]
    exact ⟨rfl, rfl, rfl⟩
  · rw [decodeControl_of_le (by omega)]
    exact ⟨rfl, rfl, canonical_run_iff.mpr (by omega)⟩

/-- Settles O19, by evaluation of each word. -/
theorem sampleWordsDecodeToTheirInstructions : Obligations.SampleWordsDecodeToTheirInstructions :=
  ⟨rfl, rfl, rfl, rfl, rfl, rfl, rfl, rfl, rfl⟩

/-- Settles O49: the turn is POLL's, and POLL puts itself back exactly while BUSY is 1. -/
theorem pollStaysPendingWhileBusy : Obligations.PollStaysPendingWhileBusy := by
  intro s rest turn pending
  refine ⟨pollTurn { popTurn s with inputs := rest }, step_host turn pending, ?_⟩
  rw [pollTurn_eq, pending]
  exact ⟨rfl, rfl, rfl, rfl, rfl, rfl, rfl, ⟨rfl, fun _ => rfl⟩, fun _ => rfl, rfl, rfl⟩

end Sys2Proof.Proofs
end

section
/-! SUPPORT. The statements of 40_commands.md: what a command does while idle and while busy, a block step as one
equation for each place of `RD`, and two operations on one input that run in step. -/

namespace Sys2Proof.Machine

/-! ### Commands -/

theorem acceptIdle_idle {s : State} (idle : s.fsm = .idle) (f : State → State) : acceptIdle f s = .next (f s) := by
  simp [acceptIdle, isBusy_idle idle]

theorem acceptIdle_busy {s : State} (busy : isBusy s = true) (f : State → State) :
    acceptIdle f s = .next (violate s) :=
  if_pos busy

theorem startOrReject_fits {s : State} (fits : s.inLen.toNat ≤ s.params.inCap) (op : CodecOp) :
    startOrReject op s = startOp op s :=
  if_neg (Nat.not_lt.mpr fits)

theorem startOrReject_overlong {s : State} (overlong : s.params.inCap < s.inLen.toNat) (op : CodecOp) :
    startOrReject op s = rejectCommand .lengthError s :=
  if_pos overlong

/-- The command that starts an operation (40_commands.md R102, R103). -/
def CodecOp.command : CodecOp → Instr
  | .enc => .encode
  | .dec => .decode

theorem exists_command_eq {i : Instr} (h : i = .encode ∨ i = .decode) : ∃ op : CodecOp, op.command = i := by
  rcases h with rfl | rfl
  · exact ⟨.enc, rfl⟩
  · exact ⟨.dec, rfl⟩

theorem exec_command (op : CodecOp) (s : State) : exec op.command s = acceptIdle (startOrReject op) s := by
  cases op with
  | enc => rfl
  | dec => rfl

/-- An idle block starts the operation when the input fits IN (40_commands.md R106). -/
theorem exec_command_fits {s : State} (idle : s.fsm = .idle) (fits : s.inLen.toNat ≤ s.params.inCap) (op : CodecOp) :
    exec op.command s = .next (startOp op s) := by
  rw [exec_command, acceptIdle_idle idle, startOrReject_fits fits]

/-- An idle block rejects the operation when the input does not fit IN (40_commands.md R105). -/
theorem exec_command_overlong {s : State} (idle : s.fsm = .idle) (overlong : s.params.inCap < s.inLen.toNat)
    (op : CodecOp) : exec op.command s = .next (rejectCommand .lengthError s) := by
  rw [exec_command, acceptIdle_idle idle, startOrReject_overlong overlong]

theorem writeCmd_of_decodeCmd {w : Word} {i : Instr} (h : decodeCmd w = .ok i) (s : State) : writeCmd w s = exec i s := by
  simp [writeCmd, h]

/-- A word other than the three codes of 30_encoding.md R80 is not decoded, so it is ILLEGAL. -/
theorem writeCmd_illegal {w : Word} (not0 : w ≠ 0x0) (not1 : w ≠ 0x1) (not2 : w ≠ 0x2) (s : State) :
    writeCmd w s = execIllegal s := by
  cases h : decodeCmd w with
  | error e => simp [writeCmd, h]
  | ok i =>
    obtain ⟨-, code⟩ := encode_of_decodeCmd h
    cases i with
    | lit _ => cases code
    | run _ => cases code
    | nop => exact absurd (Code.cmd.inj code).symm not0
    | encode => exact absurd (Code.cmd.inj code).symm not1
    | decode => exact absurd (Code.cmd.inj code).symm not2

theorem writeCmd_busy {s : State} (busy : isBusy s = true) (w : Word) : writeCmd w s = .next (violate s) := by
  obtain ⟨r, running⟩ := isBusy_eq_true.mp busy
  rcases writeCmd_cases w s with ⟨-, -, e⟩ | ⟨idle, -⟩
  · exact e
  · rw [running] at idle
    cases idle

/-! ### Inputs while an operation runs -/

/-- No access of the host ends or moves a running operation (40_commands.md R109, R111). -/
theorem hostOp_keeps_running {op : HostOp} {s t : State} {r : Run} (h : hostOp op s = .next t)
    (running : s.fsm = .running r) : t.fsm = .running r := by
  have notIdle : s.fsm ≠ .idle := by simp [running]
  rcases hostOp_cases op s with ⟨-, e⟩ | ⟨w, -, e⟩ | e | ⟨_, _, _, e, -⟩ | ⟨idle, -⟩ | ⟨idle, -⟩
  · cases e.symm.trans h
  · rw [e, writeCmd_busy (isBusy_running running)] at h
    cases h
    exact running
  · cases e.symm.trans h
    exact running
  · cases e.symm.trans h
    exact running
  · exact absurd idle notIdle
  · exact absurd idle notIdle

/-- On the host's turn only a reset ends a running operation (40_commands.md R109). -/
theorem hostStep_ends_only_by_reset {s t : State} {r : Run} (h : hostStep s = .next t) (running : s.fsm = .running r)
    (ended : t.fsm = .idle) : ∃ rest, s.inputs = .reset :: rest := by
  unfold hostStep at h
  cases pending : s.inputs with
  | nil =>
    rw [pending] at h
    cases h
    simp [running] at ended
  | cons i rest =>
    rw [pending] at h
    cases i with
    | host op => simp [hostOp_keeps_running h running] at ended
    | reset => exact ⟨rest, rfl⟩
    | secondHost => cases h

/-! ### The block step by the place of `RD` -/

/-- The bytes that the block at `RD` emits and how many it consumes: the encoder's block (41_encoder.md R125, R126), or
the stream's block and its size (42_decoder.md R152, R153). -/
def blockEmission (r : Run) (s : State) : List Byte × Nat :=
  match r.op with
  | .enc => encodeEmission r s
  | .dec =>
    (if controlIsRun (fetchControl r s) then List.replicate (controlLen (fetchControl r s)) (snapByte r s (r.rd + 1))
      else snapSlice r s (r.rd + 1) (controlLen (fetchControl r s)),
      (decodeControl (fetchControl r s)).streamBytes)

/-- At the end of input the block step is COMPLETE (40_commands.md R107). -/
theorem blockStep_atEnd {s : State} {r : Run} (running : s.fsm = .running r) (atEnd : r.rd = r.n) :
    blockStep s = .next (complete r s) := by
  simp [blockStep, running, atEnd]

/-- With input left the block step emits the block at `RD` and moves past it, or raises MALFORMED_PAYLOAD where that
block would end beyond the input (40_commands.md R107). -/
theorem blockStep_inside {s : State} {r : Run} (running : s.fsm = .running r) (inside : r.rd < r.n) :
    blockStep s = .next (if r.rd + (blockEmission r s).2 ≤ r.n
      then advance (blockEmission r s).1 (blockEmission r s).2 r s else raiseError .malformedPayload r s) := by
  rcases blockStep_cases s with
    ⟨h, -⟩ | ⟨q, hq, atEnd, -⟩ | ⟨q, hq, op, -, e⟩ | ⟨q, hq, op, -, h⟩ | ⟨q, hq, beyond, -⟩
  · rw [running] at h
    cases h
  all_goals
    rw [running] at hq
    cases hq
  · omega
  · obtain ⟨-, within, -⟩ := encodeEmission_bounds s inside
    simpa [blockEmission, op, within] using e
  · rcases h with ⟨short, e⟩ | ⟨within, e⟩
    · simpa [blockEmission, op, Nat.not_le.mpr short] using e
    · simpa [blockEmission, op, within] using e
  · omega

/-- Every block consumes at least one byte (40_commands.md R112). -/
theorem blockEmission_consumes {r : Run} (s : State) (inside : r.rd < r.n) : 1 ≤ (blockEmission r s).2 := by
  cases op : r.op with
  | enc =>
    obtain ⟨pos, -, -⟩ := encodeEmission_bounds s inside
    simpa [blockEmission, op] using pos
  | dec =>
    obtain ⟨two, -⟩ := streamBytes_decodeControl (fetchControl r s)
    simp only [blockEmission, op]
    omega

/-! ### Block steps in a row -/

theorem blockSteps_succ {s t : State} (h : blockStep s = .next t) (k : Nat) : blockSteps (k + 1) s = blockSteps k t := by
  simp [blockSteps, h]

/-- The block's turns pass with no effect while it is idle (60_exceptions.md R228). -/
theorem blockSteps_idle {s : State} (idle : s.fsm = .idle) (k : Nat) : blockSteps k s = .next s := by
  have pass : blockStep s = .next s := by simp [blockStep, idle]
  induction k with
  | zero => rfl
  | succ k ih => rw [blockSteps_succ pass, ih]

theorem SameIn.trans {s t u : State} (h : SameIn s t) (h' : SameIn t u) : SameIn s u :=
  ⟨h'.1.trans h.1, fun a => (h'.2 a).trans (h.2 a)⟩

/-- Block steps change neither IN nor IN_LEN (20_memory.md R51). -/
theorem blockSteps_sameIn {k : Nat} {s u : State} (h : blockSteps k s = .next u) : SameIn s u := by
  induction k generalizing s with
  | zero =>
    cases h
    exact ⟨rfl, fun _ => rfl⟩
  | succ k ih =>
    cases e : blockStep s with
    | next t =>
      rw [blockSteps_succ e] at h
      exact (blockStep_writesOnlyOutput e).sameIn.trans (ih h)
    | fault f => simp [blockSteps, e] at h
    | refused f => simp [blockSteps, e] at h

/-! ### What the host sees of an ended operation -/

theorem statusWord_clearStatus {s : State} (idle : s.fsm = .idle) : statusWord (clearStatus s) = 0x0 := by
  simp [statusWord_idle (s := clearStatus s) idle, errBits]

theorem statusWord_completeOk (r : Run) (s : State) : statusWord (completeOk r s) = 0x2 := by
  simp [statusWord_idle (s := completeOk r s) rfl, errBits]

theorem statusWord_raiseError (e : ErrCode) (r : Run) (s : State) :
    statusWord (raiseError e r s) = 0x2 ||| ((errBits e).setWidth 64 <<< 4) :=
  statusWord_idle rfl

theorem statusWord_rejectCommand {s : State} (idle : s.fsm = .idle) (e : ErrCode) :
    statusWord (rejectCommand e s) = 0x2 ||| ((errBits e).setWidth 64 <<< 4) :=
  statusWord_idle idle

/-- Two blocks whose operations have ended and of which the host sees the same (40_commands.md R110). -/
structure EndedAlike (s t : State) : Prop where
  left : s.fsm = .idle
  right : t.fsm = .idle
  endState_eq : endState s = endState t

/-- After a raise the host sees the code and how many cells are left `any`, whatever OUT holds. -/
theorem endState_raiseError (e : ErrCode) (r : Run) (s : State) :
    endState (raiseError e r s) =
      ⟨0x2 ||| ((errBits e).setWidth 64 <<< 4), 0, [], min r.wr s.params.outCap⟩ := by
  simp [endState, statusWord_raiseError]

/-- After a success the host sees the counted output. -/
theorem endState_completeOk (r : Run) (s : State) :
    endState (completeOk r s) =
      ⟨0x2, BitVec.ofNat 64 r.wr, (List.range (r.wr % 2 ^ 64)).map (Memory.read s.outBuf), 0⟩ := by
  simp [endState, statusWord_completeOk]

/-! ### Two operations in step -/

/-- Two runs of one operation at one place, on inputs that agree; only where their snapshots' draws begin, and what lies
beyond the input and beyond the output so far, may differ (40_commands.md R114). -/
structure InStep (r q : Run) (s t : State) : Prop where
  left : s.fsm = .running r
  right : t.fsm = .running q
  run : q = { r with snap := q.snap }
  outCap : s.params.outCap = t.params.outCap
  within : r.rd ≤ r.n
  input : ∀ i, i < r.n → snapByte r s i = snapByte q t i
  output : ∀ i, i < r.wr → i < s.params.outCap → Memory.read s.outBuf i = Memory.read t.outBuf i

section
variable {r q : Run} {s t : State}

theorem InStep.snapSlice_eq (h : InStep r q s t) {p len : Nat} (inside : p + len ≤ r.n) :
    snapSlice r s p len = snapSlice q t p len :=
  List.map_congr_left fun j hj => h.input _ (by have := List.mem_range.mp hj; omega)

/-- The encoder scans, and emits, bytes of the input alone (41_encoder.md R132). -/
theorem InStep.encodeEmission_eq (h : InStep r q s t) (inside : r.rd < r.n) :
    encodeEmission r s = encodeEmission q t := by
  have n : q.n = r.n := by rw [h.run]
  have rd : q.rd = r.rd := by rw [h.run]
  have agree : ∀ i, r.rd ≤ i → i < r.n → snapByte r s i = snapByte q t i := fun i _ => h.input i
  have run : runLen (snapByte r s) r.n r.rd = runLen (snapByte q t) r.n r.rd := runScan_congr inside agree _ _
  have lit : litLen (snapByte r s) r.n r.rd = litLen (snapByte q t) r.n r.rd := litScan_congr agree _ _
  obtain ⟨-, -, litInside⟩ := litLen_bounds (S := snapByte q t) inside
  rw [encodeEmission, encodeEmission, n, rd, run, lit, h.input _ inside, h.snapSlice_eq litInside]

/-- The blocks at `RD` have one size, and one output where they lie within the input (42_decoder.md R163). -/
theorem InStep.blockEmission_eq (h : InStep r q s t) (inside : r.rd < r.n) :
    (blockEmission r s).2 = (blockEmission q t).2 ∧
      (r.rd + (blockEmission r s).2 ≤ r.n → (blockEmission r s).1 = (blockEmission q t).1) := by
  have op : q.op = r.op := by rw [h.run]
  have rd : q.rd = r.rd := by rw [h.run]
  cases hop : r.op with
  | enc =>
    simp [blockEmission, op, hop, h.encodeEmission_eq inside]
  | dec =>
    have control : fetchControl r s = fetchControl q t := by
      rw [fetchControl, fetchControl, rd, h.input _ inside]
    simp only [blockEmission, op, hop, rd, control]
    refine ⟨trivial, fun fits => ?_⟩
    cases kind : controlIsRun (fetchControl q t) with
    | true =>
      have fill : r.rd + 1 < r.n := by
        simp only [decodeControl, kind, if_true, Instr.streamBytes] at fits
        omega
      simp [h.input _ fill]
    | false =>
      have raw : r.rd + 1 + controlLen (fetchControl q t) ≤ r.n := by
        simp only [decodeControl, kind, Bool.false_eq_true, if_false, Instr.streamBytes] at fits
        omega
      simp [h.snapSlice_eq raw]

/-- Emitting one block on both sides keeps them in step. -/
theorem InStep.advance (h : InStep r q s t) (bytes : List Byte) {k : Nat} (fits : r.rd + k ≤ r.n) :
    InStep (r.after k bytes.length) (q.after k bytes.length) (advance bytes k r s) (advance bytes k q t) where
  left := advance_running bytes k r s
  right := advance_running bytes k q t
  run := by rw [h.run]; rfl
  outCap := h.outCap
  within := fits
  input := h.input
  output i counted stored := by
    have wr : q.wr = r.wr := by rw [h.run]
    replace counted : i < r.wr + bytes.length := counted
    replace stored : i < s.params.outCap := stored
    simp only [advance_outBuf, emitAll_read, wr, ← h.outCap]
    split_ifs with emitted
    · rfl
    · exact h.output i (by omega) stored

/-- A raise shows the host the count alone, which is the same on both sides. -/
theorem InStep.raiseError (h : InStep r q s t) (e : ErrCode) : EndedAlike (raiseError e r s) (raiseError e q t) where
  left := rfl
  right := rfl
  endState_eq := by
    have wr : q.wr = r.wr := by rw [h.run]
    rw [endState_raiseError, endState_raiseError, wr, h.outCap]

/-- COMPLETE overflows on both sides or on neither, and the counted output is the same. -/
theorem InStep.complete (h : InStep r q s t) : EndedAlike (complete r s) (complete q t) := by
  have wr : q.wr = r.wr := by rw [h.run]
  have outCap := h.outCap
  rcases complete_cases r s with ⟨overflows, e⟩ | ⟨fits, e⟩ <;>
    rcases complete_cases q t with ⟨overflows', e'⟩ | ⟨fits', e'⟩ <;> rw [e, e']
  · exact h.raiseError _
  · omega
  · omega
  · refine ⟨rfl, rfl, ?_⟩
    have out : (List.range (r.wr % 2 ^ 64)).map (Memory.read s.outBuf) =
        (List.range (r.wr % 2 ^ 64)).map (Memory.read t.outBuf) :=
      List.map_congr_left fun i hi => by
        have counted : i < r.wr := (List.mem_range.mp hi).trans_le (Nat.mod_le _ _)
        exact h.output i counted (counted.trans_le fits)
    rw [endState_completeOk, endState_completeOk, wr, out]

/-- One block step ends both operations alike, or moves both on in step. -/
theorem InStep.blockStep (h : InStep r q s t) :
    ∃ s' t', blockStep s = .next s' ∧ blockStep t = .next t' ∧
      (EndedAlike s' t' ∨ ∃ r' q', InStep r' q' s' t' ∧ r'.n = r.n ∧ r.rd < r'.rd) := by
  have n : q.n = r.n := by rw [h.run]
  have rd : q.rd = r.rd := by rw [h.run]
  by_cases inside : r.rd < r.n
  · obtain ⟨size, bytes⟩ := h.blockEmission_eq inside
    refine ⟨_, _, blockStep_inside h.left inside, blockStep_inside h.right (by rwa [n, rd]), ?_⟩
    rw [n, rd, ← size]
    by_cases fits : r.rd + (blockEmission r s).2 ≤ r.n
    · rw [if_pos fits, if_pos fits, ← bytes fits]
      exact .inr ⟨_, _, h.advance _ fits, rfl, Nat.lt_add_of_pos_right (blockEmission_consumes s inside)⟩
    · rw [if_neg fits, if_neg fits]
      exact .inl (h.raiseError _)
  · have atEnd : r.rd = r.n := Nat.le_antisymm h.within (Nat.not_lt.mp inside)
    exact ⟨_, _, blockStep_atEnd h.left atEnd, blockStep_atEnd h.right (by rw [n, rd, atEnd]), .inl h.complete⟩

end

/-- Operations in step end alike: `N - RD + 1` block steps are enough (40_commands.md R112). -/
theorem InStep.blockSteps {k : Nat} {r q : Run} {s t : State} (h : InStep r q s t) (enough : r.n < r.rd + k) :
    ∃ u v, blockSteps k s = .next u ∧ blockSteps k t = .next v ∧ EndedAlike u v := by
  induction k generalizing r q s t with
  | zero => exact absurd h.within (by omega)
  | succ k ih =>
    obtain ⟨s', t', left, right, ended | ⟨r', q', h', n, moved⟩⟩ := h.blockStep <;>
      rw [blockSteps_succ left, blockSteps_succ right]
    · exact ⟨s', t', blockSteps_idle ended.left k, blockSteps_idle ended.right k, ended⟩
    · exact ih h' (by omega)

theorem startOp_sameIn (op : CodecOp) (s : State) : SameIn s (startOp op s) := ⟨rfl, fun _ => rfl⟩

/-- The snapshot of a written cell is its byte, wherever the draws begin (41_encoder.md R120). -/
theorem snapByte_written {s : State} {i : Nat} {b : Byte} (written : Memory.read s.inBuf i = some b) (r : Run) :
    snapByte r s i = b := by
  rw [snapByte, written]

/-- Operations started on one input are in step: under CleanStart no byte of it is a draw (70_reset_and_hazards.md
R243). -/
theorem InStep.start {s t : State} (op : CodecOp)
    (written : ∀ a, a < s.inLen.toNat → (Memory.read s.inBuf a).isSome = true) (outCap : s.params.outCap = t.params.outCap) (inLen : s.inLen = t.inLen)
    (input : ∀ a, a < s.inLen.toNat → Memory.read s.inBuf a = Memory.read t.inBuf a) :
    InStep ⟨op, s.inLen.toNat, 0, 0, s.draws⟩ ⟨op, s.inLen.toNat, 0, 0, t.draws⟩ (startOp op s) (startOp op t) where
  left := rfl
  right := by rw [startOp_fsm, inLen]
  run := rfl
  outCap := outCap
  within := Nat.zero_le _
  input i hi := by
    obtain ⟨b, hb⟩ := Option.isSome_iff_exists.mp (written i hi)
    rw [snapByte_written (s := startOp op s) hb, snapByte_written (s := startOp op t) ((input i hi).symm.trans hb)]
  output := nofun

end Sys2Proof.Machine

namespace Sys2Proof.Proofs

open Sys2Proof.Machine

/-- Settles O42: started on one input the two operations are in step, each block step keeps them so or ends both, and
operations that end from in step show the host the same. -/
theorem operationDependsOnItsInputAlone : Obligations.OperationDependsOnItsInputAlone := by
  intro i s₁ s₂ hi ⟨_, idle₁, fits₁, written⟩ ⟨_, idle₂, fits₂, _⟩ _ _ outCap inLen input
  obtain ⟨op, rfl⟩ := exists_command_eq hi
  obtain ⟨u₁, u₂, run₁, run₂, ended⟩ :=
    (InStep.start op written outCap inLen input).blockSteps (k := s₁.inLen.toNat + 1) (by simp)
  exact ⟨_, _, u₁, u₂, exec_command_fits idle₁ fits₁ op, exec_command_fits idle₂ fits₂ op, run₁, run₂,
    ended.left, ended.right, ended.endState_eq, (startOp_sameIn op s₁).trans (blockSteps_sameIn run₁),
    (startOp_sameIn op s₂).trans (blockSteps_sameIn run₂)⟩

/-- Settles O17, by whose turn it is: the block's steps end an operation by COMPLETE or a raise, and no input but reset
does. -/
theorem operationEndsByCompletionRaiseOrReset : Obligations.OperationEndsByCompletionRaiseOrReset := by
  intro s t r h running ended
  have running' : (popTurn s).fsm = .running r := running
  rcases step_cases s with ⟨turn, e⟩ | ⟨turn, e⟩ <;> rw [e] at h
  · rcases blockStep_cases (popTurn s) with
      ⟨idle, -⟩ | ⟨q, hq, atEnd, e⟩ | ⟨q, hq, -, -, e⟩ | ⟨q, hq, -, -, ⟨-, e⟩ | ⟨-, e⟩⟩ | ⟨q, hq, -, e⟩
    · rw [running'] at idle
      cases idle
    all_goals
      rw [running'] at hq
      cases hq
      cases e.symm.trans h
    · rcases complete_cases r (popTurn s) with ⟨-, e⟩ | ⟨fits, e⟩
      · exact .inr (.inl ⟨turn, _, by decide, e⟩)
      · exact .inl ⟨turn, atEnd, fits, e⟩
    · cases ended
    · exact .inr (.inl ⟨turn, _, by decide, rfl⟩)
    · cases ended
  · have reset := hostStep_ends_only_by_reset h running' ended
    exact .inr (.inr ⟨turn, reset⟩)

/-- Settles O41: with input left the block at `RD` is emitted, consuming at least one byte, or its raise ends the
operation. -/
theorem everyBlockStepEndsOrAdvances : Obligations.EveryBlockStepEndsOrAdvances := by
  intro s r running inside
  refine ⟨_, blockStep_inside running inside, ?_⟩
  split_ifs with fits
  · exact .inr ⟨_, advance_running .., rfl, rfl, Nat.add_le_add_left (blockEmission_consumes s inside) r.rd, fits⟩
  · exact .inl rfl

/-- Settles O8: each of the three codes decodes, and any other word is ILLEGAL. -/
theorem commandWordSelectsItsCommand : Obligations.CommandWordSelectsItsCommand := by
  intro w s
  split_ifs with h0 h1 h2
  · exact h0 ▸ rfl
  · exact h1 ▸ rfl
  · exact h2 ▸ rfl
  · exact writeCmd_illegal h0 h1 h2 s

/-- Settles O9: an accepted NOP clears the two fields of STATUS and is idle as before. -/
theorem nopClearsDoneAndErr : Obligations.NopClearsDoneAndErr := by
  intro s idle
  exact ⟨clearStatus s, acceptIdle_idle idle clearStatus, rfl, rfl, statusWord_clearStatus idle, idle, rfl, ⟨rfl, fun _ => rfl⟩,
    fun _ => rfl, rfl, rfl, rfl, rfl, rfl, rfl⟩

/-- Settles O10, for both operations at once. -/
theorem encodeAndDecodeStartTheirOperation : Obligations.EncodeAndDecodeStartTheirOperation := by
  intro s idle fits p hp
  obtain ⟨op, rfl⟩ : ∃ op : CodecOp, (op.command, op) = p := by
    simp only [List.mem_cons, List.not_mem_nil, or_false] at hp
    rcases hp with rfl | rfl
    · exact ⟨.enc, rfl⟩
    · exact ⟨.dec, rfl⟩
  exact ⟨startOp op s, _, exec_command_fits idle fits op, rfl, rfl, rfl, rfl, rfl, statusWord_busy rfl rfl rfl, rfl,
    startOp_sameIn op s, fun _ => rfl, rfl, rfl, rfl, rfl, rfl, rfl⟩

/-- Settles O11: an accepted command whose input does not fit IN is rejected. -/
theorem overlongInputIsRejectedAtAcceptance : Obligations.OverlongInputIsRejectedAtAcceptance := by
  intro s idle overlong i hi
  obtain ⟨op, rfl⟩ : ∃ op : CodecOp, op.command = i := exists_command_eq (by simpa using hi)
  exact ⟨_, exec_command_overlong idle overlong op, idle, statusWord_rejectCommand idle _, rfl, ⟨rfl, fun _ => rfl⟩,
    fun _ => rfl, rfl, rfl, rfl, rfl, rfl, rfl, rfl⟩

/-- Settles O12: the word is ILLEGAL, which an idle block rejects. -/
theorem illegalCommandWordIsRejected : Obligations.IllegalCommandWordIsRejected := by
  intro w s idle h0 h1 h2
  have rejected : writeCmd w s = .next (rejectCommand .illegalCmd s) :=
    (writeCmd_illegal h0 h1 h2 s).trans (acceptIdle_idle idle _)
  exact ⟨_, rejected, idle, statusWord_rejectCommand idle _, rfl, ⟨rfl, fun _ => rfl⟩, fun _ => rfl, rfl, rfl, rfl, rfl, rfl,
    rfl⟩

/-- Settles O13: a busy block accepts no command, by the bus or by its meaning. -/
theorem commandWhileBusyOnlySetsViolated : Obligations.CommandWhileBusyOnlySetsViolated := by
  intro s busy
  refine ⟨fun w => ?_, ?_⟩
  · rw [busWrite_reg s w (by decide) (by decide), regWrite_cmd, writeCmd_busy busy, violate]
  · simp only [List.forall_mem_cons]
    exact ⟨acceptIdle_busy busy _, acceptIdle_busy busy _, acceptIdle_busy busy _, nofun⟩

/-- Settles O14: COMPLETE tests the count against OUT_CAP. -/
theorem endOfInputCompletesTheOperation : Obligations.EndOfInputCompletesTheOperation := by
  intro s r running atEnd
  have step := blockStep_atEnd running atEnd
  rcases complete_cases r s with ⟨overflows, e⟩ | ⟨fits, e⟩ <;> rw [e] at step
  · exact ⟨fun fits => absurd fits (Nat.not_le.mpr overflows), fun _ => step⟩
  · obtain ⟨hin, hhost, -⟩ := completeOk_writesOnlyOutput r s
    exact ⟨fun _ => ⟨_, step, rfl, statusWord_completeOk r s, rfl, rfl, hin, fun _ => rfl, hhost⟩,
      fun overflows => absurd fits (Nat.not_le.mpr overflows)⟩

/-- Settles O23: the host's turn takes the pending write, whose word is decoded at CMD. -/
theorem commandStepRunsTheDecodedCommand : Obligations.CommandStepRunsTheDecodedCommand := by
  intro s w i rest turn pending decodes
  calc step s
      = busWrite .reg 0x08 8 w { popTurn s with inputs := rest } := step_host turn pending
    _ = writeCmd w { popTurn s with inputs := rest } := by
      rw [busWrite_reg _ w (by decide) (by decide), regWrite_cmd]
    _ = exec i { s with turns := s.turns.tail, inputs := rest } := writeCmd_of_decodeCmd decodes _

end Sys2Proof.Proofs
end

section
/-! SUPPORT. The statements of 41_encoder.md: what the detection functions find, an encoding as its first block and the
rest, its blocks and their neighbours, its size, and the steps of an ENCODE. -/

namespace Sys2Proof.Machine

/-! ### The detection functions -/

section
variable {S : Nat → Byte} {n p : Nat}

/-- All that `RunLen` finds (41_encoder.md R121). -/
theorem runLen_spec (inside : p < n) :
    1 ≤ runLen S n p ∧ runLen S n p ≤ 128 ∧ p + runLen S n p ≤ n ∧
      (∀ j, j < runLen S n p → S (p + j) = S p) ∧
      (runLen S n p = 128 ∨ p + runLen S n p = n ∨ S (p + runLen S n p) ≠ S p) :=
  runScan_spec S n p 127 1 inside fun j hj => by rw [Nat.lt_one_iff.mp hj, Nat.add_zero]

theorem runStarts_iff {q : Nat} : runStarts S n q = true ↔ q + 1 < n ∧ S (q + 1) = S q := decide_eq_true_iff

theorem runStarts_iff_two_le_runLen (inside : p < n) : runStarts S n p = true ↔ 2 ≤ runLen S n p := by
  obtain ⟨pos, -, within, same, stop⟩ := runLen_spec (S := S) inside
  rw [runStarts_iff]
  constructor
  · rintro ⟨next, equal⟩
    by_contra short
    have one : runLen S n p = 1 := by omega
    rw [one] at stop
    rcases stop with cap | atEnd | differs
    · omega
    · omega
    · exact differs equal
  · intro two
    exact ⟨by omega, same 1 two⟩

theorem runStarts_eq_false_iff (inside : p < n) : runStarts S n p = false ↔ runLen S n p = 1 := by
  obtain ⟨pos, -⟩ := runLen_spec (S := S) inside
  rw [← Bool.not_eq_true, runStarts_iff_two_le_runLen inside]
  omega

/-- All that `LitLen` finds where no run starts (41_encoder.md R123): no run starts at any byte it takes. -/
theorem litLen_spec (inside : p < n) (noRun : runStarts S n p = false) :
    1 ≤ litLen S n p ∧ litLen S n p ≤ 128 ∧ p + litLen S n p ≤ n ∧
      (∀ j, j < litLen S n p → runStarts S n (p + j) = false) ∧
      (litLen S n p = 128 ∨ p + litLen S n p = n ∨ runStarts S n (p + litLen S n p) = true) := by
  obtain ⟨pos, cap, within, taken, stop⟩ := litScan_spec S n p 127 1 inside
  refine ⟨pos, cap, within, fun j hj => ?_, stop⟩
  cases j with
  | zero => exact noRun
  | succ j => exact taken (j + 1) (Nat.le_add_left 1 j) hj

end

/-! ### The front of an input -/

theorem getElem?_eq_byteAt {s : List Byte} {i : Nat} (inside : i < s.length) : s[i]? = some (byteAt s i) := by
  simp [byteAt, inside]

/-- All that `RunLen_s(0)` finds. -/
theorem firstRun_spec {s : List Byte} (nonempty : s ≠ []) :
    1 ≤ firstRun s ∧ firstRun s ≤ 128 ∧ firstRun s ≤ s.length ∧
      (∀ j, j < firstRun s → byteAt s j = byteAt s 0) ∧
      (firstRun s = 128 ∨ firstRun s = s.length ∨ byteAt s (firstRun s) ≠ byteAt s 0) := by
  simpa [firstRun] using runLen_spec (S := byteAt s) (List.length_pos_iff.mpr nonempty)

/-- A run starts at a position exactly when the rest of the input begins with one. -/
theorem runStarts_iff_two_le_firstRun {s : List Byte} {p : Nat} (inside : p < s.length) :
    runStarts (byteAt s) s.length p = true ↔ 2 ≤ firstRun (s.drop p) := by
  have rest : 0 < (s.drop p).length := by simp [inside]
  rw [firstRun, ← runStarts_iff_two_le_runLen rest, runStarts_iff, runStarts_iff]
  simp [byteAt, Nat.lt_sub_iff_add_lt']

/-- All that `LitLen_s(0)` finds when the input does not begin with a run. -/
theorem firstLit_spec {s : List Byte} (nonempty : s ≠ []) (noRun : firstRun s < 2) :
    1 ≤ firstLit s ∧ firstLit s ≤ 128 ∧ firstLit s ≤ s.length ∧
      (∀ j, j < firstLit s → runStarts (byteAt s) s.length j = false) ∧
      (firstLit s = 128 ∨ firstLit s = s.length ∨ runStarts (byteAt s) s.length (firstLit s) = true) := by
  have inside : 0 < s.length := List.length_pos_iff.mpr nonempty
  have noneAtFront : runStarts (byteAt s) s.length 0 = false := by
    rw [← Bool.not_eq_true, runStarts_iff_two_le_firstRun inside]
    exact Nat.not_le.mpr noRun
  simpa [firstLit] using litLen_spec inside noneAtFront

/-- The block the encoder emits at the front of a non-empty input (41_encoder.md R128). -/
def firstBlock (s : List Byte) : Block :=
  if 2 ≤ firstRun s then .run (firstRun s) (byteAt s 0) else .literal (s.take (firstLit s))

theorem firstBlock_of_run {s : List Byte} (run : 2 ≤ firstRun s) : firstBlock s = .run (firstRun s) (byteAt s 0) :=
  if_pos run

theorem firstBlock_of_noRun {s : List Byte} (noRun : firstRun s < 2) :
    firstBlock s = .literal (s.take (firstLit s)) :=
  if_neg (Nat.not_le.mpr noRun)

theorem len_literal_take {s : List Byte} (nonempty : s ≠ []) :
    (Block.literal (s.take (firstLit s))).len = firstLit s := by
  obtain ⟨-, -, within⟩ := firstLit_bounds nonempty
  simp [Block.len, within]

theorem firstBlock_canonical {s : List Byte} (nonempty : s ≠ []) : (firstBlock s).canonical = true := by
  rcases Nat.lt_or_ge (firstRun s) 2 with noRun | run
  · obtain ⟨pos, cap, within⟩ := firstLit_bounds nonempty
    simp [firstBlock_of_noRun noRun, Block.canonical, pos, cap, pos.trans within]
  · obtain ⟨-, cap, -⟩ := firstRun_bounds nonempty
    simp [firstBlock_of_run run, Block.canonical, run, cap]

/-- The first block stands for the bytes it covers. -/
theorem firstBlock_output {s : List Byte} (nonempty : s ≠ []) :
    (firstBlock s).output = s.take (firstBlock s).len := by
  rcases Nat.lt_or_ge (firstRun s) 2 with noRun | run
  · rw [firstBlock_of_noRun noRun, len_literal_take nonempty, Block.output]
  · obtain ⟨-, -, within, same, -⟩ := firstRun_spec nonempty
    rw [firstBlock_of_run run, Block.output, Block.len]
    refine List.ext_getElem (by simp [within]) fun i hi hi' => ?_
    have covered : i < firstRun s := by simpa using hi
    have byte := getElem?_eq_byteAt (covered.trans_le within)
    rw [same i covered, List.getElem?_eq_getElem (covered.trans_le within), Option.some_inj] at byte
    simp [byte]

theorem firstBlock_len_bounds {s : List Byte} (nonempty : s ≠ []) :
    1 ≤ (firstBlock s).len ∧ (firstBlock s).len ≤ 128 ∧ (firstBlock s).len ≤ s.length := by
  rcases Nat.lt_or_ge (firstRun s) 2 with noRun | run
  · rw [firstBlock_of_noRun noRun, len_literal_take nonempty]
    exact firstLit_bounds nonempty
  · rw [firstBlock_of_run run]
    exact firstRun_bounds nonempty

/-- The second equation of 41_encoder.md R128: the first block, then the rest. -/
theorem enc_eq_firstBlock {s : List Byte} (nonempty : s ≠ []) :
    enc s = (firstBlock s).bytes ++ enc (s.drop (firstBlock s).len) := by
  obtain ⟨v, rest, rfl⟩ := List.exists_cons_of_ne_nil nonempty
  rw [enc_cons]
  split_ifs with run
  · rw [firstBlock_of_run run]
    rfl
  · obtain ⟨-, -, within⟩ := firstLit_bounds nonempty
    rw [firstBlock_of_noRun (Nat.not_le.mp run), len_literal_take nonempty, Block.bytes, List.length_take,
      Nat.min_eq_left within, List.cons_append]

/-! ### An encoding as blocks -/

/-- The blocks the encoder emits for an input, in order (41_encoder.md R128). -/
def encBlocks : List Byte → List Block
  | [] => []
  | v :: rest => firstBlock (v :: rest) :: encBlocks ((v :: rest).drop (firstBlock (v :: rest)).len)
termination_by s => s.length
decreasing_by
  obtain ⟨pos, -, -⟩ := firstBlock_len_bounds (List.cons_ne_nil v rest)
  simp only [List.length_drop, List.length_cons]
  omega

@[simp] theorem encBlocks_nil : encBlocks [] = [] := by rw [encBlocks]

theorem encBlocks_of_ne_nil {s : List Byte} (nonempty : s ≠ []) :
    encBlocks s = firstBlock s :: encBlocks (s.drop (firstBlock s).len) := by
  obtain ⟨v, rest, rfl⟩ := List.exists_cons_of_ne_nil nonempty
  rw [encBlocks]

/-- The encoder goes through its input block by block: what holds of `[]`, and of an input when it holds of what its
first block leaves, holds of every input. -/
theorem encBlocks_induction {motive : List Byte → Prop} (nil : motive [])
    (step : ∀ s, s ≠ [] → motive (s.drop (firstBlock s).len) → motive s) (s : List Byte) : motive s := by
  induction s using encBlocks.induct with
  | case1 => exact nil
  | case2 v rest ih => exact step _ (List.cons_ne_nil v rest) ih

/-- What holds of every first block holds of every block of an encoding. -/
theorem forall_mem_encBlocks {P : Block → Prop} (first : ∀ s, s ≠ [] → P (firstBlock s)) (s : List Byte) :
    ∀ b ∈ encBlocks s, P b := by
  induction s using encBlocks_induction with
  | nil => simp
  | step s nonempty ih =>
    rw [encBlocks_of_ne_nil nonempty, List.forall_mem_cons]
    exact ⟨first s nonempty, ih⟩

theorem assembleBlocks_encBlocks (s : List Byte) : assembleBlocks (encBlocks s) = enc s := by
  induction s using encBlocks_induction with
  | nil => simp [assembleBlocks]
  | step s nonempty ih =>
    rw [encBlocks_of_ne_nil nonempty, enc_eq_firstBlock nonempty, ← ih, assembleBlocks, assembleBlocks,
      List.flatMap_cons]

theorem flatMap_output_encBlocks (s : List Byte) : (encBlocks s).flatMap Block.output = s := by
  induction s using encBlocks_induction with
  | nil => simp
  | step s nonempty ih =>
    rw [encBlocks_of_ne_nil nonempty, List.flatMap_cons, ih, firstBlock_output nonempty, List.take_append_drop]

/-- A stream that begins with a canonical block is read as that block and the rest. -/
theorem blocksOf_bytes_append {b : Block} (canonical : b.canonical = true) (t : List Byte) :
    blocksOf (b.bytes ++ t) = (blocksOf t).map (b :: ·) := by
  cases b with
  | literal raw =>
    obtain ⟨pos, cap⟩ : 1 ≤ raw.length ∧ raw.length ≤ 128 := of_decide_eq_true canonical
    have len := controlLen_literalControl pos cap
    rw [Block.bytes, List.cons_append, blocksOf_lit (controlIsRun_literalControl pos cap) (by simp [len]), len,
      List.take_left, List.drop_left]
  | run len fill =>
    obtain ⟨two, cap⟩ : 2 ≤ len ∧ len ≤ 128 := of_decide_eq_true canonical
    have read := blocksOf_run (controlIsRun_runControl len) fill t
    rwa [controlLen_runControl (by omega) cap] at read

/-- Canonical blocks are read back from their bytes (30_encoding.md R70, R72). -/
theorem blocksOf_assembleBlocks {bs : List Block} (canonical : ∀ b ∈ bs, b.canonical = true) :
    blocksOf (assembleBlocks bs) = some bs := by
  induction bs with
  | nil => rfl
  | cons b bs ih =>
    obtain ⟨first, later⟩ := List.forall_mem_cons.mp canonical
    rw [assembleBlocks, List.flatMap_cons, ← assembleBlocks, blocksOf_bytes_append first, ih later, Option.map_some]

theorem encBlocks_canonical (s : List Byte) : ∀ b ∈ encBlocks s, b.canonical = true :=
  forall_mem_encBlocks (fun _ => firstBlock_canonical) s

theorem blocksOf_enc (s : List Byte) : blocksOf (enc s) = some (encBlocks s) := by
  rw [← assembleBlocks_encBlocks, blocksOf_assembleBlocks (encBlocks_canonical s)]

/-! ### Neighbouring blocks -/

/-- What 41_encoder.md R129 says of a block and the one after it. -/
def Separated : Block → Block → Prop
  | .literal raw, b => raw.getLast? ≠ b.output.head? ∧ (raw.length < 128 → ∃ n v, b = .run n v)
  | .run n v, b => n < 128 → b.output.head? ≠ some v

/-- Two consecutive elements of a chain, found by their places. -/
theorem rel_of_isChain {α : Type} {R : α → α → Prop} {l : List α} (chain : l.IsChain R) {k : Nat} {a b : α}
    (ha : l[k]? = some a) (hb : l[k + 1]? = some b) : R a b := by
  obtain ⟨-, rfl⟩ := List.getElem?_eq_some_iff.mp ha
  obtain ⟨inside, rfl⟩ := List.getElem?_eq_some_iff.mp hb
  exact List.isChain_iff_getElem.mp chain k inside

theorem run_output_head? {m : Nat} (pos : 1 ≤ m) (v : Byte) : (Block.run m v).output.head? = some v := by
  rw [Block.output, List.head?_replicate, if_neg (by omega)]

theorem firstBlock_output_head? {s : List Byte} (nonempty : s ≠ []) : (firstBlock s).output.head? = s.head? := by
  obtain ⟨pos, -, -⟩ := firstBlock_len_bounds nonempty
  rw [firstBlock_output nonempty, List.head?_take, if_neg (by omega)]

/-- Where no run starts the two bytes differ. -/
theorem byteAt_succ_ne {s : List Byte} {j : Nat} (noRun : runStarts (byteAt s) s.length j = false)
    (inside : j + 1 < s.length) : byteAt s j ≠ byteAt s (j + 1) := fun equal => by
  rw [← Bool.not_eq_true, runStarts_iff] at noRun
  exact noRun ⟨inside, equal.symm⟩

/-- Inside a literal no two neighbours are equal (41_encoder.md R129). -/
theorem firstBlock_literal_isChain {s : List Byte} (nonempty : s ≠ []) {raw : List Byte}
    (literal : firstBlock s = .literal raw) : raw.IsChain (· ≠ ·) := by
  rcases Nat.lt_or_ge (firstRun s) 2 with noRun | run
  · obtain ⟨-, -, within, taken, -⟩ := firstLit_spec nonempty noRun
    rw [firstBlock_of_noRun noRun, Block.literal.injEq] at literal
    subst literal
    refine List.isChain_iff_getElem.mpr fun i hi => ?_
    have inside : i + 1 < firstLit s := by simp at hi; omega
    have differ := byteAt_succ_ne (taken i (by omega)) (by omega)
    simpa [byteAt, (by omega : i < s.length), (by omega : i + 1 < s.length)] using differ
  · rw [firstBlock_of_run run] at literal
    cases literal

theorem encBlocks_literal_isChain (s : List Byte) {raw : List Byte} (member : .literal raw ∈ encBlocks s) :
    raw.IsChain (· ≠ ·) :=
  forall_mem_encBlocks (P := fun b => ∀ raw, b = .literal raw → raw.IsChain (· ≠ ·))
    (fun _ nonempty _ => firstBlock_literal_isChain nonempty) s _ member raw rfl

/-- The first block of an input and the next one, when there is one, are separated. -/
theorem firstBlock_separated {s : List Byte} (more : s.drop (firstBlock s).len ≠ []) :
    Separated (firstBlock s) (firstBlock (s.drop (firstBlock s).len)) := by
  have nonempty : s ≠ [] := by rintro rfl; simp at more
  have nextHead := firstBlock_output_head? more
  rcases Nat.lt_or_ge (firstRun s) 2 with noRun | run
  · obtain ⟨pos, -, -, taken, stop⟩ := firstLit_spec nonempty noRun
    rw [firstBlock_of_noRun noRun, len_literal_take nonempty] at more nextHead ⊢
    have inside : firstLit s < s.length := by simpa using more
    refine ⟨?_, fun short => ?_⟩
    · rw [nextHead, List.head?_drop, getElem?_eq_byteAt inside, List.getLast?_take, if_neg (by omega),
        getElem?_eq_byteAt (by omega), Option.some_or, Ne, Option.some_inj]
      have differ := byteAt_succ_ne (taken (firstLit s - 1) (by omega)) (by omega)
      rwa [Nat.sub_add_cancel pos] at differ
    · have runNext : runStarts (byteAt s) s.length (firstLit s) = true := by
        rcases stop with cap | atEnd | runNext
        · simp at short
          omega
        · omega
        · exact runNext
      exact ⟨_, _, firstBlock_of_run ((runStarts_iff_two_le_firstRun inside).mp runNext)⟩
  · obtain ⟨-, -, -, -, stop⟩ := firstRun_spec nonempty
    rw [firstBlock_of_run run, Block.len] at more nextHead ⊢
    have inside : firstRun s < s.length := by simpa using more
    intro short
    rw [nextHead, List.head?_drop, getElem?_eq_byteAt inside, Ne, Option.some_inj]
    rcases stop with cap | atEnd | differs
    · omega
    · omega
    · exact differs

theorem encBlocks_isChain (s : List Byte) : (encBlocks s).IsChain Separated := by
  induction s using encBlocks_induction with
  | nil => simp
  | step s nonempty ih =>
    rw [encBlocks_of_ne_nil nonempty, List.isChain_cons]
    refine ⟨fun b next => ?_, ih⟩
    have more : s.drop (firstBlock s).len ≠ [] := fun ended => by simp [ended] at next
    rw [encBlocks_of_ne_nil more, List.head?_cons, Option.mem_some_iff] at next
    exact next ▸ firstBlock_separated more

/-! ### The size of an encoding -/

theorem length_enc_eq_firstBlock {s : List Byte} (nonempty : s ≠ []) :
    (enc s).length = (firstBlock s).bytes.length + (enc (s.drop (firstBlock s).len)).length := by
  rw [enc_eq_firstBlock nonempty, List.length_append]

theorem two_le_bytes_length {b : Block} (canonical : b.canonical = true) : 2 ≤ b.bytes.length := by
  cases b with
  | literal raw =>
    obtain ⟨pos, -⟩ : 1 ≤ raw.length ∧ raw.length ≤ 128 := of_decide_eq_true canonical
    simp only [Block.bytes, List.length_cons]
    omega
  | run len fill => exact le_rfl

/-- Every block covers at most 128 bytes and costs at least 2 (41_encoder.md R131). -/
theorem le_length_enc (s : List Byte) : 2 * ((s.length + 127) / 128) ≤ (enc s).length := by
  induction s using encBlocks_induction with
  | nil => simp
  | step s nonempty ih =>
    have cost := two_le_bytes_length (firstBlock_canonical nonempty)
    obtain ⟨-, cap, -⟩ := firstBlock_len_bounds nonempty
    rw [length_enc_eq_firstBlock nonempty]
    rw [List.length_drop] at ih
    omega

/-- The upper bound, and the better one of an input that does not begin with a literal: a literal shorter than 128 costs
one byte more than it covers, which the run after it pays back (41_encoder.md R131). -/
theorem length_enc_le (s : List Byte) :
    3 * (enc s).length ≤ 4 * s.length + 2 ∧
      (s = [] ∨ 2 ≤ firstRun s → 3 * (enc s).length ≤ 4 * s.length) := by
  induction s using encBlocks_induction with
  | nil => simp
  | step s nonempty ih =>
    obtain ⟨bound, paid⟩ := ih
    rw [length_enc_eq_firstBlock nonempty]
    rcases Nat.lt_or_ge (firstRun s) 2 with noRun | run
    · obtain ⟨pos, -, within, -, stop⟩ := firstLit_spec nonempty noRun
      rw [firstBlock_of_noRun noRun, len_literal_take nonempty] at bound paid ⊢
      have cost : (Block.literal (s.take (firstLit s))).bytes.length = firstLit s + 1 := by
        simp [Block.bytes, within]
      rw [List.length_drop] at bound paid
      refine ⟨?_, fun other => by simp [nonempty, Nat.not_le.mpr noRun] at other⟩
      rcases stop with cap | atEnd | runNext
      · omega
      · have rest := paid (.inl (by simp [atEnd]))
        omega
      · obtain ⟨next, -⟩ := runStarts_iff.mp runNext
        have rest := paid (.inr ((runStarts_iff_two_le_firstRun (by omega)).mp runNext))
        omega
    · obtain ⟨-, -, within⟩ := firstRun_bounds nonempty
      rw [firstBlock_of_run run, Block.len] at bound ⊢
      have cost : (Block.run (firstRun s) (byteAt s 0)).bytes.length = 2 := rfl
      rw [List.length_drop] at bound
      omega

/-- A constant input reaches the lower bound. -/
theorem length_enc_replicate (n : Nat) (v : Byte) : (enc (List.replicate n v)).length = 2 * ((n + 127) / 128) := by
  induction n using Nat.strong_induction_on with
  | _ n ih =>
    by_cases two : 2 ≤ n
    · have cost : (Block.run (min n 128) v).bytes.length = 2 := rfl
      rw [enc_replicate two, List.length_append, cost, ih (n - 128) (by omega)]
      omega
    · obtain rfl | rfl : n = 0 ∨ n = 1 := by omega
      · rfl
      · exact congrArg List.length (enc_singleton v)

/-- Two equal bytes before another byte, or at the end, are one run block. -/
theorem firstBlock_pair {b : Byte} {rest : List Byte} (other : rest.head? ≠ some b) :
    firstBlock (b :: b :: rest) = .run 2 b := by
  obtain ⟨-, -, within, same, -⟩ := firstRun_spec (List.cons_ne_nil b (b :: rest))
  have run : 2 ≤ firstRun (b :: b :: rest) :=
    (runStarts_iff_two_le_firstRun (p := 0) (by simp)).mp (runStarts_iff.mpr ⟨by simp, rfl⟩)
  have stop : firstRun (b :: b :: rest) ≤ 2 := by
    by_contra long
    cases rest with
    | nil => exact long within
    | cons c rest => exact other (congrArg some (same 2 (by omega)))
  rw [firstBlock_of_run run, Nat.le_antisymm stop run]
  rfl

/-- A byte before two equal ones that differ from it is a literal of its own. -/
theorem firstBlock_single {a b : Byte} (differ : a ≠ b) (rest : List Byte) :
    firstBlock (a :: b :: b :: rest) = .literal [a] := by
  have noRun : firstRun (a :: b :: b :: rest) < 2 := by
    by_contra run
    obtain ⟨-, equal⟩ := runStarts_iff.mp
      ((runStarts_iff_two_le_firstRun (s := a :: b :: b :: rest) (p := 0) (by simp)).mpr (Nat.not_lt.mp run))
    exact differ equal.symm
  obtain ⟨pos, -, -, taken, -⟩ := firstLit_spec (List.cons_ne_nil a _) noRun
  have stop : firstLit (a :: b :: b :: rest) ≤ 1 := by
    by_contra long
    have noRunNext := taken 1 (by omega)
    rw [← Bool.not_eq_true, runStarts_iff] at noRunNext
    exact noRunNext ⟨by simp, rfl⟩
  rw [firstBlock_of_noRun noRun, Nat.le_antisymm stop pos]
  rfl

/-- One piece of the pattern `a b b` costs 4 bytes, whatever byte other than `b` comes next (41_encoder.md R131). -/
theorem length_enc_single_pair {a b : Byte} (differ : a ≠ b) {rest : List Byte} (other : rest.head? ≠ some b) :
    (enc (a :: b :: b :: rest)).length = 4 + (enc rest).length := by
  have pair : (enc (b :: b :: rest)).length = 2 + (enc rest).length := by
    simp [length_enc_eq_firstBlock, firstBlock_pair other, Block.bytes, Block.len]
  simp [length_enc_eq_firstBlock (List.cons_ne_nil a _), firstBlock_single differ, Block.bytes, Block.len, pair]
  omega

/-- The pattern `a b b` reaches the upper bound: 4 bytes for 3 (41_encoder.md R131). -/
theorem length_enc_pattern {a b : Byte} (differ : a ≠ b) (k : Nat) :
    (enc (List.replicate k [a, b, b]).flatten).length = 4 * k := by
  induction k with
  | zero => rfl
  | succ k ih =>
    have other : (List.replicate k [a, b, b]).flatten.head? ≠ some b := by
      cases k <;> simp [List.replicate_succ, differ]
    have step := length_enc_single_pair differ other
    rw [ih] at step
    rw [List.replicate_succ, List.flatten_cons]
    exact step.trans (by omega)

/-! ### The encoder's steps -/

/-- What is left of the input at `RD`. -/
def remaining (r : Run) (s : State) : List Byte := snapSlice r s r.rd (r.n - r.rd)

theorem remaining_ne_nil {r : Run} (s : State) (inside : r.rd < r.n) : remaining r s ≠ [] :=
  List.length_pos_iff.mp (by simp [remaining, inside])

theorem remaining_after (bytes : List Byte) (k : Nat) (r : Run) (s : State) :
    remaining (r.after k bytes.length) (advance bytes k r s) = (remaining r s).drop k := by
  rw [remaining, remaining, snapSlice_drop, Nat.sub_sub]
  exact congrFun (congrFun (snapSlice_congr rfl rfl) _) _

/-- The encoder's step emits the first block of what is left (41_encoder.md R128). -/
theorem encodeEmission_eq_firstBlock {r : Run} (s : State) (inside : r.rd < r.n) :
    encodeEmission r s = ((firstBlock (remaining r s)).bytes, (firstBlock (remaining r s)).len) := by
  have nonempty := remaining_ne_nil s inside
  rw [encodeEmission, runLen_snapshot r s inside, litLen_snapshot r s inside, ← remaining]
  split_ifs with run
  · have first : byteAt (remaining r s) 0 = snapByte r s r.rd := by
      simp [byteAt, remaining, List.getD, inside]
    rw [firstBlock_of_run run, first]
    rfl
  · obtain ⟨-, -, within⟩ := firstLit_bounds nonempty
    have raw : (remaining r s).take (firstLit (remaining r s)) = snapSlice r s r.rd (firstLit (remaining r s)) :=
      snapSlice_take r s r.rd (r.n - r.rd) _ (by simpa [remaining] using within)
    rw [firstBlock_of_noRun (Nat.not_le.mp run), len_literal_take nonempty, raw, Block.bytes, snapSlice_length]

/-- A running ENCODE with input left emits one block (41_encoder.md R125, R126). -/
theorem blockStep_encode {s : State} {r : Run} (running : s.fsm = .running r) (op : r.op = .enc) (inside : r.rd < r.n) :
    blockStep s = .next (advance (encodeEmission r s).1 (encodeEmission r s).2 r s) := by
  obtain ⟨-, within, -⟩ := encodeEmission_bounds s inside
  simpa [blockEmission, op, within] using blockStep_inside running inside

theorem complete_fits {r : Run} {s : State} (fits : r.wr ≤ s.params.outCap) : complete r s = completeOk r s :=
  if_neg (Nat.not_lt.mpr fits)

theorem complete_overflows {r : Run} {s : State} (overflows : s.params.outCap < r.wr) :
    complete r s = raiseError .outputOverflow r s :=
  if_pos overflows

theorem complete_idle (r : Run) (s : State) : (complete r s).fsm = .idle := by
  rcases complete_cases r s with ⟨-, e⟩ | ⟨-, e⟩ <;> rw [e] <;> rfl

theorem advance_nothing {s : State} {r : Run} (running : s.fsm = .running r) : advance [] 0 r s = s := by
  cases s
  cases running
  rfl

/-- The steps of an ENCODE emit the encoding of what is left and complete (41_encoder.md R127, R128). -/
theorem blockSteps_encode {k : Nat} {s : State} {r : Run} (running : s.fsm = .running r) (op : r.op = .enc)
    (within : r.rd ≤ r.n) (enough : r.n < r.rd + k) :
    blockSteps k s = .next (complete (r.after (r.n - r.rd) (enc (remaining r s)).length)
      (advance (enc (remaining r s)) (r.n - r.rd) r s)) := by
  induction k generalizing r s with
  | zero => omega
  | succ k ih =>
    by_cases inside : r.rd < r.n
    · have nonempty := remaining_ne_nil s inside
      have step := blockStep_encode running op inside
      obtain ⟨pos, fits, -⟩ := encodeEmission_bounds s inside
      rw [encodeEmission_eq_firstBlock s inside] at step pos fits
      simp only at step pos fits
      rw [blockSteps_succ step, ih (advance_running ..) op fits (by simp only [Run.after]; omega), remaining_after,
        advance_advance, ← enc_eq_firstBlock nonempty]
      have length := length_enc_eq_firstBlock nonempty
      have consumed : (firstBlock (remaining r s)).len + (r.n - (r.rd + (firstBlock (remaining r s)).len)) =
          r.n - r.rd := by omega
      simp only [Run.after, consumed, Nat.add_assoc, ← length]
    · have atEnd : r.rd = r.n := by omega
      have nothing : remaining r s = [] := by simp [remaining, atEnd, snapSlice]
      have completed : blockSteps (k + 1) s = .next (complete r s) := by
        rw [blockSteps_succ (blockStep_atEnd running atEnd), blockSteps_idle (complete_idle r s)]
      rw [completed, nothing, atEnd, Nat.sub_self, enc_nil, advance_nothing running]
      rfl

/-! ### What advancing shows -/

/-- Emitting a block does not change STATUS (41_encoder.md R125, R126). -/
theorem statusWord_advance {s : State} {r : Run} (running : s.fsm = .running r) (bytes : List Byte) (k : Nat) :
    statusWord (advance bytes k r s) = statusWord s := by
  simp [statusWord, isBusy_running running, isBusy_running (advance_running bytes k r s)]

/-- The byte numbered `j` of a block lands in cell `WR + j`, where that cell exists (41_encoder.md R124). -/
theorem advance_read_emitted {bytes : List Byte} {j : Nat} (k : Nat) {r : Run} {s : State} (emitted : j < bytes.length)
    (stored : r.wr + j < s.params.outCap) : Memory.read (advance bytes k r s).outBuf (r.wr + j) = bytes[j]? := by
  rw [advance_outBuf, emitAll_read, if_pos (by omega), Nat.add_sub_cancel_left]

theorem advance_read_other {bytes : List Byte} {a : Nat} (k : Nat) {r : Run} {s : State}
    (other : ¬(r.wr ≤ a ∧ a < r.wr + bytes.length ∧ a < s.params.outCap)) :
    Memory.read (advance bytes k r s).outBuf a = Memory.read s.outBuf a := by
  rw [advance_outBuf, emitAll_read, if_neg other]

/-- What one encoder step shows, for the block it emits (41_encoder.md R124 to R126). -/
theorem blockStep_encode_shows {s : State} {r : Run} (running : s.fsm = .running r) (op : r.op = .enc)
    (inside : r.rd < r.n) {bytes : List Byte} {len m : Nat} (emission : encodeEmission r s = (bytes, len))
    (count : bytes.length = m) :
    ∃ t, blockStep s = .next t ∧ t.fsm = .running (r.after len m) ∧
      (∀ j, j < m → r.wr + j < s.params.outCap → Memory.read t.outBuf (r.wr + j) = bytes[j]?) ∧
      (∀ a, ¬(r.wr ≤ a ∧ a < r.wr + m ∧ a < s.params.outCap) →
        Memory.read t.outBuf a = Memory.read s.outBuf a) ∧
      statusWord t = statusWord s ∧ t.outLen = s.outLen ∧ SameIn s t ∧ SameHostSide s t := by
  subst count
  have step := blockStep_encode running op inside
  rw [emission] at step
  obtain ⟨sameIn, sameHostSide, -⟩ := blockStep_writesOnlyOutput step
  exact ⟨_, step, advance_running .., fun _ => advance_read_emitted len, fun _ => advance_read_other len,
    statusWord_advance running bytes len, rfl, sameIn, sameHostSide⟩

/-! ### The whole operation -/

theorem WritesOnlyOutput.trans {s t u : State} (h : WritesOnlyOutput s t) (h' : WritesOnlyOutput t u) :
    WritesOnlyOutput s u := by
  obtain ⟨sameIn, ⟨params, violated, startedAt, inputs, turns, responses⟩, beyond⟩ := h
  obtain ⟨sameIn', ⟨params', violated', startedAt', inputs', turns', responses'⟩, beyond'⟩ := h'
  exact ⟨sameIn.trans sameIn', ⟨params'.trans params, violated'.trans violated, startedAt'.trans startedAt,
    inputs'.trans inputs, turns'.trans turns, responses'.trans responses⟩,
    fun a stored => (beyond' a (params ▸ stored)).trans (beyond a stored)⟩

/-- Block steps in a row store below OUT_CAP and nowhere else (20_memory.md R51). -/
theorem blockSteps_writesOnlyOutput {k : Nat} {s u : State} (h : blockSteps k s = .next u) : WritesOnlyOutput s u := by
  induction k generalizing s with
  | zero =>
    cases h
    exact .refl _
  | succ k ih =>
    cases e : blockStep s with
    | next t =>
      rw [blockSteps_succ e] at h
      exact (blockStep_writesOnlyOutput e).trans (ih h)
    | fault f => simp [blockSteps, e] at h
    | refused f => simp [blockSteps, e] at h

/-- The run that START leaves (40_commands.md R106). -/
def startRun (op : CodecOp) (s : State) : Run := ⟨op, s.inLen.toNat, 0, 0, s.draws⟩

theorem startOp_running (op : CodecOp) (s : State) : (startOp op s).fsm = .running (startRun op s) := rfl

/-- The snapshot holds the written bytes of IN (41_encoder.md R120). -/
theorem snapshot_written {s : State} {i : Nat} {b : Byte} {r : Run} (inside : i < r.n)
    (written : Memory.read s.inBuf i = some b) : (snapshot r s)[i]? = some b := by
  rw [snapshot, snapSlice_getElem?, if_pos inside, Nat.zero_add, snapByte_written written]

/-- A started operation has all of its snapshot left. -/
theorem remaining_start (op : CodecOp) (s : State) :
    remaining (startRun op s) (startOp op s) = snapshot (startRun op s) (startOp op s) := rfl

/-- A started ENCODE emits the encoding of its snapshot `S` and completes within `N + 1` steps (41_encoder.md R127). -/
theorem blockSteps_startOp_enc {s : State} {S : List Byte} (snap : snapshot (startRun .enc s) (startOp .enc s) = S) :
    blockSteps (s.inLen.toNat + 1) (startOp .enc s) =
      .next (complete ((startRun .enc s).after s.inLen.toNat (enc S).length)
        (advance (enc S) s.inLen.toNat (startRun .enc s) (startOp .enc s))) := by
  rw [← snap, ← remaining_start]
  exact blockSteps_encode (k := s.inLen.toNat + 1) (startOp_running .enc s) rfl (Nat.zero_le _) (by simp [startRun])

section
variable (r : Run) (s : State) (k : Nat) {bytes : List Byte}

/-- An operation whose whole output fits OUT ends in success with exactly that output (40_commands.md R108). -/
theorem complete_advance_fits (start : r.wr = 0) (cap : s.params.outCap ≤ 2 ^ 56)
    (fits : bytes.length ≤ s.params.outCap) {u : State}
    (ended : u = complete (r.after k bytes.length) (advance bytes k r s)) :
    statusWord u = 0x2 ∧ u.outLen.toNat = bytes.length ∧ u.freed = 0 ∧
      (∀ i, i < bytes.length → Memory.read u.outBuf i = bytes[i]?) ∧
      (∀ i, bytes.length ≤ i → Memory.read u.outBuf i = Memory.read s.outBuf i) := by
  have count : (r.after k bytes.length).wr = bytes.length := by simp [Run.after, start]
  rw [complete_fits (by rwa [count])] at ended
  subst ended
  refine ⟨statusWord_completeOk _ _, ?_, rfl, fun i emitted => ?_, fun i other => advance_read_other k (by omega)⟩
  · rw [completeOk_outLen, count, BitVec.toNat_ofNat, Nat.mod_eq_of_lt (by omega)]
  · simpa [start] using advance_read_emitted k (r := r) (s := s) emitted (by omega)

/-- An operation whose whole output exceeds OUT ends in OUTPUT_OVERFLOW with every cell of OUT left `any`
(60_exceptions.md R213, R215). -/
theorem complete_advance_overflows (start : r.wr = 0) (overflows : s.params.outCap < bytes.length) {u : State}
    (ended : u = complete (r.after k bytes.length) (advance bytes k r s)) :
    statusWord u = 0x22 ∧ u.outLen = 0 ∧ u.freed = s.params.outCap := by
  have count : (r.after k bytes.length).wr = bytes.length := by simp [Run.after, start]
  rw [complete_overflows (by rwa [count])] at ended
  subst ended
  refine ⟨statusWord_raiseError _ _ _, rfl, ?_⟩
  rw [raiseError_freed, count, advance_params, Nat.min_eq_right overflows.le]

end

end Sys2Proof.Machine

namespace Sys2Proof.Proofs

open Sys2Proof.Machine

/-- Settles O34, by induction over the blocks for the bounds, and by the two inputs that reach them. -/
theorem encodingSizeIsBounded : Obligations.EncodingSizeIsBounded := by
  refine ⟨fun s _ => ⟨le_length_enc s, ?_⟩, fun n v _ => length_enc_replicate n v, fun k a b _ differ => ?_⟩
  · obtain ⟨bound, -⟩ := length_enc_le s
    omega
  · rw [length_enc_pattern differ]
    omega

/-- Settles O35: the encoder's blocks are canonical, so they are read back from their bytes. -/
theorem encodingIsCanonical : Obligations.EncodingIsCanonical := fun s =>
  ⟨encBlocks s, blocksOf_enc s, List.all_eq_true.mpr (encBlocks_canonical s),
    assembleBlocks_encBlocks s, flatMap_output_encBlocks s⟩

/-- Settles O36: the blocks read are the encoder's own, of which any two neighbours are separated. -/
theorem encodingSeparatesRunsAndLiterals : Obligations.EncodingSeparatesRunsAndLiterals := by
  intro s bs read
  obtain rfl : encBlocks s = bs := Option.some_inj.mp ((blocksOf_enc s).symm.trans read)
  have separated : ∀ {k : Nat} {a b : Block}, (encBlocks s)[k]? = some a → (encBlocks s)[k + 1]? = some b →
      Separated a b := rel_of_isChain (encBlocks_isChain s)
  have canonical : ∀ {k : Nat} {b : Block}, (encBlocks s)[k]? = some b → b.canonical = true :=
    fun h => encBlocks_canonical s _ (List.mem_of_getElem? h)
  refine ⟨fun raw member j x y => rel_of_isChain (encBlocks_literal_isChain s member),
    fun k raw b ha hb => (separated ha hb).1, fun k raw b ha short hb => (separated ha hb).2 short,
    fun k n v b ha short hb => separated ha hb short,
    fun k n m v ha hb => ?_⟩
  obtain ⟨-, cap⟩ : 2 ≤ n ∧ n ≤ 128 := of_decide_eq_true (canonical ha)
  obtain ⟨two, -⟩ : 2 ≤ m ∧ m ≤ 128 := of_decide_eq_true (canonical hb)
  by_contra notFull
  exact separated ha hb (by omega) (run_output_head? (by omega) v)

/-- Settles O39: the steps emit the encoding of the snapshot, and COMPLETE tests its length against OUT_CAP. -/
theorem encodeOperationComputesEnc : Obligations.EncodeOperationComputesEnc := by
  intro s wf idle fits
  obtain ⟨-, -, -, cap⟩ := Params.caps_of_wellFormed wf
  have run := blockSteps_startOp_enc (s := s) rfl
  obtain ⟨sameIn, sameHostSide, beyond⟩ := blockSteps_writesOnlyOutput run
  refine ⟨_, startRun .enc s, _, exec_command_fits idle fits .enc, startOp_running .enc s,
    fun _ _ => snapshot_written (r := startRun .enc s) (s := startOp .enc s), snapSlice_length .., run,
    complete_idle _ _, sameIn, sameHostSide,
    complete_advance_fits (startRun .enc s) (startOp .enc s) s.inLen.toNat rfl cap (ended := rfl), fun long => ?_⟩
  obtain ⟨status, outLen, freed⟩ :=
    complete_advance_overflows (startRun .enc s) (startOp .enc s) s.inLen.toNat rfl long rfl
  exact ⟨status, outLen, freed, beyond⟩

/-- Settles O28, by what the scan finds. -/
theorem runLenIsTheCappedMaximalRun : Obligations.RunLenIsTheCappedMaximalRun := fun _ _ _ inside => runLen_spec inside

/-- Settles O29: the scan takes the second byte exactly when it exists and equals the first. -/
theorem runStartsWhereRunLenIsTwo : Obligations.RunStartsWhereRunLenIsTwo := fun _ _ _ inside =>
  runStarts_iff_two_le_runLen inside

/-- Settles O30, by what the scan finds, each run-start test read as `RunLen`. -/
theorem litLenStopsBeforeARun : Obligations.LitLenStopsBeforeARun := by
  intro S n p inside noRun
  obtain ⟨pos, cap, within, taken, stop⟩ := litLen_spec inside ((runStarts_eq_false_iff inside).mpr noRun)
  refine ⟨pos, cap, within, fun j _ hj => (runStarts_eq_false_iff (by omega)).mp (taken j hj), ?_⟩
  refine stop.imp_right (Or.imp_right fun run => ?_)
  obtain ⟨next, -⟩ := runStarts_iff.mp run
  exact (runStarts_iff_two_le_runLen (by omega)).mp run

/-- Settles O31: the block emitted at a run is the control byte and the repeated byte. -/
theorem encoderEmitsARunBlock : Obligations.EncoderEmitsARunBlock := by
  rintro s r len running op inside rfl two
  obtain ⟨t, step, after, emitted, other, same⟩ :=
    blockStep_encode_shows running op inside (m := 2) (if_pos two : encodeEmission r s = _) rfl
  exact ⟨t, step, after, emitted 0 (by decide), emitted 1 (by decide), other, same⟩

/-- Settles O32: the block emitted where no run starts is the control byte and the raw bytes. -/
theorem encoderEmitsALiteralBlock : Obligations.EncoderEmitsALiteralBlock := by
  rintro s r len running op inside noRun rfl
  obtain ⟨t, step, after, emitted, other, same⟩ :=
    blockStep_encode_shows running op inside (m := 1 + litLen (snapByte r s) r.n r.rd)
      (if_neg (by omega) : encodeEmission r s = _) (by simp [Nat.add_comm])
  refine ⟨t, step, after, emitted 0 (by omega), fun j raw stored => ?_, other, same⟩
  rw [Nat.add_assoc] at stored ⊢
  rw [emitted (1 + j) (by omega) stored, Nat.add_comm 1 j, List.getElem?_cons_succ, snapSlice_getElem?, if_pos raw]

end Sys2Proof.Proofs
end

section
/-! SUPPORT. The statements of 42_decoder.md: a stream as its complete blocks and what is left of a block cut short, what
the decoder makes of each, and the steps of a DECODE. -/

namespace Sys2Proof.Machine

/-! ### The front of a stream -/

/-- The blocks a stream can contain, each headed by a control byte (30_encoding.md R71, R73): those of the encoder and
the non-canonical run of one. -/
inductive Block.Encodable : Block → Prop
  | run {c : Byte} (kind : controlIsRun c = true) (fill : Byte) : Encodable (.run (controlLen c) fill)
  | literal {c : Byte} (kind : controlIsRun c = false) {raw : List Byte} (len : controlLen c = raw.length) :
      Encodable (.literal raw)

/-- A block cut short by the end of the stream (42_decoder.md R154). -/
inductive Truncated : List Byte → Prop
  | run {c : Byte} (kind : controlIsRun c = true) : Truncated [c]
  | literal {c : Byte} (kind : controlIsRun c = false) {t : List Byte} (short : t.length < controlLen c) :
      Truncated (c :: t)

theorem bytes_run {c : Byte} (kind : controlIsRun c = true) (fill : Byte) :
    (Block.run (controlLen c) fill).bytes = [c, fill] := by
  obtain ⟨-, code⟩ := encode_decodeControl c
  simpa [decodeControl, kind, encode, Block.bytes] using code

theorem bytes_literal {c : Byte} (kind : controlIsRun c = false) {raw : List Byte} (len : controlLen c = raw.length) :
    (Block.literal raw).bytes = c :: raw := by
  obtain ⟨-, code⟩ := encode_decodeControl c
  simpa [decodeControl, kind, encode, Block.bytes, len] using code

theorem encodable_run {len : Nat} (pos : 1 ≤ len) (cap : len ≤ 128) (fill : Byte) : (Block.run len fill).Encodable :=
  controlLen_runControl pos cap ▸ .run (controlIsRun_runControl len) fill

theorem encodable_literal {raw : List Byte} (pos : 1 ≤ raw.length) (cap : raw.length ≤ 128) :
    (Block.literal raw).Encodable :=
  .literal (controlIsRun_literalControl pos cap) (controlLen_literalControl pos cap)

theorem encodable_of_canonical {b : Block} (canonical : b.canonical = true) : b.Encodable := by
  cases b with
  | literal raw =>
    obtain ⟨pos, cap⟩ : 1 ≤ raw.length ∧ raw.length ≤ 128 := of_decide_eq_true canonical
    exact encodable_literal pos cap
  | run len fill =>
    obtain ⟨two, cap⟩ : 2 ≤ len ∧ len ≤ 128 := of_decide_eq_true canonical
    exact encodable_run (Nat.le_of_succ_le two) cap fill

theorem Block.Encodable.len_bounds {b : Block} (encodable : b.Encodable) : 1 ≤ b.len ∧ b.len ≤ 128 := by
  cases encodable with
  | run _ fill => exact ⟨controlLen_pos _, controlLen_le _⟩
  | literal _ len =>
    rw [Block.len, ← len]
    exact ⟨controlLen_pos _, controlLen_le _⟩

/-- A stream is at its end, is cut short, or begins with a complete block (42_decoder.md R151, R154). -/
theorem stream_front (t : List Byte) :
    (t = [] ∨ Truncated t) ∨ ∃ (b : Block) (rest : List Byte), b.Encodable ∧ t = b.bytes ++ rest := by
  cases t with
  | nil => exact .inl (.inl rfl)
  | cons c t =>
    cases kind : controlIsRun c with
    | true =>
      cases t with
      | nil => exact .inl (.inr (.run kind))
      | cons v rest => exact .inr ⟨_, rest, .run kind v, by rw [bytes_run kind]; rfl⟩
    | false =>
      rcases Nat.lt_or_ge t.length (controlLen c) with short | fits
      · exact .inl (.inr (.literal kind short))
      · have len : controlLen c = (t.take (controlLen c)).length := by simp [fits]
        refine .inr ⟨_, t.drop (controlLen c), .literal kind len, ?_⟩
        rw [bytes_literal kind len, List.cons_append, List.take_append_drop]

/-! ### A stream as its complete blocks -/

@[simp] theorem assembleBlocks_nil : assembleBlocks [] = [] := rfl

@[simp] theorem assembleBlocks_cons (b : Block) (bs : List Block) :
    assembleBlocks (b :: bs) = b.bytes ++ assembleBlocks bs := List.flatMap_cons

theorem bytes_length_pos (b : Block) : 1 ≤ b.bytes.length := by
  cases b <;> simp [Block.bytes]

theorem output_length (b : Block) : b.output.length = b.len := by
  cases b <;> simp [Block.output, Block.len]

/-- Every stream is some complete blocks and then its end or a block cut short (42_decoder.md R155). -/
theorem exists_blocks (t : List Byte) : ∃ (bs : List Block) (tail : List Byte),
    (∀ b ∈ bs, b.Encodable) ∧ t = assembleBlocks bs ++ tail ∧ (tail = [] ∨ Truncated tail) := by
  induction h : t.length using Nat.strong_induction_on generalizing t with
  | _ n ih =>
    rcases stream_front t with ended | ⟨b, rest, encodable, rfl⟩
    · exact ⟨[], t, by simp, rfl, ended⟩
    · have pos := bytes_length_pos b
      rw [List.length_append] at h
      obtain ⟨bs, tail, later, rfl, ended⟩ := ih rest.length (by omega) rest rfl
      exact ⟨b :: bs, tail, List.forall_mem_cons.mpr ⟨encodable, later⟩, by simp, ended⟩

theorem length_le_length_assembleBlocks (bs : List Block) : bs.length ≤ (assembleBlocks bs).length := by
  induction bs with
  | nil => exact le_rfl
  | cons b bs ih =>
    have pos := bytes_length_pos b
    simp only [assembleBlocks_cons, List.length_append, List.length_cons]
    omega

/-! ### Dec, block by block (42_decoder.md R160) -/

theorem prepend_append (a b : List Byte) (d : DecResult) : prepend (a ++ b) d = prepend a (prepend b d) := by
  cases d <;> simp [prepend]

theorem prepend_nil (d : DecResult) : prepend [] d = d := by
  cases d <;> rfl

theorem dec_bytes_append {b : Block} (encodable : b.Encodable) (t : List Byte) :
    dec (b.bytes ++ t) = prepend b.output (dec t) := by
  cases encodable with
  | run kind fill =>
    rw [bytes_run kind]
    exact dec_run kind fill t
  | literal kind len =>
    rw [bytes_literal kind len, List.cons_append, dec_lit kind (by simp [len]), len, List.take_left, List.drop_left,
      Block.output]

theorem decPrefix_bytes_append {b : Block} (encodable : b.Encodable) (t : List Byte) :
    decPrefix (b.bytes ++ t) = b.output ++ decPrefix t := by
  cases encodable with
  | run kind fill =>
    rw [bytes_run kind]
    exact decPrefix_run kind fill t
  | literal kind len =>
    rw [bytes_literal kind len, List.cons_append, decPrefix_lit kind (by simp [len]), len, List.take_left,
      List.drop_left, Block.output]

theorem dec_of_truncated {t : List Byte} (cut : Truncated t) : dec t = .malformedPayload := by
  cases cut with
  | run kind => exact dec_run_short kind
  | literal kind short => exact dec_lit_short kind short

theorem decPrefix_of_truncated {t : List Byte} (cut : Truncated t) : decPrefix t = [] := by
  cases cut with
  | run kind => exact decPrefix_run_short kind
  | literal kind short => exact decPrefix_lit_short kind short

section
variable {bs : List Block} (encodable : ∀ b ∈ bs, b.Encodable)
include encodable

theorem dec_assembleBlocks_append (t : List Byte) :
    dec (assembleBlocks bs ++ t) = prepend (bs.flatMap Block.output) (dec t) := by
  induction bs with
  | nil => exact (prepend_nil _).symm
  | cons b bs ih =>
    obtain ⟨first, later⟩ := List.forall_mem_cons.mp encodable
    rw [assembleBlocks_cons, List.append_assoc, dec_bytes_append first, ih later, List.flatMap_cons, prepend_append]

/-- Complete blocks decode to what they stand for. -/
theorem dec_assembleBlocks : dec (assembleBlocks bs) = .ok (bs.flatMap Block.output) := by
  simpa [prepend] using dec_assembleBlocks_append encodable []

/-- A stream that ends in a block cut short is malformed (42_decoder.md R154). -/
theorem dec_assembleBlocks_truncated {t : List Byte} (cut : Truncated t) :
    dec (assembleBlocks bs ++ t) = .malformedPayload := by
  rw [dec_assembleBlocks_append encodable, dec_of_truncated cut, prepend]

/-- The blocks before the truncated one have been emitted (42_decoder.md R155). -/
theorem decPrefix_assembleBlocks_truncated {t : List Byte} (cut : Truncated t) :
    decPrefix (assembleBlocks bs ++ t) = bs.flatMap Block.output := by
  induction bs with
  | nil => exact decPrefix_of_truncated cut
  | cons b bs ih =>
    obtain ⟨first, later⟩ := List.forall_mem_cons.mp encodable
    rw [assembleBlocks_cons, List.append_assoc, decPrefix_bytes_append first, ih later, List.flatMap_cons]

end

/-- The streams that decode are the sequences of complete blocks. -/
theorem dec_eq_ok {t o : List Byte} (decodes : dec t = .ok o) :
    ∃ bs : List Block, (∀ b ∈ bs, b.Encodable) ∧ t = assembleBlocks bs ∧ o = bs.flatMap Block.output := by
  obtain ⟨bs, tail, encodable, rfl, rfl | cut⟩ := exists_blocks t
  · rw [List.append_nil, dec_assembleBlocks encodable] at decodes
    exact ⟨bs, encodable, List.append_nil _, (DecResult.ok.inj decodes).symm⟩
  · rw [dec_assembleBlocks_truncated encodable cut] at decodes
    cases decodes

/-! ### The size of a decode -/

/-- A stream that begins with any block, the non-canonical run of one among them, is read as that block and the rest. -/
theorem blocksOf_bytes_append_of_encodable {b : Block} (encodable : b.Encodable) (t : List Byte) :
    blocksOf (b.bytes ++ t) = (blocksOf t).map (b :: ·) := by
  cases encodable with
  | run kind fill =>
    rw [bytes_run kind]
    exact blocksOf_run kind fill t
  | literal kind len =>
    rw [bytes_literal kind len, List.cons_append, blocksOf_lit kind (by simp [len]), len, List.take_left,
      List.drop_left]

theorem blocksOf_assembleBlocks_of_encodable {bs : List Block} (encodable : ∀ b ∈ bs, b.Encodable) :
    blocksOf (assembleBlocks bs) = some bs := by
  induction bs with
  | nil => rfl
  | cons b bs ih =>
    obtain ⟨first, later⟩ := List.forall_mem_cons.mp encodable
    rw [assembleBlocks_cons, blocksOf_bytes_append_of_encodable first, ih later, Option.map_some]

theorem length_flatMap_output (bs : List Block) : (bs.flatMap Block.output).length = (bs.map Block.len).sum := by
  simp [List.length_flatMap, output_length]

/-- A block takes at most two bytes of the stream for each that it stands for, which a literal of one byte does, and
stands for at most 64 for each that it takes, which a run of 128 does (42_decoder.md R164). -/
theorem Block.Encodable.size {b : Block} (encodable : b.Encodable) :
    b.bytes.length ≤ 2 * b.len ∧ b.len ≤ 64 * b.bytes.length := by
  obtain ⟨pos, cap⟩ := encodable.len_bounds
  cases b with
  | literal raw =>
    simp only [Block.bytes, Block.len, List.length_cons] at *
    omega
  | run len fill =>
    simp only [Block.bytes, Block.len, List.length_cons, List.length_nil] at *
    omega

theorem assembleBlocks_size {bs : List Block} (encodable : ∀ b ∈ bs, b.Encodable) :
    (assembleBlocks bs).length ≤ 2 * (bs.map Block.len).sum ∧
      (bs.map Block.len).sum ≤ 64 * (assembleBlocks bs).length := by
  induction bs with
  | nil => simp
  | cons b bs ih =>
    obtain ⟨first, later⟩ := List.forall_mem_cons.mp encodable
    obtain ⟨low, high⟩ := first.size
    obtain ⟨low', high'⟩ := ih later
    simp only [assembleBlocks_cons, List.length_append, List.map_cons, List.sum_cons]
    omega

/-- One block repeated decodes to as many times its length. -/
theorem dec_replicate_bytes {b : Block} (encodable : b.Encodable) (k : Nat) :
    ∃ o, dec (List.replicate k b.bytes).flatten = .ok o ∧ o.length = b.len * k := by
  have stream : (List.replicate k b.bytes).flatten = assembleBlocks (List.replicate k b) := by
    rw [assembleBlocks, List.flatMap_def, List.map_replicate]
  have all : ∀ b' ∈ List.replicate k b, b'.Encodable := fun b' h => List.eq_of_mem_replicate h ▸ encodable
  refine ⟨_, stream ▸ dec_assembleBlocks all, ?_⟩
  rw [length_flatMap_output, List.map_replicate, List.sum_replicate, smul_eq_mul, Nat.mul_comm]

/-! ### The decoder's step -/

/-- A running DECODE with input left runs the block its control byte decodes to (42_decoder.md R151). -/
theorem blockStep_decode {s : State} {r : Run} (running : s.fsm = .running r) (op : r.op = .dec) (inside : r.rd < r.n) :
    blockStep s = exec (decodeControl (snapByte r s r.rd)) s := by
  have notAtEnd : r.rd ≠ r.n := Nat.ne_of_lt inside
  simp [blockStep, running, notAtEnd, op, decodeStep, fetchControl]

section
variable {s : State} {r : Run} {size : Nat} (bytes : Run → List Byte) (running : s.fsm = .running r) (op : r.op = .dec)
  (inside : r.rd < r.n)
include running op inside

theorem decodeBlock_fits (fits : r.rd + size ≤ r.n) :
    decodeBlock size bytes s = .next (advance (bytes r) size r s) := by
  simp [decodeBlock, running, op, inside, Nat.not_lt.mpr fits]

/-- The availability check comes before any byte of the block is emitted (42_decoder.md R155). -/
theorem decodeBlock_short (short : r.n < r.rd + size) :
    decodeBlock size bytes s = .next (raiseError .malformedPayload r s) := by
  simp [decodeBlock, running, op, inside, short]

/-- What a decoder block within the input shows (41_encoder.md R124, 42_decoder.md R152, R153). -/
theorem decodeBlock_shows (fits : r.rd + size ≤ r.n) {len : Nat} (count : (bytes r).length = len) :
    ∃ t, decodeBlock size bytes s = .next t ∧ t.fsm = .running (r.after size len) ∧
      (∀ j, j < len → r.wr + j < s.params.outCap → Memory.read t.outBuf (r.wr + j) = (bytes r)[j]?) ∧
      (∀ a, ¬(r.wr ≤ a ∧ a < r.wr + len ∧ a < s.params.outCap) →
        Memory.read t.outBuf a = Memory.read s.outBuf a) ∧
      statusWord t = statusWord s ∧ t.outLen = s.outLen ∧ SameIn s t ∧ SameHostSide s t := by
  subst count
  obtain ⟨sameIn, sameHostSide, -⟩ := advance_writesOnlyOutput (bytes r) size r s
  exact ⟨_, decodeBlock_fits bytes running op inside fits, advance_running .., fun _ => advance_read_emitted size,
    fun _ => advance_read_other size, statusWord_advance running _ size, rfl, sameIn, sameHostSide⟩

/-- A block that would end beyond the input raises MALFORMED_PAYLOAD (42_decoder.md R154). -/
theorem blockStep_decode_short (short : r.n < r.rd + (decodeControl (snapByte r s r.rd)).streamBytes) :
    blockStep s = .next (raiseError .malformedPayload r s) := by
  rw [blockStep_decode running op inside, exec_decodeControl, decodeBlock_short _ running op inside short]

end

/-! ### The decoder on what is left of its input -/

theorem snapSlice_zero (r : Run) (s : State) (p : Nat) : snapSlice r s p 0 = [] := rfl

theorem streamBytes_of_run {c : Byte} (kind : controlIsRun c = true) : (decodeControl c).streamBytes = 2 := by
  simp [decodeControl, kind, Instr.streamBytes]

theorem streamBytes_of_literal {c : Byte} (kind : controlIsRun c = false) :
    (decodeControl c).streamBytes = 1 + controlLen c := by
  simp [decodeControl, kind, Instr.streamBytes]

/-- The bytes at the front of what is left stand at `RD`, within the input. -/
theorem snapSlice_of_remaining {r : Run} {s : State} {front rest : List Byte} (within : r.rd ≤ r.n)
    (left : remaining r s = front ++ rest) :
    snapSlice r s r.rd front.length = front ∧ r.rd + (front.length + rest.length) = r.n := by
  have length : r.n - r.rd = front.length + rest.length := by
    rw [← List.length_append, ← left, remaining, snapSlice_length]
  refine ⟨?_, by omega⟩
  rw [← snapSlice_take r s r.rd (r.n - r.rd) _ (by omega), ← remaining, left, List.take_left]

section
variable {s : State} {r : Run} (running : s.fsm = .running r) (op : r.op = .dec) (within : r.rd ≤ r.n)
include running op within

/-- At a complete block the step emits what the block stands for and moves past it (42_decoder.md R152, R153). -/
theorem blockStep_decode_block {b : Block} (encodable : b.Encodable) {rest : List Byte}
    (left : remaining r s = b.bytes ++ rest) :
    blockStep s = .next (advance b.output b.bytes.length r s) := by
  obtain ⟨bytes, length⟩ := snapSlice_of_remaining within left
  have pos := bytes_length_pos b
  have inside : r.rd < r.n := by omega
  rw [blockStep_decode running op inside, exec_decodeControl]
  cases encodable with
  | @run c kind fill =>
    rw [bytes_run kind] at bytes length ⊢
    obtain ⟨control, payload⟩ : snapByte r s r.rd = c ∧ snapByte r s (r.rd + 1) = fill := by
      simpa [snapSlice_cons, snapSlice_zero] using bytes
    rw [control, streamBytes_of_run kind, decodeBlock_fits _ running op inside (by simp at length; omega)]
    simp [kind, payload, Block.output]
  | @literal c kind raw len =>
    rw [bytes_literal kind len] at bytes length ⊢
    obtain ⟨control, payload⟩ : snapByte r s r.rd = c ∧ snapSlice r s (r.rd + 1) raw.length = raw := by
      simpa [snapSlice_cons] using bytes
    rw [control, streamBytes_of_literal kind, decodeBlock_fits _ running op inside (by simp at length; omega)]
    simp [kind, len, payload, Block.output, Nat.add_comm 1]

/-- At a block cut short the step raises MALFORMED_PAYLOAD (42_decoder.md R154). -/
theorem blockStep_decode_truncated {t : List Byte} (cut : Truncated t) (left : remaining r s = t) :
    blockStep s = .next (raiseError .malformedPayload r s) := by
  obtain ⟨c, rest, rfl, short⟩ : ∃ c rest, t = [c] ++ rest ∧ rest.length + 1 < (decodeControl c).streamBytes := by
    cases cut with
    | @run c kind => exact ⟨c, [], rfl, by simp [streamBytes_of_run kind]⟩
    | @literal c kind rest short =>
      exact ⟨c, rest, rfl, by rw [streamBytes_of_literal kind]; omega⟩
  obtain ⟨bytes, length⟩ := snapSlice_of_remaining within left
  obtain rfl : snapByte r s r.rd = c := by simpa [snapSlice_cons, snapSlice_zero] using bytes
  simp only [List.length_singleton] at length
  exact blockStep_decode_short running op (by omega) (by omega)

end

/-! ### The steps of a DECODE -/

section
variable {s : State} {r : Run} {bs : List Block} (running : s.fsm = .running r) (op : r.op = .dec)
  (within : r.rd ≤ r.n) (encodable : ∀ b ∈ bs, b.Encodable)
include running op within encodable

/-- One step for each complete block at the front of what is left emits what those blocks stand for. -/
theorem blockSteps_decode_blocks {tail : List Byte} (left : remaining r s = assembleBlocks bs ++ tail) (k : Nat) :
    blockSteps (bs.length + k) s =
      blockSteps k (advance (bs.flatMap Block.output) (assembleBlocks bs).length r s) := by
  induction bs generalizing r s with
  | nil => simp [advance_nothing running]
  | cons b bs ih =>
    obtain ⟨first, later⟩ := List.forall_mem_cons.mp encodable
    rw [assembleBlocks_cons, List.append_assoc] at left
    have step := blockStep_decode_block running op within first left
    obtain ⟨-, length⟩ := snapSlice_of_remaining within left
    have leftAfter : remaining (r.after b.bytes.length b.output.length) (advance b.output b.bytes.length r s) =
        assembleBlocks bs ++ tail := by
      rw [remaining_after, left, List.drop_left]
    have withinAfter : r.rd + b.bytes.length ≤ r.n := by omega
    rw [List.length_cons, Nat.add_right_comm, blockSteps_succ step,
      ih (advance_running ..) op withinAfter later leftAfter, advance_advance, List.flatMap_cons, assembleBlocks_cons,
      List.length_append]

/-- A DECODE of complete blocks emits what they stand for and completes (42_decoder.md R160). -/
theorem blockSteps_decode_complete (left : remaining r s = assembleBlocks bs) {k : Nat} (enough : r.n < r.rd + k) :
    blockSteps k s = .next (complete (r.after (r.n - r.rd) (bs.flatMap Block.output).length)
      (advance (bs.flatMap Block.output) (r.n - r.rd) r s)) := by
  rw [← List.append_nil (assembleBlocks bs)] at left
  obtain ⟨-, length⟩ := snapSlice_of_remaining within left
  simp only [List.length_nil] at length
  have count := length_le_length_assembleBlocks bs
  obtain ⟨j, rfl⟩ : ∃ j, k = bs.length + (j + 1) := ⟨k - bs.length - 1, by omega⟩
  have consumed : r.n - r.rd = (assembleBlocks bs).length := by omega
  rw [consumed, blockSteps_decode_blocks running op within encodable left,
    blockSteps_succ (blockStep_atEnd (advance_running ..) (by simp only [Run.after]; omega)),
    blockSteps_idle (complete_idle _ _)]

/-- A DECODE whose last block is cut short raises MALFORMED_PAYLOAD after the blocks before it (42_decoder.md R155). -/
theorem blockSteps_decode_truncated {tail : List Byte} (cut : Truncated tail)
    (left : remaining r s = assembleBlocks bs ++ tail) {k : Nat} (enough : r.n < r.rd + k) :
    blockSteps k s = .next (raiseError .malformedPayload
      (r.after (assembleBlocks bs).length (bs.flatMap Block.output).length)
      (advance (bs.flatMap Block.output) (assembleBlocks bs).length r s)) := by
  obtain ⟨-, length⟩ := snapSlice_of_remaining within left
  have count := length_le_length_assembleBlocks bs
  obtain ⟨j, rfl⟩ : ∃ j, k = bs.length + (j + 1) := ⟨k - bs.length - 1, by omega⟩
  have leftAfter : remaining (r.after (assembleBlocks bs).length (bs.flatMap Block.output).length)
      (advance (bs.flatMap Block.output) (assembleBlocks bs).length r s) = tail := by
    rw [remaining_after, left, List.drop_left]
  have step := blockStep_decode_truncated (advance_running ..) op (by simp only [Run.after]; omega) cut leftAfter
  rw [blockSteps_decode_blocks running op within encodable left, blockSteps_succ step, blockSteps_idle rfl]

end

/-- An operation that ends in MALFORMED_PAYLOAD leaves `any` the cells its output so far reached, and no other cell
changed (60_exceptions.md R212, R215). -/
theorem raiseError_advance_malformed {r : Run} {s : State} (k : Nat) {bytes : List Byte} (start : r.wr = 0) {u : State}
    (ended : u = raiseError .malformedPayload (r.after k bytes.length) (advance bytes k r s)) :
    statusWord u = 0x12 ∧ u.outLen = 0 ∧ u.freed = min bytes.length s.params.outCap ∧
      (∀ i, u.freed ≤ i → Memory.read u.outBuf i = Memory.read s.outBuf i) := by
  have count : (r.after k bytes.length).wr = bytes.length := by simp [Run.after, start]
  have freed : u.freed = min bytes.length s.params.outCap := by rw [ended, raiseError_freed, count, advance_params]
  refine ⟨ended ▸ statusWord_raiseError _ _ _, ended ▸ rfl, freed, fun i other => ?_⟩
  rw [freed] at other
  rw [ended, raiseError_outBuf, count, advance_params, scramble_read_beyond _ _ other, advance_read_other k (by omega)]

/-- How a DECODE of `S` that began in `s` has ended in `u`, by `Dec(S)` (42_decoder.md R160). -/
def DecodeEnds (S : List Byte) (s u : State) : DecResult → Prop
  | .malformedPayload =>
    statusWord u = 0x12 ∧ u.outLen = 0 ∧ u.freed = min (decPrefix S).length s.params.outCap ∧
      (∀ i, u.freed ≤ i → Memory.read u.outBuf i = Memory.read s.outBuf i)
  | .ok o =>
    (s.params.outCap < o.length →
      statusWord u = 0x22 ∧ u.outLen = 0 ∧ u.freed = s.params.outCap ∧
        (∀ i, s.params.outCap ≤ i → Memory.read u.outBuf i = Memory.read s.outBuf i)) ∧
    (o.length ≤ s.params.outCap →
      statusWord u = 0x2 ∧ u.outLen.toNat = o.length ∧ u.freed = 0 ∧
        (∀ i, i < o.length → Memory.read u.outBuf i = o[i]?) ∧
        (∀ i, o.length ≤ i → Memory.read u.outBuf i = Memory.read s.outBuf i))

/-- A started DECODE of its snapshot `S` ends within `N + 1` steps as `Dec(S)` says (42_decoder.md R160). -/
theorem blockSteps_startOp_dec {s : State} (cap : s.params.outCap ≤ 2 ^ 56) {S : List Byte}
    (snap : snapshot (startRun .dec s) (startOp .dec s) = S) :
    ∃ u, blockSteps (s.inLen.toNat + 1) (startOp .dec s) = .next u ∧ u.fsm = .idle ∧ DecodeEnds S s u (dec S) := by
  have running := startOp_running .dec s
  have within : (startRun .dec s).rd ≤ (startRun .dec s).n := Nat.zero_le _
  have enough : (startRun .dec s).n < (startRun .dec s).rd + (s.inLen.toNat + 1) := by simp [startRun]
  rw [← remaining_start] at snap
  obtain ⟨bs, tail, encodable, rfl, rfl | cut⟩ := exists_blocks S
  · rw [List.append_nil] at snap ⊢
    have run := blockSteps_decode_complete running rfl within encodable snap enough
    refine ⟨_, run, complete_idle _ _, ?_⟩
    rw [dec_assembleBlocks encodable]
    refine ⟨fun long => ?_, complete_advance_fits (startRun .dec s) (startOp .dec s) s.inLen.toNat rfl cap (ended := rfl)⟩
    obtain ⟨status, outLen, freed⟩ :=
      complete_advance_overflows (startRun .dec s) (startOp .dec s) s.inLen.toNat rfl long rfl
    exact ⟨status, outLen, freed, (blockSteps_writesOnlyOutput run).sameBeyond⟩
  · refine ⟨_, blockSteps_decode_truncated running rfl within encodable cut snap enough, rfl, ?_⟩
    rw [dec_assembleBlocks_truncated encodable cut, DecodeEnds, decPrefix_assembleBlocks_truncated encodable cut]
    exact raiseError_advance_malformed (s := startOp .dec s) (assembleBlocks bs).length rfl rfl

end Sys2Proof.Machine

namespace Sys2Proof.Proofs

open Sys2Proof.Machine

/-- Settles O33: an encoding is complete blocks, which decode to what they stand for. -/
theorem decodingAnEncodingGivesTheInputBack : Obligations.DecodingAnEncodingGivesTheInputBack := by
  intro s
  rw [← assembleBlocks_encBlocks s, dec_assembleBlocks fun b h => encodable_of_canonical (encBlocks_canonical s b h),
    flatMap_output_encBlocks]

/-- Settles O37: a stream that decodes is complete blocks, whose sizes are bounded one by one; a run of 128 and a literal
of one byte reach the bounds. -/
theorem decodedSizeIsBounded : Obligations.DecodedSizeIsBounded := by
  refine ⟨fun t o decodes => ?_, fun k v => ?_, fun k v => ?_⟩
  · obtain ⟨bs, encodable, rfl, rfl⟩ := dec_eq_ok decodes
    obtain ⟨low, high⟩ := assembleBlocks_size encodable
    rw [length_flatMap_output]
    exact ⟨⟨bs, blocksOf_assembleBlocks_of_encodable encodable, rfl⟩, by omega, high⟩
  · exact dec_replicate_bytes (encodable_run (len := 128) (by decide) (by decide) v) k
  · obtain ⟨o, decodes, length⟩ := dec_replicate_bytes (encodable_literal (raw := [v]) (by simp) (by simp)) k
    exact ⟨o, decodes, by simpa [Block.len] using length⟩

/-- Settles O40: the snapshot is complete blocks and then its end or a block cut short; the steps emit the blocks, and
then COMPLETE tests the count against OUT_CAP or the block cut short raises. -/
theorem decodeOperationComputesDec : Obligations.DecodeOperationComputesDec := by
  intro s wf idle fits
  obtain ⟨-, -, -, cap⟩ := Params.caps_of_wellFormed wf
  obtain ⟨u, run, ended, ends⟩ := blockSteps_startOp_dec cap rfl
  obtain ⟨sameIn, sameHostSide, -⟩ := blockSteps_writesOnlyOutput run
  refine ⟨_, startRun .dec s, u, exec_command_fits idle fits .dec, startOp_running .dec s,
    fun _ _ => snapshot_written (r := startRun .dec s) (s := startOp .dec s), snapSlice_length .., run, ended, sameIn,
    sameHostSide, fun decodes => ?_, fun o decodes => ?_, fun o decodes => ?_⟩ <;> rw [decodes] at ends
  · exact ends
  · exact ends.1
  · exact ends.2

/-- Settles O24, by the availability check of a decoder block. -/
theorem literalBlockIsCopiedOrMalformed : Obligations.LiteralBlockIsCopiedOrMalformed := by
  intro len s r running op inside _ _
  refine ⟨fun fits => ?_, fun short => ?_⟩
  · obtain ⟨t, step, after, emitted, same⟩ := decodeBlock_shows (size := 1 + len)
      (fun r => snapSlice r s (r.rd + 1) len) running op inside (by omega) (snapSlice_length ..)
    refine ⟨t, step, by rw [after, Run.after, Nat.add_assoc], fun j raw stored => ?_, same⟩
    rw [emitted j raw stored, snapSlice_getElem?, if_pos raw]
  · exact decodeBlock_short _ running op inside (by omega)

/-- Settles O25, by the availability check of a decoder block. -/
theorem runBlockIsReplayedOrMalformed : Obligations.RunBlockIsReplayedOrMalformed := by
  intro len s r running op inside _ _
  refine ⟨fun fits => ?_, decodeBlock_short _ running op inside⟩
  obtain ⟨t, step, after, emitted, same⟩ := decodeBlock_shows
    (fun r => List.replicate len (snapByte r s (r.rd + 1))) running op inside fits List.length_replicate
  refine ⟨t, step, after, fun j replayed stored => ?_, same⟩
  rw [emitted j replayed stored, List.getElem?_replicate_of_lt replayed]

/-- Settles O26: the block at `RD` would end beyond the input, and its raise changes only cells that earlier blocks
reached. -/
theorem truncatedBlockEndsTheDecode : Obligations.TruncatedBlockEndsTheDecode := by
  intro s r running op inside cut
  have short : r.n < r.rd + (decodeControl (snapByte r s r.rd)).streamBytes := by
    rcases cut with ⟨high, last⟩ | ⟨low, cut⟩
    · rw [decodeControl_of_le high, Instr.streamBytes]
      omega
    · rw [decodeControl_of_lt low, Instr.streamBytes]
      omega
  obtain ⟨sameIn, sameHostSide, -⟩ := raiseError_writesOnlyOutput .malformedPayload r s
  exact ⟨_, blockStep_decode_short running op inside short, rfl, statusWord_raiseError _ _ _, rfl,
    fun a other => scramble_read_beyond _ _ other, sameIn, sameHostSide⟩

/-- Settles O27: the control byte `0x80` decodes to RUN of length 1, which replays like any other. -/
theorem nonCanonicalRunIsOneCopy : Obligations.NonCanonicalRunIsOneCopy := by
  intro s r running op fits control
  have inside : r.rd < r.n := by omega
  obtain ⟨replayed, -⟩ := runBlockIsReplayedOrMalformed 1 s r running op inside le_rfl (by decide)
  obtain ⟨t, step, after, emitted, other, -, -, sameIn, sameHostSide⟩ := replayed fits
  have runs : blockStep s = exec (.run 1) s := by
    rw [blockStep_decode running op inside, control]
    rfl
  exact ⟨t, runs.trans step, after, emitted 0 Nat.one_pos, fun a elsewhere => other a (by omega), sameIn, sameHostSide⟩

/-- Settles O22: the block's turn is its step, which decodes the control byte at `RD`. -/
theorem decodeStepRunsTheDecodedBlock : Obligations.DecodeStepRunsTheDecodedBlock := by
  intro s r turn running op inside
  rw [step, turn]
  exact blockStep_decode (s := popTurn s) running op inside

end Sys2Proof.Proofs
end

section
/-! SUPPORT. The statements of 43_host_container.md: the host's sequence LOADIN, START, POLL runs to the result of its
operation under every schedule; the fields of a container; what pack and unpack make of the block's result. -/

namespace Sys2Proof.Machine

/-! ### How an operation ends -/

/-- The input that starts an operation (30_encoding.md R84). -/
def CodecOp.start : CodecOp → Input
  | .enc => startEncode
  | .dec => startDecode

/-- What an operation makes of its input (41_encoder.md R128, 42_decoder.md R160). -/
def CodecOp.result : CodecOp → List Byte → DecResult
  | .enc, b => .ok (Machine.enc b)
  | .dec, b => Machine.dec b

/-- The idle block holds the result `d` of an operation: MALFORMED_PAYLOAD, OUTPUT_OVERFLOW when the output exceeds
OUT_CAP, or success with exactly the output in OUT (40_commands.md R108, 42_decoder.md R160). -/
def HoldsResult (u : State) : DecResult → Prop
  | .malformedPayload => u.err = .malformedPayload ∧ u.done = true ∧ u.outLen = 0
  | .ok o =>
    (o.length ≤ u.params.outCap → u.err = .ok ∧ u.done = true ∧ outBytes u = o) ∧
      (u.params.outCap < o.length → u.err = .outputOverflow ∧ u.done = true ∧ u.outLen = 0)

theorem errBits_injective {e e' : ErrCode} (h : errBits e = errBits e') : e = e' := by
  revert h
  cases e <;> cases e' <;> decide

/-- STATUS of an ended operation names its code (10_state.md R26). -/
theorem err_done_of_statusWord {u : State} (e : ErrCode)
    (status : statusWord u = 0x2 ||| ((errBits e).setWidth 64 <<< 4)) : u.err = e ∧ u.done = true := by
  have code := statusWord_errField u
  have done := statusWord_bit_one u
  rw [status] at code done
  refine ⟨errBits_injective (code.symm.trans ?_), done.symm.trans ?_⟩
  · cases e <;> rfl
  · cases e <;> rfl

@[simp] theorem outBytes_length (u : State) : (outBytes u).length = u.outLen.toNat := by simp [outBytes]

/-- The host reads exactly what an idle block's OUT holds below OUT_LEN (20_memory.md R57). -/
theorem outBytes_eq {u : State} (idle : u.fsm = .idle) {o : List Byte} (length : u.outLen.toNat = o.length)
    (cells : ∀ i, i < o.length → Memory.read u.outBuf i = o[i]?) : outBytes u = o := by
  refine List.ext_getElem (by rw [outBytes_length, length]) fun i _ inside => ?_
  have cell : outCell u i = some o[i] := by
    rw [outCell_idle (isBusy_idle idle), cells i inside, List.getElem?_eq_getElem inside]
  simp [outBytes, outByte, cell]

/-- An operation whose end is described by STATUS and the cells of OUT holds its result. -/
theorem DecodeEnds.holdsResult {S : List Byte} {s u : State} {d : DecResult} (ends : DecodeEnds S s u d)
    (idle : u.fsm = .idle) (params : u.params = s.params) : HoldsResult u d := by
  cases d with
  | malformedPayload =>
    obtain ⟨status, outLen, -⟩ := ends
    obtain ⟨err, done⟩ := err_done_of_statusWord .malformedPayload status
    exact ⟨err, done, outLen⟩
  | ok o =>
    rw [HoldsResult, params]
    obtain ⟨overflows, fits⟩ := ends
    refine ⟨fun short => ?_, fun long => ?_⟩
    · obtain ⟨status, length, -, cells, -⟩ := fits short
      obtain ⟨err, done⟩ := err_done_of_statusWord .ok status
      exact ⟨err, done, outBytes_eq idle length cells⟩
    · obtain ⟨status, outLen, -⟩ := overflows long
      obtain ⟨err, done⟩ := err_done_of_statusWord .outputOverflow status
      exact ⟨err, done, outLen⟩

/-- An ended operation that began with the parameters and the mark of `s`, and whose result is `d`. -/
structure EndedWith (s : State) (d : DecResult) (u : State) : Prop where
  idle : u.fsm = .idle
  params : u.params = s.params
  violated : u.violated = s.violated
  result : HoldsResult u d

/-- IN holds the first `k` bytes of `b`, in an idle block whose parameters and mark are those of `s₀`. -/
structure Loaded (s₀ : State) (b : List Byte) (k : Nat) (s : State) : Prop where
  idle : s.fsm = .idle
  params : s.params = s₀.params
  violated : s.violated = s₀.violated
  cells : ∀ i, i < k → Memory.read s.inBuf i = b[i]?

/-- The snapshot of an operation started on a loaded input is the input (41_encoder.md R120). -/
theorem Loaded.snapshot_eq {s₀ s : State} {b : List Byte} (loaded : Loaded s₀ b b.length s)
    (inLen : s.inLen.toNat = b.length) (op : CodecOp) : snapshot (startRun op s) (startOp op s) = b := by
  refine List.ext_getElem (by simp [snapshot, startRun, inLen]) fun i _ inside => ?_
  have written : Memory.read (startOp op s).inBuf i = some b[i] := by
    rw [startOp_inBuf, loaded.cells i inside, List.getElem?_eq_getElem inside]
  rw [← Option.some_inj, ← List.getElem?_eq_getElem, snapshot_written (by rwa [startRun, inLen]) written]

/-- An operation started on a loaded input runs to its result by the block's own steps; an ENCODE ends as a DECODE with
output `Enc(b)` does. -/
theorem Loaded.startOp_ends {s₀ s : State} {b : List Byte} (loaded : Loaded s₀ b b.length s)
    (inLen : s.inLen.toNat = b.length) (wf : s.params.wellFormed = true) (op : CodecOp) :
    ∃ k u, blockSteps k (startOp op s) = .next u ∧ EndedWith s₀ (op.result b) u := by
  obtain ⟨-, -, -, cap⟩ := Params.caps_of_wellFormed wf
  have snap := loaded.snapshot_eq inLen op
  have ended : ∃ u, blockSteps (s.inLen.toNat + 1) (startOp op s) = .next u ∧ u.fsm = .idle ∧
      DecodeEnds b s u (op.result b) := by
    cases op with
    | enc =>
      have run := blockSteps_startOp_enc snap
      refine ⟨_, run, complete_idle _ _, fun long => ?_,
        complete_advance_fits (startRun .enc s) (startOp .enc s) s.inLen.toNat rfl cap (ended := rfl)⟩
      obtain ⟨status, outLen, freed⟩ :=
        complete_advance_overflows (startRun .enc s) (startOp .enc s) s.inLen.toNat rfl long rfl
      exact ⟨status, outLen, freed, (blockSteps_writesOnlyOutput run).sameBeyond⟩
    | dec => exact blockSteps_startOp_dec cap snap
  obtain ⟨u, run, idle, ends⟩ := ended
  obtain ⟨-, ⟨params, violated, -⟩, -⟩ := blockSteps_writesOnlyOutput run
  exact ⟨_, u, run, idle, params.trans loaded.params, violated.trans loaded.violated, ends.holdsResult idle params⟩

/-! ### The outside world's side -/

/-- `s` with other pending inputs, another schedule and another record of what the host has read. -/
def State.withHostSide (ins : List Input) (ts : List Agent) (rs : List Response) (s : State) : State :=
  { s with inputs := ins, turns := ts, responses := rs }

/-- Where a block step is possible, `RD` has not passed the input (40_commands.md R107). -/
theorem rd_le_of_blockStep {s t : State} {r : Run} (h : blockStep s = .next t) (running : s.fsm = .running r) :
    r.rd ≤ r.n := by
  rcases blockStep_cases s with
    ⟨idle, -⟩ | ⟨q, hq, atEnd, -⟩ | ⟨q, hq, -, inside, -⟩ | ⟨q, hq, -, inside, -⟩ | ⟨q, -, -, e⟩
  · cases running.symm.trans idle
  · cases running.symm.trans hq
    exact atEnd.le
  · cases running.symm.trans hq
    exact inside.le
  · cases running.symm.trans hq
    exact inside.le
  · cases e.symm.trans h

section
variable (ins : List Input) (ts : List Agent) (rs : List Response)

/-- The block does not look at the outside world's side (20_memory.md R51). -/
theorem blockStep_withHostSide {s t : State} (h : blockStep s = .next t) :
    blockStep (s.withHostSide ins ts rs) = .next (t.withHostSide ins ts rs) := by
  cases fsm : s.fsm with
  | idle =>
    simp only [blockStep, fsm] at h
    cases h
    simp [blockStep, State.withHostSide, fsm]
  | running r =>
    have params : (s.withHostSide ins ts rs).params = s.params := rfl
    have emission : blockEmission r (s.withHostSide ins ts rs) = blockEmission r s := rfl
    rcases (rd_le_of_blockStep h fsm).lt_or_eq with inside | atEnd
    · rw [blockStep_inside fsm inside] at h
      cases h
      rw [blockStep_inside (s := s.withHostSide ins ts rs) fsm inside, emission]
      split_ifs <;> rfl
    · rw [blockStep_atEnd fsm atEnd] at h
      cases h
      rw [blockStep_atEnd (s := s.withHostSide ins ts rs) fsm atEnd, complete, complete, params]
      split_ifs <;> rfl

theorem blockSteps_withHostSide {k : Nat} {s u : State} (h : blockSteps k s = .next u) :
    blockSteps k (s.withHostSide ins ts rs) = .next (u.withHostSide ins ts rs) := by
  induction k generalizing s with
  | zero =>
    cases h
    rfl
  | succ k ih =>
    cases e : blockStep s with
    | next t =>
      rw [blockSteps_succ e] at h
      rw [blockSteps_succ (blockStep_withHostSide ins ts rs e), ih h]
    | fault f => simp [blockSteps, e] at h
    | refused f => simp [blockSteps, e] at h

theorem EndedWith.withHostSide {s u : State} {d : DecResult} (h : EndedWith s d u) :
    EndedWith s d (u.withHostSide ins ts rs) := by
  obtain ⟨idle, params, violated, result⟩ := h
  refine ⟨idle, params, violated, ?_⟩
  cases d with
  | malformedPayload => exact result
  | ok o => exact result

end

/-! ### The host's sequence under every schedule -/

theorem applyInput_start_eq_exec (op : CodecOp) (s : State) : applyInput op.start s = exec op.command s := by
  cases op with
  | enc => rfl
  | dec => rfl

/-- How far `LOADIN b; START; POLL`, begun in `s₀`, has come (30_encoding.md R84, 43_host_container.md R188, R198). -/
inductive CommandPhase (op : CodecOp) (b : List Byte) (s₀ s : State) : Prop
  /-- The next byte of IN to be written is the one numbered `k`. -/
  | loading {k : Nat} (loaded : Loaded s₀ b k s) (within : k ≤ b.length)
      (pending : s.inputs = wr8Seq k (b.drop k) ++ [wr64 .IN_LEN (BitVec.ofNat 64 b.length), op.start, poll])
  /-- The input is loaded, its length among it. -/
  | ready (loaded : Loaded s₀ b b.length s) (inLen : s.inLen = BitVec.ofNat 64 b.length)
      (pending : s.inputs = [op.start, poll])
  /-- The operation has started, and the block's own steps bring it to its result, whenever the host polls. -/
  | started (pending : s.inputs = [poll] ∨ s.inputs = [])
      (ends : ∃ k u, blockSteps k s = .next u ∧ EndedWith s₀ (op.result b) u)

theorem Loaded.withHostSide {s₀ s : State} {b : List Byte} {k : Nat} (h : Loaded s₀ b k s) (ins : List Input)
    (ts : List Agent) (rs : List Response) : Loaded s₀ b k (s.withHostSide ins ts rs) :=
  ⟨h.idle, h.params, h.violated, h.cells⟩

section
variable {op : CodecOp} {b : List Byte} {s₀ s t : State}

/-- A turn taken off the schedule changes no phase. -/
theorem CommandPhase.popTurn (phase : CommandPhase op b s₀ s) : CommandPhase op b s₀ (popTurn s) := by
  cases phase with
  | loading loaded within pending =>
    exact .loading (loaded.withHostSide s.inputs s.turns.tail s.responses) within pending
  | ready loaded inLen pending => exact .ready (loaded.withHostSide s.inputs s.turns.tail s.responses) inLen pending
  | started pending ends =>
    obtain ⟨k, u, run, ended⟩ := ends
    exact .started pending ⟨k, _, blockSteps_withHostSide s.inputs s.turns.tail s.responses run, ended.withHostSide ..⟩

/-- A block step passes while the block is idle, and is one of the operation's once it has started. -/
theorem CommandPhase.blockStep (phase : CommandPhase op b s₀ s) (h : blockStep s = .next t) :
    CommandPhase op b s₀ t := by
  have pass : s.fsm = .idle → t = s := fun idle => by simpa [Machine.blockStep, idle, eq_comm] using h
  cases phase with
  | loading loaded within pending =>
    rw [pass loaded.idle]
    exact .loading loaded within pending
  | ready loaded inLen pending =>
    rw [pass loaded.idle]
    exact .ready loaded inLen pending
  | started pending ends =>
    obtain ⟨k, u, run, ended⟩ := ends
    obtain ⟨-, -, -, inputs, -⟩ := (blockStep_writesOnlyOutput h).sameHostSide
    refine .started (inputs ▸ pending) ?_
    cases k with
    | zero =>
      cases run
      exact ⟨0, t, rfl, pass ended.idle ▸ ended⟩
    | succ k => exact ⟨k, u, (blockSteps_succ h k).symm.trans run, ended⟩

theorem hostStep_pending {i : Input} {rest : List Input} (pending : s.inputs = i :: rest) :
    hostStep s = applyInput i (s.withHostSide rest s.turns s.responses) := by
  simp [hostStep, pending, State.withHostSide]

/-- The write of the next byte of the input (20_memory.md R56). -/
theorem Loaded.applyInput_wr8In {k : Nat} (loaded : Loaded s₀ b k s) (within : k < b.length)
    (inside : k < s₀.params.inCap) :
    ∃ t, applyInput (wr8In k b[k]) s = .next t ∧ Loaded s₀ b (k + 1) t ∧ t.inputs = s.inputs := by
  rw [← loaded.params] at inside
  have stores : applyInput (wr8In k b[k]) s = .next { s with inBuf := Memory.write s.inBuf k b[k] } := by
    rw [wr8In, applyInput, hostOp, busWrite_inbuf _ inside, inWrite_idle (isBusy_idle loaded.idle)]
    simp
  refine ⟨_, stores, ⟨loaded.idle, loaded.params, loaded.violated, fun i counted => ?_⟩, rfl⟩
  rw [read_write]
  split_ifs with next
  · rw [next, List.getElem?_eq_getElem within]
  · exact loaded.cells i (by omega)

/-- The write of IN_LEN (20_memory.md R55). -/
theorem Loaded.applyInput_wrInLen {k : Nat} (loaded : Loaded s₀ b k s) (v : Word) :
    ∃ t, applyInput (wr64 .IN_LEN v) s = .next t ∧ Loaded s₀ b k t ∧ t.inLen = v ∧ t.inputs = s.inputs := by
  rcases Machine.applyInput_wrInLen v s with ⟨busy, -⟩ | ⟨-, e⟩
  · simp [isBusy_idle loaded.idle] at busy
  · exact ⟨_, e, ⟨loaded.idle, loaded.params, loaded.violated, loaded.cells⟩, rfl, rfl⟩

/-- An idle block with a loaded input accepts the command (40_commands.md R106). -/
theorem Loaded.applyInput_start (loaded : Loaded s₀ b b.length s) (inLen : s.inLen.toNat = b.length)
    (fits : b.length ≤ s₀.params.inCap) : applyInput op.start s = .next (startOp op s) := by
  rw [applyInput_start_eq_exec, exec_command_fits loaded.idle (by rwa [inLen, loaded.params])]

/-- A turn of POLL leaves the block as it is (30_encoding.md R84). -/
theorem applyInput_poll (s : State) :
    ∃ ins rs, applyInput poll s = .next (s.withHostSide ins s.turns rs) ∧
      (ins = poll :: s.inputs ∨ ins = s.inputs) := by
  refine ⟨_, _, congrArg Host.Outcome.next (pollTurn_eq s), ?_⟩
  cases isBusy s <;> simp

section
variable (wf : s₀.params.wellFormed = true) (fits : b.length ≤ s₀.params.inCap)
include wf fits

/-- The host's turn makes the sequence's next access, or polls. -/
theorem CommandPhase.hostStep (phase : CommandPhase op b s₀ s) (h : hostStep s = .next t) :
    CommandPhase op b s₀ t := by
  obtain ⟨-, inCap, -⟩ := Params.caps_of_wellFormed wf
  have length : (BitVec.ofNat 64 b.length).toNat = b.length := Nat.mod_eq_of_lt (by omega)
  cases phase with
  | @loading k loaded within pending =>
    rcases within.lt_or_eq with inside | rfl
    · rw [List.drop_eq_getElem_cons inside, wr8Seq, List.cons_append] at pending
      obtain ⟨t', e, loaded', inputs⟩ := (loaded.withHostSide _ s.turns s.responses).applyInput_wr8In inside (by omega)
      cases ((hostStep_pending pending).trans e).symm.trans h
      exact .loading loaded' inside inputs
    · rw [List.drop_length, wr8Seq, List.nil_append] at pending
      obtain ⟨t', e, loaded', inLen, inputs⟩ := (loaded.withHostSide _ s.turns s.responses).applyInput_wrInLen _
      cases ((hostStep_pending pending).trans e).symm.trans h
      exact .ready loaded' inLen inputs
  | ready loaded inLen pending =>
    have loaded' := loaded.withHostSide [poll] s.turns s.responses
    have counted : s.inLen.toNat = b.length := by rw [inLen, length]
    cases ((hostStep_pending pending).trans (loaded'.applyInput_start counted fits)).symm.trans h
    exact .started (.inl rfl) (loaded'.startOp_ends counted (loaded.params ▸ wf) op)
  | started pending ends =>
    obtain ⟨k, u, run, ended⟩ := ends
    rcases pending with pending | pending
    · obtain ⟨ins, rs, e, inputs⟩ := applyInput_poll (s.withHostSide [] s.turns s.responses)
      cases ((hostStep_pending pending).trans e).symm.trans h
      exact .started inputs ⟨k, _, blockSteps_withHostSide (s := s) ins s.turns rs run, ended.withHostSide ..⟩
    · simp only [Machine.hostStep, pending] at h
      cases h
      exact .started (.inr pending) ⟨k, u, run, ended⟩

/-- Every step, whoever's turn it is, keeps to the sequence. -/
theorem CommandPhase.runSteps {k : Nat} (phase : CommandPhase op b s₀ s) (h : runSteps k s = .next t) :
    CommandPhase op b s₀ t := by
  induction k generalizing s with
  | zero =>
    cases h
    exact phase
  | succ k ih =>
    cases e : step s with
    | next t' =>
      rw [runSteps_succ e] at h
      rcases step_cases s with ⟨-, turn⟩ | ⟨-, turn⟩
      · exact ih (phase.popTurn.blockStep (turn.symm.trans e)) h
      · exact ih (phase.popTurn.hostStep wf fits (turn.symm.trans e)) h
    | fault f => simp [Machine.runSteps, e] at h
    | refused f => simp [Machine.runSteps, e] at h

/-- `LOADIN b; START; POLL` on an idle block runs to the operation's result under every schedule, and adds no violation
(40_commands.md R112, 70_reset_and_hazards.md R248). -/
theorem runCommand_result (op : CodecOp) (idle : s₀.fsm = .idle) :
    ∃ t, runCommand op.start b s₀ = .next t ∧ t.inputs = [] ∧ EndedWith s₀ (op.result b) t := by
  have command : op.start = startEncode ∨ op.start = startDecode := by cases op <;> simp [CodecOp.start]
  obtain ⟨t, run, pending, ended⟩ := runCommand_ends command b (s := s₀) (by simp [Positioned, idle])
  have begin : CommandPhase op b s₀ { s₀ with inputs := loadin b ++ [op.start, poll] } :=
    .loading (k := 0) ⟨idle, rfl, rfl, nofun⟩ (Nat.zero_le _) (by simp [loadin])
  refine ⟨t, run, pending, ?_⟩
  cases begin.runSteps wf fits run with
  | loading _ _ pending' => simp [pending] at pending'
  | ready _ _ pending' => simp [pending] at pending'
  | started _ ends =>
    obtain ⟨k, u, steps, result⟩ := ends
    cases (blockSteps_idle ended k).symm.trans steps
    exact result

end
end

/-! ### The fields of a container -/

theorem leByte_eq (v k : Nat) : leByte v k = BitVec.ofNat 8 (v / 2 ^ (8 * k)) := by
  rw [leByte, Nat.shiftRight_eq_div_pow]

/-- The bytes of a number from the second on are those of its quotient by 256. -/
theorem leByte_succ (v k : Nat) : leByte v (k + 1) = leByte (v / 256) k := by
  rw [leByte_eq, leByte_eq, Nat.div_div_eq_div_mul, Nat.mul_succ, Nat.add_comm, Nat.pow_add]

/-- `n` little-endian bytes hold a number modulo `256 ^ n` (43_host_container.md R185). -/
theorem leValue_map_leByte (n v : Nat) : leValue ((List.range n).map (leByte v)) = v % 256 ^ n := by
  induction n generalizing v with
  | zero => simp [leValue, Nat.mod_one]
  | succ n ih =>
    have rest : (List.range n).map (leByte v ∘ Nat.succ) = (List.range n).map (leByte (v / 256)) :=
      List.map_congr_left fun k _ => leByte_succ v k
    have first : (leByte v 0).toNat = v % 256 := by simp [leByte]
    rw [List.range_succ_eq_map, List.map_cons, List.map_map, leValue, first, rest, ih, Nat.pow_succ', Nat.mod_mul]

@[simp] theorem le64_length (v : Nat) : (le64 v).length = 8 := by simp [le64]

theorem leValue_le64 {v : Nat} (small : v < 2 ^ 64) : leValue (le64 v) = v := by
  rw [le64, leValue_map_leByte, Nat.mod_eq_of_lt (small.trans_eq (by decide))]

theorem byteAt_le64 (v : Nat) {k : Nat} (inside : k < 8) : byteAt (le64 v) k = leByte v k := by
  simp [byteAt, le64, List.getD, inside]

/-- A field of a file, where the bytes before it and those of the field are known. -/
theorem field_append (before bytes after : List Byte) :
    field (before ++ (bytes ++ after)) before.length bytes.length = bytes := by
  rw [field, List.drop_left, List.take_left]

theorem byteAt_field {f : List Byte} {start len k : Nat} (inside : k < len) :
    byteAt (field f start len) k = byteAt f (start + k) := by
  simp [byteAt, field, List.getD, inside]

/-- Cutting a file behind a field leaves the field (43_host_container.md R201). -/
theorem field_take {f : List Byte} {start len m : Nat} (within : start + len ≤ m) :
    field (f.take m) start len = field f start len := by
  rw [field, field, List.drop_take, List.take_take, Nat.min_eq_left (by omega)]

section
variable (flags : Byte) (size : Nat) (pl : List Byte)

/-- The container field by field (43_host_container.md R181). -/
theorem container_eq : container flags size pl =
    [0x52, 0x4C, 0x45, 0x43, 0x01, flags] ++ (le64 size ++ (le64 pl.length ++ pl)) := by
  simp [container, containerHeader, containerMagic, containerVersion]

@[simp] theorem container_length : (container flags size pl).length = 22 + pl.length := by
  simp [container_eq]
  omega

@[simp] theorem take_four_container : (container flags size pl).take 4 = containerMagic := rfl

@[simp] theorem byteAt_four_container : byteAt (container flags size pl) 4 = containerVersion := rfl

@[simp] theorem byteAt_five_container : byteAt (container flags size pl) 5 = flags := rfl

@[simp] theorem flagsRle_container : flagsRle (container flags size pl) = flags.getLsbD 0 := rfl

theorem originalSize_field : field (container flags size pl) 6 8 = le64 size := by
  simpa using container_eq flags size pl ▸ field_append [0x52, 0x4C, 0x45, 0x43, 0x01, flags] (le64 size) _

theorem payloadSize_field : field (container flags size pl) 14 8 = le64 pl.length := by
  have split : container flags size pl =
      ([0x52, 0x4C, 0x45, 0x43, 0x01, flags] ++ le64 size) ++ (le64 pl.length ++ pl) := by
    rw [container_eq, List.append_assoc]
  simpa using split ▸ field_append ([0x52, 0x4C, 0x45, 0x43, 0x01, flags] ++ le64 size) (le64 pl.length) pl

@[simp] theorem payload_container : payload (container flags size pl) = pl := by
  rw [container_eq, payload, headerBytes]
  simp [List.drop_append]

end

theorem originalSize_container (flags : Byte) {size : Nat} (small : size < 2 ^ 64) (pl : List Byte) :
    originalSize (container flags size pl) = size := by
  rw [originalSize, originalSize_field, leValue_le64 small]

theorem payloadSize_container (flags : Byte) (size : Nat) {pl : List Byte} (small : pl.length < 2 ^ 64) :
    payloadSize (container flags size pl) = pl.length := by
  rw [payloadSize, payloadSize_field, leValue_le64 small]

/-! ### The checks of unpack -/

/-- The checks before the payload's mode matters fail alike (43_host_container.md R193, R194). -/
theorem headerCheck_eq (f : List Byte) :
    headerCheck f =
      if 22 ≤ f.length ∧ f.take 4 = containerMagic ∧ byteAt f 4 = containerVersion ∧ 22 + payloadSize f = f.length
      then none else some .malformedContainer := by
  by_cases long : 22 ≤ f.length
  · simp only [headerCheck, headerBytes, Nat.not_lt.mpr long, long, if_false, true_and]
    split_ifs <;> simp_all
  · simp [headerCheck, headerBytes, long, Nat.not_le.mp long]

theorem headerCheck_eq_none_iff {f : List Byte} :
    headerCheck f = none ↔
      22 ≤ f.length ∧ f.take 4 = containerMagic ∧ byteAt f 4 = containerVersion ∧ 22 + payloadSize f = f.length := by
  simp [headerCheck_eq]

/-- A file that fails a check is rejected with the block left alone. -/
theorem unpack_malformed {f : List Byte} (fails : ¬headerCheck f = none) (s : State) :
    unpack f s = .next (s, .fail .malformedContainer) := by
  rw [headerCheck_eq_none_iff] at fails
  rw [unpack, headerCheck_eq, if_neg fails]

section
variable {f : List Byte} (passes : headerCheck f = none) (s : State)
include passes

theorem length_payload : (payload f).length = payloadSize f := by
  obtain ⟨-, -, -, length⟩ := headerCheck_eq_none_iff.mp passes
  rw [payload, List.length_drop, headerBytes]
  omega

theorem unpack_raw (raw : flagsRle f = false) : unpack f s = .next (s, unpackRaw f) := by simp [unpack, passes, raw]

theorem unpack_rle (rle : flagsRle f = true) : unpack f s = unpackRle f s := by simp [unpack, passes, rle]

end

/-! ### unpack on the block -/

/-- What unpack makes of the decoded payload (43_host_container.md R198). -/
def unpacked (size : Nat) : DecResult → UnpackResult
  | .ok o => if o.length = size then .ok o else .fail .sizeMismatch
  | .malformedPayload => .fail .malformedPayload

/-- An output that exceeds OUT_CAP has not the declared size, which does not. -/
theorem decodeOutcome_of_holdsResult {t : State} {d : DecResult} (result : HoldsResult t d) {size : Nat}
    (fits : size ≤ t.params.outCap) : decodeOutcome size t = unpacked size d := by
  cases d with
  | malformedPayload =>
    obtain ⟨err, -⟩ := result
    simp [decodeOutcome, err, unpacked]
  | ok o =>
    obtain ⟨succeeds, overflows⟩ := result
    by_cases short : o.length ≤ t.params.outCap
    · obtain ⟨err, -, out⟩ := succeeds short
      have length : t.outLen.toNat = o.length := by rw [← out, outBytes_length]
      simp [decodeOutcome, err, unpacked, length, out]
    · obtain ⟨err, -⟩ := overflows (by omega)
      have mismatch : o.length ≠ size := by omega
      simp [decodeOutcome, err, unpacked, mismatch]

/-- The RLE path runs DECODE on the payload, under every schedule (43_host_container.md R196 to R198). -/
theorem unpackRle_decodes {s : State} {f : List Byte} (wf : s.params.wellFormed = true) (idle : s.fsm = .idle)
    (passes : headerCheck f = none) (nonempty : originalSize f ≠ 0) (fitsIn : payloadSize f ≤ s.params.inCap)
    (fitsOut : originalSize f ≤ s.params.outCap) :
    ∃ t, HostReady t ∧ unpackRle f s = .next (t, unpacked (originalSize f) (dec (payload f))) := by
  obtain ⟨t, run, pending, ended⟩ :=
    runCommand_result wf (b := payload f) (by rwa [length_payload passes]) .dec idle
  have outcome := decodeOutcome_of_holdsResult ended.result (ended.params ▸ fitsOut)
  refine ⟨t, ⟨ended.idle, pending⟩, ?_⟩
  have within : ¬(payloadSize f > s.params.inCap ∨ originalSize f > s.params.outCap) := by omega
  rw [CodecOp.start] at run
  rw [unpackRle, if_neg nonempty, if_neg within, run]
  exact congrArg (fun r => Host.Outcome.next (t, r)) outcome

/-! ### pack on the block -/

/-- The encoding that ENCODE gives on a block with parameters `p`, if its input and its output fit
(43_host_container.md R188). -/
def blockEncoding (p : Params) (b : List Byte) : Option (List Byte) :=
  if b.length ≤ p.inCap ∧ (enc b).length ≤ p.outCap then some (enc b) else none

/-- What the host takes from a block whose ENCODE has ended. -/
theorem encodedResult_of_holdsResult {t : State} {b : List Byte} (result : HoldsResult t (.ok (enc b)))
    (fits : b.length ≤ t.params.inCap) : encodedResult t = blockEncoding t.params b := by
  obtain ⟨succeeds, overflows⟩ := result
  by_cases short : (enc b).length ≤ t.params.outCap
  · obtain ⟨err, -, out⟩ := succeeds short
    simp [encodedResult, blockEncoding, err, out, fits, short]
  · obtain ⟨err, -⟩ := overflows (by omega)
    simp [encodedResult, blockEncoding, err, short]

/-- pack completes under every schedule, and selects by the encoding the block can give (43_host_container.md R187 to
R189). -/
theorem pack_selects {s : State} (wf : s.params.wellFormed = true) (ready : HostReady s) (b : List Byte) :
    ∃ t, pack b s = .next (t, selectMode b (blockEncoding s.params b)) ∧ HostReady t ∧ t.violated = s.violated := by
  have ⟨idle, _⟩ := ready
  by_cases empty : b = []
  · subst empty
    exact ⟨s, by simp [pack, blockEncoding, selectMode], ready, rfl⟩
  by_cases fits : b.length ≤ s.params.inCap
  · obtain ⟨t, run, pending, ended⟩ := runCommand_result wf fits .enc idle
    have encoded := encodedResult_of_holdsResult ended.result (ended.params ▸ fits)
    rw [ended.params] at encoded
    rw [CodecOp.start] at run
    refine ⟨t, ?_, ⟨ended.idle, pending⟩, ended.violated⟩
    rw [pack, if_neg empty, if_neg (Nat.not_lt.mpr fits), run, ← encoded]
  · exact ⟨s, by simp [pack, blockEncoding, empty, fits, Nat.not_le.mp fits], ready, rfl⟩

/-- A container is stored raw, or holds an encoding shorter than its input (43_host_container.md R189). -/
theorem selectMode_cases (b : List Byte) (encoded : Option (List Byte)) :
    selectMode b encoded = container 0x00 b.length b ∨
      ∃ e, encoded = some e ∧ e.length < b.length ∧ selectMode b encoded = container 0x01 b.length e := by
  cases encoded with
  | none => exact .inl rfl
  | some e =>
    by_cases smaller : e.length < b.length
    · exact .inr ⟨e, rfl, smaller, if_pos smaller⟩
    · exact .inl (if_neg smaller)

/-- The software pack selects by the encoding, whatever its size; an empty input has an empty one (43_host_container.md
R187, R191). -/
theorem packSoftware_eq_selectMode (b : List Byte) : packSoftware b = selectMode b (some (enc b)) := by
  rw [packSoftware]
  split_ifs with empty
  · subst empty
    rfl
  · rfl

/-- What every container that pack gives of `b` is (43_host_container.md R186, R190). -/
structure Packed (b f : List Byte) : Prop where
  passes : headerCheck f = none
  original : originalSize f = b.length
  bound : payloadSize f ≤ b.length
  raw : flagsRle f = false → payloadSize f = originalSize f

theorem container_packed (flags : Byte) {b pl : List Byte} (small : b.length < 2 ^ 64) (bound : pl.length ≤ b.length)
    (raw : flags.getLsbD 0 = false → pl.length = b.length) : Packed b (container flags b.length pl) := by
  have original := originalSize_container flags small pl
  have length := payloadSize_container flags b.length (bound.trans_lt small)
  refine ⟨headerCheck_eq_none_iff.mpr ?_, original, length ▸ bound, by rwa [original, length]⟩
  simp [length]

theorem selectMode_packed {b : List Byte} (small : b.length < 2 ^ 64) (encoded : Option (List Byte)) :
    Packed b (selectMode b encoded) := by
  rcases selectMode_cases b encoded with e | ⟨pl, -, shorter, e⟩ <;> rw [e]
  · exact container_packed 0x00 small le_rfl fun _ => rfl
  · exact container_packed 0x01 small shorter.le (by simp)

/-- A stored-raw container gives its contents back without the block (43_host_container.md R195). -/
theorem unpack_storedRaw {b : List Byte} (small : b.length < 2 ^ 64) (s : State) :
    unpack (container 0x00 b.length b) s = .next (s, .ok b) := by
  have packed := container_packed 0x00 small le_rfl fun _ => rfl
  have raw : flagsRle (container 0x00 b.length b) = false := by simp
  have same : ¬originalSize (container 0x00 b.length b) ≠ payloadSize (container 0x00 b.length b) :=
    not_not.mpr (packed.raw raw).symm
  rw [unpack_raw packed.passes s raw, unpackRaw, if_neg same, payload_container]

end Sys2Proof.Machine

namespace Sys2Proof.Proofs

open Sys2Proof.Machine

/-- Settles O52, field by field. -/
theorem containerLayoutIsByteExact : Obligations.ContainerLayoutIsByteExact := by
  intro flags size pl smallSize smallPl
  have bytes : ∀ (start v k : Nat), field (container flags size pl) start 8 = le64 v → k < 8 →
      byteAt (container flags size pl) (start + k) = BitVec.ofNat 8 (v / 2 ^ (8 * k)) := by
    intro start v k stored inside
    rw [← byteAt_field inside, stored, byteAt_le64 v inside, leByte_eq]
  exact ⟨container_length .., take_four_container .., byteAt_four_container .., byteAt_five_container ..,
    fun k => bytes 6 size k (originalSize_field ..), fun k => bytes 14 pl.length k (payloadSize_field ..),
    originalSize_container flags smallSize pl, payloadSize_container flags size smallPl, payload_container ..⟩

/-- Settles O53: pack selects between a stored-raw container and one with an encoding shorter than the input. -/
theorem packGivesAConsistentContainer : Obligations.PackGivesAConsistentContainer := by
  intro s b wf ready small
  obtain ⟨t, packs, ready', violated⟩ := pack_selects wf ready b
  obtain ⟨passes, original, bound, raw⟩ := selectMode_packed small (blockEncoding s.params b)
  obtain ⟨-, -, -, length⟩ := headerCheck_eq_none_iff.mp passes
  exact ⟨t, _, packs, ready', violated, length, raw, original, bound⟩

/-- Settles O54: an encoding that does not fit OUT is not smaller than the input, so neither pack selects it. -/
theorem packOnTheBlockIsTheSoftwarePack : Obligations.PackOnTheBlockIsTheSoftwarePack := by
  intro s b wf ready fitsIn fitsOut
  obtain ⟨t, packs, -⟩ := pack_selects wf ready b
  have same : selectMode b (blockEncoding s.params b) = packSoftware b := by
    rw [packSoftware_eq_selectMode]
    by_cases short : (enc b).length ≤ s.params.outCap
    · rw [blockEncoding, if_pos ⟨fitsIn, short⟩]
    · have notSmaller : ¬(enc b).length < b.length := by omega
      simp [blockEncoding, short, selectMode, notSmaller]
  exact ⟨t, same ▸ packs⟩

/-- Settles O55, by the checks in their order. -/
theorem unpackRejectsInOrder : Obligations.UnpackRejectsInOrder := by
  intro s f
  refine ⟨fun fails => unpack_malformed ?_ s, fun long magic version length => ?_⟩
  · rw [headerCheck_eq_none_iff]
    rintro ⟨long, magic, version, length⟩
    rcases fails with short | other | other | other
    · omega
    · exact other magic
    · exact other version
    · exact other length
  have passes : headerCheck f = none := headerCheck_eq_none_iff.mpr ⟨Nat.not_lt.mp long, magic, version, length⟩
  refine ⟨fun raw differ => ?_, fun raw same => ?_, fun rle zero => ?_, fun rle nonzero large => ?_⟩
  · rw [unpack_raw passes s raw, unpackRaw, if_pos differ]
  · rw [unpack_raw passes s raw, unpackRaw, if_neg (not_not.mpr same), payload, headerBytes]
  · rw [unpack_rle passes s rle, unpackRle, if_pos zero]
  · rw [unpack_rle passes s rle, unpackRle, if_neg nonzero, if_pos large]

/-- Settles O56: DECODE runs to its result under every schedule, and unpack compares its length. -/
theorem unpackMapsTheBlockResult : Obligations.UnpackMapsTheBlockResult := by
  intro s f wf ready passes rle nonempty fitsIn fitsOut
  obtain ⟨idle, -⟩ := ready
  obtain ⟨t, ready', unpacks⟩ := unpackRle_decodes wf idle passes nonempty fitsIn fitsOut
  rw [← unpack_rle passes s rle, payload, headerBytes] at unpacks
  refine ⟨t, ready', fun malformed => ?_, fun o decodes differ => ?_, fun o decodes same => ?_⟩
  · rw [unpacks, malformed, unpacked]
  · rw [unpacks, decodes, unpacked, if_neg differ]
  · rw [unpacks, decodes, unpacked, if_pos same]

/-- Settles O57: a stored-raw container gives its payload, and an encoding decodes to the input. -/
theorem unpackingAPackGivesTheInputBack : Obligations.UnpackingAPackGivesTheInputBack := by
  intro s b wf ready fitsIn fitsOut
  obtain ⟨-, inCap, -⟩ := Params.caps_of_wellFormed wf
  have small : b.length < 2 ^ 64 := by omega
  obtain ⟨t, packs, ready', -⟩ := pack_selects wf ready b
  refine ⟨t, _, packs, ready', fun u ⟨idle, _⟩ params => ?_⟩
  obtain ⟨passes, original, bound, -⟩ := selectMode_packed small (blockEncoding s.params b)
  rcases selectMode_cases b (blockEncoding s.params b) with e | ⟨pl, encoded, shorter, e⟩ <;>
    rw [e] at passes original bound ⊢
  · exact ⟨u, unpack_storedRaw small u⟩
  · obtain ⟨-, rfl⟩ : (b.length ≤ s.params.inCap ∧ (enc b).length ≤ s.params.outCap) ∧ enc b = pl := by
      simpa [blockEncoding] using encoded
    obtain ⟨v, -, unpacks⟩ := unpackRle_decodes (params ▸ wf) idle passes (by omega) (params ▸ bound.trans fitsIn)
      (by rw [original, params]; exact fitsOut)
    rw [payload_container, decodingAnEncodingGivesTheInputBack b, unpacked, original, if_pos rfl] at unpacks
    exact ⟨v, (unpack_rle passes u (by simp)).trans unpacks⟩

/-- Settles O58: the length field, which lies in the header, does not match the length after the cut. -/
theorem truncatedContainerIsRejected : Obligations.TruncatedContainerIsRejected := by
  intro s t u b f k wf ready small packs cut within
  obtain ⟨_, packs', -⟩ := pack_selects wf ready b
  cases packs'.symm.trans packs
  obtain ⟨passes, -⟩ := selectMode_packed small (blockEncoding s.params b)
  obtain ⟨-, -, -, length⟩ := headerCheck_eq_none_iff.mp passes
  refine unpack_malformed (fun passes' => ?_) u
  obtain ⟨long, -, -, length'⟩ := headerCheck_eq_none_iff.mp passes'
  rw [List.length_take] at long length'
  rw [payloadSize, field_take (by omega), ← payloadSize] at length'
  omega

end Sys2Proof.Proofs
end

section
/-! SUPPORT. The statements of 60_exceptions.md: error entry; whose input can change the recorded result; that every turn
has an outcome, and which are refused. -/

namespace Sys2Proof.Machine

/-! ### A turn by its input -/

/-- All that a step is: the block's, the host's with nothing pending, or the host's oldest pending input. -/
theorem step_cases_by_input (s : State) :
    (nextAgent s = .block ∧ step s = blockStep (popTurn s)) ∨
    (nextAgent s = .host ∧ s.inputs = [] ∧ step s = .next (popTurn s)) ∨
    ∃ i rest, nextAgent s = .host ∧ s.inputs = i :: rest ∧ step s = applyInput i { popTurn s with inputs := rest } := by
  rcases step_cases s with block | ⟨turn, e⟩
  · exact .inl block
  · cases pending : s.inputs with
    | nil => exact .inr (.inl ⟨turn, rfl, by simp [e, hostStep, pending]⟩)
    | cons i rest => exact .inr (.inr ⟨i, rest, turn, rfl, step_host turn pending⟩)

/-- While idle no block step is enabled, and the block's turn passes (60_exceptions.md R228). -/
theorem blockStep_idle {s : State} (idle : s.fsm = .idle) : blockStep s = .next s := by
  simp [blockStep, idle]

/-! ### The recorded result -/

/-- An access of the host that changes DONE or ERR is a write of CMD, by region or by address (60_exceptions.md R218). -/
theorem hostOp_changes_result_only_by_command {op : HostOp} {s t : State} (h : hostOp op s = .next t)
    (changed : (t.done, t.err) ≠ (s.done, s.err)) :
    ∃ w, op = .write .reg 0x08 8 w ∨ ∃ a, op = .memWrite a 8 w ∧ locate s.params a = some (.reg, 0x08) := by
  rcases hostOp_cases op s with ⟨-, e⟩ | ⟨w, command, -⟩ | e | ⟨_, _, _, e, -⟩ | ⟨-, _, e⟩ | ⟨-, _, _, -, e⟩
  case inr.inl => exact ⟨w, command⟩
  all_goals cases e.symm.trans h
  all_goals exact absurd rfl changed

/-! ### Every turn has an outcome -/

theorem writeCmd_completes (w : Word) (s : State) : ∃ t, writeCmd w s = .next t := by
  rcases writeCmd_cases w s with ⟨_, -, e⟩ | ⟨-, e | ⟨_, -, e⟩ | ⟨_, -, e⟩⟩ <;> exact ⟨_, e⟩

/-- An access of the host completes in every state, unless its address lies outside the regions
(93_implementation_defined.md V6). -/
theorem hostOp_completes_or_outside (op : HostOp) (s : State) :
    (∃ t, hostOp op s = .next t) ∨
    ((∃ a width v, (op = .memRead a width ∨ op = .memWrite a width v) ∧ locate s.params a = none) ∧
      hostOp op s = .refused .outsideRegions) := by
  rcases hostOp_cases op s with outside | ⟨w, -, e⟩ | e | ⟨_, _, _, e, -⟩ | ⟨-, _, e⟩ | ⟨-, _, _, -, e⟩
  · exact .inr outside
  · exact .inl (e ▸ writeCmd_completes w s)
  all_goals exact .inl ⟨_, e⟩

/-- A block step completes while `RD` has not passed `N` (10_state.md R33). -/
theorem blockStep_completes {s : State} (within : ∀ r, s.fsm = .running r → r.rd ≤ r.n) : ∃ t, blockStep s = .next t := by
  cases running : s.fsm with
  | idle => exact ⟨s, blockStep_idle running⟩
  | running r =>
    rcases (within r running).eq_or_lt with atEnd | inside
    · exact ⟨_, blockStep_atEnd running atEnd⟩
    · exact ⟨_, blockStep_inside running inside⟩

end Sys2Proof.Machine

namespace Sys2Proof.Proofs

open Sys2Proof.Machine

/-- Settles O15: the cells below the count are written with draws, and no other is. -/
theorem errorEntryRecordsTheCodeAndFreesTheOutput : Obligations.ErrorEntryRecordsTheCodeAndFreesTheOutput := by
  intro e r s
  obtain ⟨hin, hhost, -⟩ := raiseError_writesOnlyOutput e r s
  exact ⟨rfl, statusWord_raiseError e r s, rfl, rfl,
    fun _ freed => Option.isSome_iff_exists.mp (scramble_written_iff.mpr (.inl freed)),
    fun _ kept => scramble_read_beyond s.draws s.outBuf kept, hin, hhost⟩

/-- Settles O16: an idle block's own turn passes, and of the host's inputs only reset and a write of CMD touch the result. -/
theorem idleStatusChangesOnlyByCommandOrReset : Obligations.IdleStatusChangesOnlyByCommandOrReset := by
  intro s t h idle changed
  rcases step_cases_by_input s with ⟨-, e⟩ | ⟨-, -, e⟩ | ⟨i, rest, turn, pending, e⟩ <;> rw [e] at h
  · cases (blockStep_idle (s := popTurn s) idle).symm.trans h
    exact absurd rfl changed
  · cases h
    exact absurd rfl changed
  · refine ⟨turn, i, rest, pending, ?_⟩
    cases i with
    | host op =>
      obtain ⟨w, rfl | ⟨a, rfl, located⟩⟩ := hostOp_changes_result_only_by_command h changed
      · exact .inr (.inl ⟨w, rfl⟩)
      · exact .inr (.inr ⟨a, w, rfl, located⟩)
    | reset => exact .inl rfl
    | secondHost => cases h

/-- Settles O48: the invariant keeps `RD` within `N`, so the block's turn completes, and of the host's inputs only those
of V5 and V6 are refused. -/
theorem noStepFaultsUnderTheInvariant : Obligations.NoStepFaultsUnderTheInvariant := by
  intro s inv
  rcases step_cases_by_input s with ⟨-, e⟩ | ⟨-, -, e⟩ | ⟨i, rest, -, pending, e⟩
  · have within : ∀ r, (popTurn s).fsm = .running r → r.rd ≤ r.n := fun r running => by
      obtain ⟨-, -, rd, -⟩ := inv.runCounts r running
      exact rd
    exact .inl (e ▸ blockStep_completes within)
  · exact .inl ⟨_, e⟩
  · cases i with
    | host op =>
      rcases hostOp_completes_or_outside op { popTurn s with inputs := rest } with
        ⟨t, h⟩ | ⟨⟨a, width, v, access, outside⟩, h⟩
      · exact .inl ⟨t, e.trans h⟩
      · refine .inr (.inr ⟨a, width, v, rest, ?_, outside, e.trans h⟩)
        rcases access with rfl | rfl
        · exact .inl pending
        · exact .inr pending
    | reset => exact .inl ⟨_, e⟩
    | secondHost => exact .inr (.inl ⟨rest, pending, e⟩)

end Sys2Proof.Proofs
end

section
/-! SUPPORT. The statements of 70_reset_and_hazards.md: the host's sequence as Enc and Dec give its result; how the host
comes to know that OUT may be read; reads of OUT while an operation runs. -/

namespace Sys2Proof.Machine

/-! ### How the host comes to know that OUT may be read -/

/-- A turn that starts no operation and returns at most one value settles OUT only by showing an idle block's STATUS
(70_reset_and_hazards.md R244 duty 3). -/
theorem ReadsAtMostOne.settles_only_by_status {s t : State} (read : ReadsAtMostOne s t.responses)
    (started : t.startedAt = s.startedAt) (before : s.outSettled = false) (after : t.outSettled = true) :
    s.fsm = .idle ∧ t.responses = .word 0x10 (statusWord s) :: s.responses := by
  rcases read with same | ⟨x, grown, shows⟩
  · rw [outSettled_congr started same, before] at after
    cases after
  · have shown : x.showsIdle = true := (outSettled_of_read started grown after).resolve_left (by simp [before])
    obtain ⟨idle, rfl⟩ := shows shown
    exact ⟨idle, grown⟩

/-- A block step neither starts an operation nor returns a value, so it settles nothing. -/
theorem blockStep_outSettled {s t : State} (h : blockStep s = .next t) : t.outSettled = s.outSettled := by
  obtain ⟨-, -, started, -, -, responses⟩ := (blockStep_writesOnlyOutput h).sameHostSide
  exact outSettled_congr started responses

/-- A command settles nothing: a start unsettles OUT, and anything else leaves the record alone. -/
theorem writeCmd_outSettled {w : Word} {s t : State} (h : writeCmd w s = .next t) (before : s.outSettled = false) :
    t.outSettled = false := by
  rcases writeCmd_cases w s with ⟨_, -, e⟩ | ⟨-, e | ⟨op, -, e⟩ | ⟨_, -, e⟩⟩ <;> cases e.symm.trans h
  case inr.inr.inl => exact startOp_outSettled op s
  all_goals exact before

/-- Of the host's accesses only a STATUS read of an idle block settles OUT (70_reset_and_hazards.md R244 duty 3). -/
theorem hostOp_settles_only_by_status {op : HostOp} {s t : State} (h : hostOp op s = .next t)
    (before : s.outSettled = false) (after : t.outSettled = true) :
    s.fsm = .idle ∧ t.responses = .word 0x10 (statusWord s) :: s.responses := by
  rcases hostOp_cases op s with
    ⟨-, e⟩ | ⟨w, -, e⟩ | e | ⟨rs, _, _, e, read⟩ | ⟨-, _, e⟩ | ⟨-, _, _, -, e⟩
  case inl => cases e.symm.trans h
  case inr.inl => simp [writeCmd_outSettled (e.symm.trans h) before] at after
  case inr.inr.inr.inl =>
    cases e.symm.trans h
    exact ReadsAtMostOne.settles_only_by_status read rfl before after
  all_goals
    cases e.symm.trans h
    exact ReadsAtMostOne.settles_only_by_status (.inl rfl) rfl before after

/-! ### Reads of OUT while an operation runs -/

/-- A read leaves the operation, the parameters and what is pending as they are, and gives no draw back. -/
theorem busRead_frame (region : Region) (offset width : Nat) (s : State) :
    (busRead region offset width s).fsm = s.fsm ∧ (busRead region offset width s).params = s.params ∧
      (busRead region offset width s).inputs = s.inputs ∧ (busRead region offset width s).turns = s.turns ∧
      s.draws ≤ (busRead region offset width s).draws := by
  rcases busRead_cases region offset width s with e | ⟨x, d, e, -⟩ <;> rw [e]
  · exact ⟨rfl, rfl, rfl, rfl, le_rfl⟩
  · exact ⟨rfl, rfl, rfl, rfl, Nat.le_add_right ..⟩

/-- A read of a cell of OUT takes a draw while an operation runs (20_memory.md R57). -/
theorem busRead_outbuf_busy {s : State} {i : Nat} (inside : i < s.params.outCap) (busy : isBusy s = true) :
    busRead .outbuf i 1 s = respondCell none s := by
  rw [busRead_outbuf inside, outCell_busy busy]

/-- The schedule's first entry moves next (10_state.md R22). -/
theorem nextAgent_scheduled {s : State} {a : Agent} {later : List Agent} (turns : s.turns = a :: later) :
    nextAgent s = a := by
  simp [nextAgent, turns]

/-- While an operation runs and every turn is the host's, whatever it reads first, its read of a cell of OUT takes a draw
(20_memory.md R57). -/
theorem runSteps_reads_then_outRead {i : Nat} {reads : List HostOp} {s : State} {r : Run} (running : s.fsm = .running r)
    (inside : i < s.params.outCap) (areReads : ∀ op ∈ reads, ∃ region offset width, op = .read region offset width)
    (turns : s.turns = List.replicate (reads.length + 1) .host)
    (pending : s.inputs = reads.map Input.host ++ [.host (.read .outbuf i 1)]) :
    ∃ t d, runSteps (reads.length + 1) s = .next t ∧ s.draws ≤ d ∧ t.draws = d + 1 ∧
      t.responses.head? = some (.byte (Config.freeByte d)) := by
  induction reads generalizing s with
  | nil =>
    have draws := busRead_outbuf_busy (s := { popTurn s with inputs := [] }) inside (isBusy_running running)
    have first := (step_host (nextAgent_scheduled turns) pending).trans (congrArg Host.Outcome.next draws)
    exact ⟨_, s.draws, runSteps_succ first 0, le_rfl, rfl, rfl⟩
  | cons op reads ih =>
    obtain ⟨⟨region, offset, width, rfl⟩, later⟩ := List.forall_mem_cons.mp areReads
    rw [List.map_cons, List.cons_append] at pending
    obtain ⟨fsm, params, inputs, turns', drawn⟩ := busRead_frame region offset width
      { popTurn s with inputs := reads.map Input.host ++ [.host (.read .outbuf i 1)] }
    have first := step_host (nextAgent_scheduled turns) pending
    have left : (popTurn s).turns = List.replicate (reads.length + 1) .host := congrArg List.tail turns
    obtain ⟨t, d, run, least, result⟩ := ih (fsm.trans running) (params ▸ inside) later (turns'.trans left) inputs
    exact ⟨t, d, (runSteps_succ first _).trans run, drawn.trans least, result⟩

end Sys2Proof.Machine

namespace Sys2Proof.Proofs

open Sys2Proof.Machine

/-- Settles O51: every turn keeps to the sequence's phases, and the sequence ends with the result of its operation. -/
theorem commandRunsToItsResultUnderEverySchedule : Obligations.CommandRunsToItsResultUnderEverySchedule := by
  intro s b wf ⟨idle, _⟩ fits
  refine ⟨?_, ?_⟩
  · obtain ⟨t, run, pending, ended⟩ := runCommand_result wf fits .enc idle
    obtain ⟨short, long⟩ := ended.result
    rw [ended.params] at short long
    exact ⟨t, run, ⟨pending, ended.idle⟩, ended.violated, ended.params, short, long⟩
  · obtain ⟨t, run, pending, ended⟩ := runCommand_result wf fits .dec idle
    have result : ∀ d, dec b = d → HoldsResult t d := fun d decodes => decodes ▸ ended.result
    refine ⟨t, run, ⟨pending, ended.idle⟩, ended.violated, ended.params, result .malformedPayload,
      fun o decodes fitsOut => ?_, fun o decodes overflows => ?_⟩
    · obtain ⟨short, -⟩ := result (.ok o) decodes
      exact short (ended.params ▸ fitsOut)
    · obtain ⟨-, long⟩ := result (.ok o) decodes
      exact long (ended.params ▸ overflows)

/-- Settles O59: the block's turns leave the record alone, and of the host's inputs only reset and a STATUS read that
shows an idle block settle OUT. -/
theorem outSettlesOnlyByAStatusReadOrReset : Obligations.OutSettlesOnlyByAStatusReadOrReset := by
  intro s t h before after
  rcases step_cases_by_input s with ⟨-, e⟩ | ⟨-, -, e⟩ | ⟨i, rest, turn, pending, e⟩ <;> rw [e] at h
  · have unsettled : t.outSettled = false := (blockStep_outSettled h).trans before
    simp [unsettled] at after
  · cases h
    exact absurd after (Bool.eq_false_iff.mp before)
  · refine ⟨turn, ?_⟩
    cases i with
    | host op =>
      obtain ⟨idle, shown⟩ := hostOp_settles_only_by_status h before after
      exact .inr ⟨idle, (statusWord_bit_zero s).trans (isBusy_idle idle), shown⟩
    | reset => exact .inl ⟨rest, pending⟩
    | secondHost => cases h

/-- Settles O60: the invariant keeps OUT unsettled while an operation runs; and before, the schedule that gives the host
every turn leaves the operation running until OUT is read. -/
theorem outReadIsCertainOnlyOnceSettled : Obligations.OutReadIsCertainOnlyOnceSettled := by
  refine ⟨fun s inv settled i b inside written => ?_, fun s reads i busy inside areReads => ?_⟩
  · have idle : isBusy s = false := by
      refine Bool.eq_false_iff.mpr fun busy => ?_
      obtain ⟨r, running⟩ := isBusy_eq_true.mp busy
      simp [inv.runUnsettled r running] at settled
    rw [busRead_outbuf inside, outCell_idle idle, written, respondCell_some]
  · obtain ⟨r, running⟩ := isBusy_eq_true.mp busy
    exact runSteps_reads_then_outRead (s := { s with turns := _, inputs := _ }) running inside areReads rfl rfl

end Sys2Proof.Proofs
end
